-- ==== Sys2Proof/Word.lean ====
section
/-! DEFINITION. The word types of the engine (00_scope.md R13, R18). Everything that takes words apart stands in
Machine/Bits.lean. -/

namespace Sys2Proof

/-- A word of the host window and a command word (R110, R76). -/
abbrev Word := BitVec 32

/-- A raw integer, a field element, a scalar or a coordinate as a register holds it (R13). -/
abbrev Word256 := BitVec 256

/-- The value-out register's width (R37). -/
abbrev Word64 := BitVec 64

/-- One byte of a serialization (R18). -/
abbrev Byte := BitVec 8

end Sys2Proof
end

