-- ==== Sys2Proof/Config.lean ====
section
/-! DEFINITION. The constants built into the engine, its open parameters and its free values. An `opaque` constant has no
body: no proof can see a value of it (00_scope.md R14, R16). -/

namespace Sys2Proof.Config

/-- The field prime (00_scope.md R9). -/
def p : Nat := 0xFFFFFFFFFFFFFFFFFFFFFFFFFFFFFFFFFFFFFFFFFFFFFFFFFFFFFFFEFFFFFC2F

/-- The group order (00_scope.md R10). -/
def n : Nat := 0xFFFFFFFFFFFFFFFFFFFFFFFFFFFFFFFEBAAEDCE6AF48A03BBFD25E8CD0364141

/-- `floor(n/2)` (43_ecdsa.md R253). -/
def halfN : Nat := 0x7FFFFFFFFFFFFFFFFFFFFFFFFFFFFFFF5D576E7357A4501DDFE92F46681B20A0

/-- The generator's coordinates (00_scope.md R11). -/
def gx : Nat := 0x79BE667EF9DCBBAC55A06295CE870B07029BFCDB2DCE28D959F2815B16F81798

/-- See `gx`. -/
def gy : Nat := 0x483ADA7726A3C4655DA4FBFC0E1108A8FD17B448A68554199C47D08FFB10D4B8

/-- `ID_VALUE`, the content of the ID register (10_state.md R41): an open parameter. -/
opaque idValue : Word

/-- The keyed hash of an engine whose HMAC is not one the model writes out (43_ecdsa.md R241): 32-byte key, byte string,
32-byte result. An open parameter. -/
opaque hmacOther : Word256 → List Byte → Word256

/-- `draw32()` of 20_memory.md R84: what a host read of a data register returns while BUSY. The argument numbers the draw. -/
opaque draw32 : Nat → Word

/-- What the data registers hold after a reset inside a run (70_reset_and_hazards.md R342): draw number, then slot. -/
opaque freeWord : Nat → Nat → Word256

end Sys2Proof.Config
end

