-- ==== Sys2Proof/Syntax.lean ====
section
/-! DEFINITION. The command set: one constructor per row of spec/opcode_table.json (30_encoding.md R118). An operand is an
index of an existing register of its file (R116), so a term of this type is always well formed; what can be ill formed is
a command WORD, and WellFormed.lean says which words are legal. -/

namespace Sys2Proof

/-- An F register (10_state.md R33). -/
abbrev FReg := Fin 8
/-- An S register (10_state.md R34). -/
abbrev SReg := Fin 8
/-- A P register (10_state.md R35). -/
abbrev PReg := Fin 4
/-- A RAW register (10_state.md R32). -/
abbrev RReg := Fin 4

/-- The 37 commands, operands in the order `d, a, b, c` of the used fields (30_encoding.md R121). -/
inductive Instr where
  /-- NOP (44_control.md R290). -/
  | nop
  /-- FE_NEW (40_field.md R142). -/
  | feNew (d : FReg) (a : RReg)
  /-- FE_ADD (40_field.md R143). -/
  | feAdd (d : FReg) (a : FReg) (b : FReg)
  /-- FE_SUB (40_field.md R144). -/
  | feSub (d : FReg) (a : FReg) (b : FReg)
  /-- FE_MUL (40_field.md R145). -/
  | feMul (d : FReg) (a : FReg) (b : FReg)
  /-- FE_POW (40_field.md R146). -/
  | fePow (d : FReg) (a : FReg) (b : RReg)
  /-- FE_INV (40_field.md R147). -/
  | feInv (d : FReg) (a : FReg)
  /-- FE_EQ (40_field.md R148). -/
  | feEq (a : FReg) (b : FReg)
  /-- FE_RET (40_field.md R149). -/
  | feRet (d : RReg) (a : FReg)
  /-- SC_NEW (41_scalar.md R172). -/
  | scNew (d : SReg) (a : RReg)
  /-- SC_ADD (41_scalar.md R173). -/
  | scAdd (d : SReg) (a : SReg) (b : SReg)
  /-- SC_SUB (41_scalar.md R174). -/
  | scSub (d : SReg) (a : SReg) (b : SReg)
  /-- SC_MUL (41_scalar.md R175). -/
  | scMul (d : SReg) (a : SReg) (b : SReg)
  /-- SC_POW (41_scalar.md R176). -/
  | scPow (d : SReg) (a : SReg) (b : RReg)
  /-- SC_INV (41_scalar.md R177). -/
  | scInv (d : SReg) (a : SReg)
  /-- SC_EQ (41_scalar.md R178). -/
  | scEq (a : SReg) (b : SReg)
  /-- SC_RET (41_scalar.md R179). -/
  | scRet (d : RReg) (a : SReg)
  /-- SC_FROMFE (41_scalar.md R180). -/
  | scFromfe (d : SReg) (a : FReg)
  /-- PT_SETINF (42_point.md R204). -/
  | ptSetinf (d : PReg)
  /-- PT_LOAD (42_point.md R205). -/
  | ptLoad (d : PReg) (a : FReg) (b : FReg)
  /-- PT_ADD (42_point.md R207). -/
  | ptAdd (d : PReg) (a : PReg) (b : PReg)
  /-- PT_DBL (42_point.md R208). -/
  | ptDbl (d : PReg) (a : PReg)
  /-- PT_MUL (42_point.md R209). -/
  | ptMul (d : PReg) (a : PReg) (b : RReg)
  /-- PT_MULG (42_point.md R210). -/
  | ptMulg (d : PReg) (a : RReg)
  /-- PT_GETX (42_point.md R211). -/
  | ptGetx (d : FReg) (a : PReg)
  /-- PT_GETY (42_point.md R212). -/
  | ptGety (d : FReg) (a : PReg)
  /-- PT_ISINF (42_point.md R213). -/
  | ptIsinf (a : PReg)
  /-- EC_GENK (43_ecdsa.md R244). -/
  | ecGenk (d : SReg) (a : SReg) (b : RReg)
  /-- EC_SIGN (43_ecdsa.md R246). -/
  | ecSign (a : SReg) (b : SReg) (c : SReg)
  /-- EC_SIGNH (43_ecdsa.md R248). -/
  | ecSignh (a : SReg) (b : RReg)
  /-- EC_VERIFY (43_ecdsa.md R250). -/
  | ecVerify (a : PReg) (b : SReg)
  /-- EC_PUBKEY (43_ecdsa.md R251). -/
  | ecPubkey (d : PReg) (a : SReg)
  /-- SIG_LOAD (43_ecdsa.md R254). -/
  | sigLoad (a : SReg) (b : SReg) (c : RReg)
  /-- SIG_NORM (43_ecdsa.md R255). -/
  | sigNorm
  /-- SIG_VALID (43_ecdsa.md R256). -/
  | sigValid
  /-- SIG_VLEG (43_ecdsa.md R257). -/
  | sigVleg
  /-- SIG_V155 (43_ecdsa.md R258). -/
  | sigV155 (a : RReg)
deriving DecidableEq, Repr

end Sys2Proof
end

