-- ==== Sys2Proof/WellFormed.lean ====
section
/-! DEFINITION. Which command words are well formed: the match and mask of each row of spec/opcode_table.json, and 30_encoding.md
R120: "A word `w` is legal iff `(w & mask) == match` for one row." Written from the table, independently of Decode.lean. -/

namespace Sys2Proof

/-- A row of the opcode table. -/
structure OpcodeRow where
  mnemonic : String
  mask : Word
  value : Word
deriving DecidableEq, Repr

/-- NOP and the field family. -/
def fieldRows : List OpcodeRow :=
  [⟨"NOP", 0xFFFFFFFF, 0x00000000⟩,
   ⟨"FE_NEW", 0xFFFFC8FF, 0x00000010⟩,
   ⟨"FE_ADD", 0xFFF888FF, 0x00000011⟩,
   ⟨"FE_SUB", 0xFFF888FF, 0x00000012⟩,
   ⟨"FE_MUL", 0xFFF888FF, 0x00000013⟩,
   ⟨"FE_POW", 0xFFFC88FF, 0x00000014⟩,
   ⟨"FE_INV", 0xFFFF88FF, 0x00000015⟩,
   ⟨"FE_EQ", 0xFFF88FFF, 0x00000016⟩,
   ⟨"FE_RET", 0xFFFF8CFF, 0x00000017⟩]

/-- The scalar family. -/
def scalarRows : List OpcodeRow :=
  [⟨"SC_NEW", 0xFFFFC8FF, 0x00000020⟩,
   ⟨"SC_ADD", 0xFFF888FF, 0x00000021⟩,
   ⟨"SC_SUB", 0xFFF888FF, 0x00000022⟩,
   ⟨"SC_MUL", 0xFFF888FF, 0x00000023⟩,
   ⟨"SC_POW", 0xFFFC88FF, 0x00000024⟩,
   ⟨"SC_INV", 0xFFFF88FF, 0x00000025⟩,
   ⟨"SC_EQ", 0xFFF88FFF, 0x00000026⟩,
   ⟨"SC_RET", 0xFFFF8CFF, 0x00000027⟩,
   ⟨"SC_FROMFE", 0xFFFF88FF, 0x00000028⟩]

/-- The point family. -/
def pointRows : List OpcodeRow :=
  [⟨"PT_SETINF", 0xFFFFFCFF, 0x00000030⟩,
   ⟨"PT_LOAD", 0xFFF88CFF, 0x00000031⟩,
   ⟨"PT_ADD", 0xFFFCCCFF, 0x00000032⟩,
   ⟨"PT_DBL", 0xFFFFCCFF, 0x00000033⟩,
   ⟨"PT_MUL", 0xFFFCCCFF, 0x00000034⟩,
   ⟨"PT_MULG", 0xFFFFCCFF, 0x00000035⟩,
   ⟨"PT_GETX", 0xFFFFC8FF, 0x00000036⟩,
   ⟨"PT_GETY", 0xFFFFC8FF, 0x00000037⟩,
   ⟨"PT_ISINF", 0xFFFFCFFF, 0x00000038⟩]

/-- The ECDSA and signature family. -/
def ecdsaRows : List OpcodeRow :=
  [⟨"EC_GENK", 0xFFFC88FF, 0x00000040⟩,
   ⟨"EC_SIGN", 0xFF888FFF, 0x00000041⟩,
   ⟨"EC_SIGNH", 0xFFFC8FFF, 0x00000042⟩,
   ⟨"EC_VERIFY", 0xFFF8CFFF, 0x00000043⟩,
   ⟨"EC_PUBKEY", 0xFFFF8CFF, 0x00000044⟩,
   ⟨"SIG_LOAD", 0xFFC88FFF, 0x00000048⟩,
   ⟨"SIG_NORM", 0xFFFFFFFF, 0x00000049⟩,
   ⟨"SIG_VALID", 0xFFFFFFFF, 0x0000004A⟩,
   ⟨"SIG_VLEG", 0xFFFFFFFF, 0x0000004B⟩,
   ⟨"SIG_V155", 0xFFFFCFFF, 0x0000004C⟩]

/-- The opcode table (30_encoding.md R118, R120). -/
def opcodeTable : List OpcodeRow := fieldRows ++ scalarRows ++ pointRows ++ ecdsaRows

/-- The word has the row's fixed bits. -/
def OpcodeRow.fits (r : OpcodeRow) (w : Word) : Bool := w &&& r.mask == r.value

/-- A command word is well formed when it fits a row (R120). -/
def wellFormed (w : Word) : Bool := opcodeTable.any (·.fits w)

end Sys2Proof
end

