-- ==== Sys2Proof/Decode.lean ====
section
/-! DEFINITION. Decoding a command word (30_encoding.md R111 to R119), total and rejecting by name, and the encoder, written from
the formula of R111. -/

namespace Sys2Proof

/-- Why a command word is rejected (60_exceptions.md R300). -/
inductive CmdError where
  | illegalOpcode
  | reservedField
  | badRegister
deriving DecidableEq, Repr

/-- The register files a field can index (30_encoding.md R112). -/
inductive RegFile where
  | f | s | p | raw
deriving DecidableEq, Repr

/-- 30_encoding.md R119: `size(F) = size(S) = 8`, `size(P) = size(RAW) = 4`. -/
def RegFile.size : RegFile → Nat
  | .f => 8
  | .s => 8
  | .p => 4
  | .raw => 4

/-- Bits 7:0 (R111). -/
def opField (w : Word) : Nat := w.toNat % 0x100
/-- Bits 11:8 (R111). -/
def dField (w : Word) : Nat := w.toNat / 0x100 % 0x10
/-- Bits 15:12 (R111). -/
def aField (w : Word) : Nat := w.toNat / 0x1000 % 0x10
/-- Bits 19:16 (R111). -/
def bField (w : Word) : Nat := w.toNat / 0x10000 % 0x10
/-- Bits 23:20 (R111). -/
def cField (w : Word) : Nat := w.toNat / 0x100000 % 0x10
/-- Bits 31:24 (R111). -/
def resvField (w : Word) : Nat := w.toNat / 0x1000000

/-- A row of the opcode map: the file each field indexes (`none`: unused), and the command the fields make. -/
structure OpcodeEntry where
  dFile : Option RegFile
  aFile : Option RegFile
  bFile : Option RegFile
  cFile : Option RegFile
  build : Nat → Nat → Nat → Nat → Instr

/-- The opcode map (30_encoding.md R118); `none` for an unassigned opcode (R117). -/
def opcodeEntry : Nat → Option OpcodeEntry
  | 0x00 => some ⟨none, none, none, none, fun _ _ _ _ => .nop⟩
  | 0x10 => some ⟨some .f, some .raw, none, none, fun d a _ _ => .feNew (.ofNat _ d) (.ofNat _ a)⟩
  | 0x11 => some ⟨some .f, some .f, some .f, none, fun d a b _ => .feAdd (.ofNat _ d) (.ofNat _ a) (.ofNat _ b)⟩
  | 0x12 => some ⟨some .f, some .f, some .f, none, fun d a b _ => .feSub (.ofNat _ d) (.ofNat _ a) (.ofNat _ b)⟩
  | 0x13 => some ⟨some .f, some .f, some .f, none, fun d a b _ => .feMul (.ofNat _ d) (.ofNat _ a) (.ofNat _ b)⟩
  | 0x14 => some ⟨some .f, some .f, some .raw, none, fun d a b _ => .fePow (.ofNat _ d) (.ofNat _ a) (.ofNat _ b)⟩
  | 0x15 => some ⟨some .f, some .f, none, none, fun d a _ _ => .feInv (.ofNat _ d) (.ofNat _ a)⟩
  | 0x16 => some ⟨none, some .f, some .f, none, fun _ a b _ => .feEq (.ofNat _ a) (.ofNat _ b)⟩
  | 0x17 => some ⟨some .raw, some .f, none, none, fun d a _ _ => .feRet (.ofNat _ d) (.ofNat _ a)⟩
  | 0x20 => some ⟨some .s, some .raw, none, none, fun d a _ _ => .scNew (.ofNat _ d) (.ofNat _ a)⟩
  | 0x21 => some ⟨some .s, some .s, some .s, none, fun d a b _ => .scAdd (.ofNat _ d) (.ofNat _ a) (.ofNat _ b)⟩
  | 0x22 => some ⟨some .s, some .s, some .s, none, fun d a b _ => .scSub (.ofNat _ d) (.ofNat _ a) (.ofNat _ b)⟩
  | 0x23 => some ⟨some .s, some .s, some .s, none, fun d a b _ => .scMul (.ofNat _ d) (.ofNat _ a) (.ofNat _ b)⟩
  | 0x24 => some ⟨some .s, some .s, some .raw, none, fun d a b _ => .scPow (.ofNat _ d) (.ofNat _ a) (.ofNat _ b)⟩
  | 0x25 => some ⟨some .s, some .s, none, none, fun d a _ _ => .scInv (.ofNat _ d) (.ofNat _ a)⟩
  | 0x26 => some ⟨none, some .s, some .s, none, fun _ a b _ => .scEq (.ofNat _ a) (.ofNat _ b)⟩
  | 0x27 => some ⟨some .raw, some .s, none, none, fun d a _ _ => .scRet (.ofNat _ d) (.ofNat _ a)⟩
  | 0x28 => some ⟨some .s, some .f, none, none, fun d a _ _ => .scFromfe (.ofNat _ d) (.ofNat _ a)⟩
  | 0x30 => some ⟨some .p, none, none, none, fun d _ _ _ => .ptSetinf (.ofNat _ d)⟩
  | 0x31 => some ⟨some .p, some .f, some .f, none, fun d a b _ => .ptLoad (.ofNat _ d) (.ofNat _ a) (.ofNat _ b)⟩
  | 0x32 => some ⟨some .p, some .p, some .p, none, fun d a b _ => .ptAdd (.ofNat _ d) (.ofNat _ a) (.ofNat _ b)⟩
  | 0x33 => some ⟨some .p, some .p, none, none, fun d a _ _ => .ptDbl (.ofNat _ d) (.ofNat _ a)⟩
  | 0x34 => some ⟨some .p, some .p, some .raw, none, fun d a b _ => .ptMul (.ofNat _ d) (.ofNat _ a) (.ofNat _ b)⟩
  | 0x35 => some ⟨some .p, some .raw, none, none, fun d a _ _ => .ptMulg (.ofNat _ d) (.ofNat _ a)⟩
  | 0x36 => some ⟨some .f, some .p, none, none, fun d a _ _ => .ptGetx (.ofNat _ d) (.ofNat _ a)⟩
  | 0x37 => some ⟨some .f, some .p, none, none, fun d a _ _ => .ptGety (.ofNat _ d) (.ofNat _ a)⟩
  | 0x38 => some ⟨none, some .p, none, none, fun _ a _ _ => .ptIsinf (.ofNat _ a)⟩
  | 0x40 => some ⟨some .s, some .s, some .raw, none, fun d a b _ => .ecGenk (.ofNat _ d) (.ofNat _ a) (.ofNat _ b)⟩
  | 0x41 => some ⟨none, some .s, some .s, some .s, fun _ a b c => .ecSign (.ofNat _ a) (.ofNat _ b) (.ofNat _ c)⟩
  | 0x42 => some ⟨none, some .s, some .raw, none, fun _ a b _ => .ecSignh (.ofNat _ a) (.ofNat _ b)⟩
  | 0x43 => some ⟨none, some .p, some .s, none, fun _ a b _ => .ecVerify (.ofNat _ a) (.ofNat _ b)⟩
  | 0x44 => some ⟨some .p, some .s, none, none, fun d a _ _ => .ecPubkey (.ofNat _ d) (.ofNat _ a)⟩
  | 0x48 => some ⟨none, some .s, some .s, some .raw, fun _ a b c => .sigLoad (.ofNat _ a) (.ofNat _ b) (.ofNat _ c)⟩
  | 0x49 => some ⟨none, none, none, none, fun _ _ _ _ => .sigNorm⟩
  | 0x4A => some ⟨none, none, none, none, fun _ _ _ _ => .sigValid⟩
  | 0x4B => some ⟨none, none, none, none, fun _ _ _ _ => .sigVleg⟩
  | 0x4C => some ⟨none, some .raw, none, none, fun _ a _ _ => .sigV155 (.ofNat _ a)⟩
  | _ => none

/-- An unused field must be 0 (30_encoding.md R115). -/
def unusedIsZero : Option RegFile → Nat → Bool
  | none, v => v == 0
  | some _, _ => true

/-- A used field must index an existing register (30_encoding.md R116). -/
def usedInRange : Option RegFile → Nat → Bool
  | none, _ => true
  | some file, v => v < file.size

/-- `Decode(w)` of 30_encoding.md R119: the first check that fails decides the error. -/
def decode (w : Word) : Except CmdError Instr :=
  match opcodeEntry (opField w) with
  | none => .error .illegalOpcode
  | some e =>
    if resvField w ≠ 0 then .error .reservedField
    else if !(unusedIsZero e.dFile (dField w) && unusedIsZero e.aFile (aField w)
        && unusedIsZero e.bFile (bField w) && unusedIsZero e.cFile (cField w)) then .error .reservedField
    else if !(usedInRange e.dFile (dField w) && usedInRange e.aFile (aField w)
        && usedInRange e.bFile (bField w) && usedInRange e.cFile (cField w)) then .error .badRegister
    else .ok (e.build (dField w) (aField w) (bField w) (cField w))

/-- The command word of its fields, `resv` 0: the formula of 30_encoding.md R111. -/
def pack (op d a b c : Nat) : Word :=
  BitVec.ofNat 32 (c * 2 ^ 20 + b * 2 ^ 16 + a * 2 ^ 12 + d * 2 ^ 8 + op)

/-- The command word of a command; an unused field is 0 (30_encoding.md R115, R118). -/
def encode : Instr → Word
  | .nop => pack 0x00 0 0 0 0
  | .feNew d a => pack 0x10 d a 0 0
  | .feAdd d a b => pack 0x11 d a b 0
  | .feSub d a b => pack 0x12 d a b 0
  | .feMul d a b => pack 0x13 d a b 0
  | .fePow d a b => pack 0x14 d a b 0
  | .feInv d a => pack 0x15 d a 0 0
  | .feEq a b => pack 0x16 0 a b 0
  | .feRet d a => pack 0x17 d a 0 0
  | .scNew d a => pack 0x20 d a 0 0
  | .scAdd d a b => pack 0x21 d a b 0
  | .scSub d a b => pack 0x22 d a b 0
  | .scMul d a b => pack 0x23 d a b 0
  | .scPow d a b => pack 0x24 d a b 0
  | .scInv d a => pack 0x25 d a 0 0
  | .scEq a b => pack 0x26 0 a b 0
  | .scRet d a => pack 0x27 d a 0 0
  | .scFromfe d a => pack 0x28 d a 0 0
  | .ptSetinf d => pack 0x30 d 0 0 0
  | .ptLoad d a b => pack 0x31 d a b 0
  | .ptAdd d a b => pack 0x32 d a b 0
  | .ptDbl d a => pack 0x33 d a 0 0
  | .ptMul d a b => pack 0x34 d a b 0
  | .ptMulg d a => pack 0x35 d a 0 0
  | .ptGetx d a => pack 0x36 d a 0 0
  | .ptGety d a => pack 0x37 d a 0 0
  | .ptIsinf a => pack 0x38 0 a 0 0
  | .ecGenk d a b => pack 0x40 d a b 0
  | .ecSign a b c => pack 0x41 0 a b c
  | .ecSignh a b => pack 0x42 0 a b 0
  | .ecVerify a b => pack 0x43 0 a b 0
  | .ecPubkey d a => pack 0x44 d a 0 0
  | .sigLoad a b c => pack 0x48 0 a b c
  | .sigNorm => pack 0x49 0 0 0 0
  | .sigValid => pack 0x4A 0 0 0 0
  | .sigVleg => pack 0x4B 0 0 0 0
  | .sigV155 a => pack 0x4C 0 a 0 0

/-- The command the decoder reads from a word whose bits are `w`, numbered as spec/opcode_table.json numbers them: one 32-bit
word, so a longer value is no command word. -/
def decodeTableWord (nbits w : Nat) : Option Instr :=
  let v := w % 2 ^ nbits
  if v < 2 ^ 32 then (decode (BitVec.ofNat 32 v)).toOption else none

end Sys2Proof
end

