-- ==== Sys2Proof/Machine/State.lean ====
section
/-! DEFINITION. The state of the engine (10_state.md), of the host's side of the window, and the machine right after reset. -/

namespace Sys2Proof.Machine

/-- A curve point as a value (00_scope.md R22): `Identity | Affine(x, y)`, the coordinates mathematical integers (R17). -/
inductive Point where
  | inf
  | aff (x y : Nat)
deriving DecidableEq, Repr

/-- A P register: the fields INF, X and Y (10_state.md R35). -/
structure PointReg where
  inf : Bool
  x : Word256
  y : Word256
deriving DecidableEq, Repr

/-- The SIG register (10_state.md R36). -/
structure Sig where
  r : Word256
  s : Word256
  v : BitVec 8
deriving DecidableEq, Repr

/-- The six data register files (10_state.md R31). -/
structure Regs where
  /-- RAW[0..3] (R32). -/
  raw : Vector Word256 4
  /-- F[0..7] (R33). -/
  f : Vector Word256 8
  /-- S[0..7] (R34). -/
  s : Vector Word256 8
  /-- P[0..3] (R35). -/
  p : Vector PointReg 4
  /-- SIG (R36). -/
  sig : Sig
  /-- VOUT (R37). -/
  vout : Word64
deriving DecidableEq, Repr

/-- The fields of STATUS (10_state.md R42); `err = none` is code 0. -/
structure Status where
  busy : Bool
  done : Bool
  ok : Bool
  cond : Bool
  ovf : Bool
  err : Option CmdError
  aerr : Bool
deriving DecidableEq, Repr

/-- The RFC 6979 generator's state: `K` and `V` (10_state.md R52, 43_ecdsa.md R242). -/
structure Generator where
  k : Word256
  v : Word256
deriving DecidableEq, Repr

/-- Where the running command stands inside its loop (10_state.md R30, R52). -/
inductive Sequencer where
  /-- A command, or a part of one, that does not loop. -/
  | direct
  /-- A scalar multiplication by `k` (42_point.md R206): accumulator, addend, and the index of the next bit. -/
  | smul (k : Nat) (acc addend : Point) (bit : Nat)
  /-- EC_VERIFY's second multiplication, its first product held. -/
  | smul2 (k : Nat) (first acc addend : Point) (bit : Nat)
  /-- The RFC 6979 generator before its next candidate (43_ecdsa.md R242). -/
  | gen (g : Generator)
deriving DecidableEq, Repr

/-- The hidden state of a command in flight (10_state.md R52). `snap` holds every data register as it was at acceptance;
a command reads only its sources of it (60_exceptions.md R301). -/
structure Job where
  word : Word
  snap : Regs
  seq : Sequencer
deriving DecidableEq, Repr

/-- What the host does next (20_memory.md R78, R79, R76; 30_encoding.md R122, R123). `bytes` is the access's width. -/
inductive HostOp where
  | read (off : BitVec 12) (bytes : Nat)
  | write (off : BitVec 12) (bytes : Nat) (w : Word)
  /-- The poll of `WAIT`: read STATUS until BUSY is 0. -/
  | wait
deriving DecidableEq, Repr

/-- Who moves in a step (20_memory.md R85). -/
inductive Turn where
  /-- The host performs its next access. -/
  | host
  /-- An engine step that does not complete the command; the sequencer advances `iterations` times. -/
  | engine (iterations : Nat)
  /-- The engine step that completes the command (60_exceptions.md R305). -/
  | complete
  /-- The platform pulses the reset input (70_reset_and_hazards.md R340). -/
  | rst
deriving DecidableEq, Repr

/-- The instantiation of the parameter `HMAC` (43_ecdsa.md R241): any deterministic function will do. -/
inductive HmacKind where
  /-- The reference instantiation, HMAC-SHA-256. -/
  | reference
  /-- A function that ignores its arguments. -/
  | constant (out : Word256)
  /-- A function the model does not know: `Config.hmacOther`. -/
  | other
deriving DecidableEq, Repr

/-- The machine. -/
structure State where
  /-- The data register files (10_state.md R31). -/
  regs : Regs
  /-- STATUS (R42). -/
  status : Status
  /-- CTRL.IE (R50). -/
  ie : Bool
  /-- CMD: the last command word accepted (R51). -/
  cmd : Word
  /-- The hidden state: the command in flight, if any (R52). -/
  job : Option Job
  /-- MODEL: the host's pending accesses, oldest first. -/
  hostQueue : List HostOp
  /-- MODEL: who moves in the coming steps. -/
  turns : List Turn
  /-- MODEL: the word the host's last read returned. -/
  readData : Word
  /-- MODEL: how many free values have been drawn. -/
  draws : Nat
  /-- MODEL: which HMAC this machine has; no step changes it. -/
  hmac : HmacKind
deriving DecidableEq, Repr

/-- Why the machine stops. -/
inductive Fault where
  /-- Raised by a completing step whose latched word does not decode. Acceptance latches only words that decode, so no run
  reaches it. Safe: the model stops where there is no hardware behaviour to match. -/
  | latchUndecodable
deriving DecidableEq, Repr

/-- Why the model gives no meaning. -/
inductive Refusal where
  /-- Raised by `exec` for an instruction without a meaning, by the table's mnemonic. Safe. -/
  | notModelled (mnemonic : String)
deriving DecidableEq, Repr

/-- What a command's meaning answers. -/
abbrev Answer := Host.Outcome State Fault Refusal

/-- STATUS = 0 (10_state.md R53). -/
def Status.zero : Status :=
  { busy := false, done := false, ok := false, cond := false, ovf := false, err := none, aerr := false }

/-- The data registers at reset: legal values the model names, the spec giving none (log 6, DESIGN CHOICE). -/
def Regs.reset : Regs :=
  { raw := Vector.replicate 4 0
    f := Vector.replicate 8 0
    s := Vector.replicate 8 0
    p := Vector.replicate 4 { inf := true, x := 0, y := 0 }
    sig := { r := 0, s := 0, v := 0 }
    vout := 0 }

/-- The machine right after reset (10_state.md R53, 70_reset_and_hazards.md R341, R344): idle, STATUS = CTRL = CMD = 0. The
model's own fields hold log 17's values, `hmac` log 11's. -/
def State.reset : State :=
  { regs := Regs.reset
    status := Status.zero
    ie := false
    cmd := 0
    job := none
    hostQueue := []
    turns := []
    readData := 0
    draws := 0
    hmac := .reference }

end Sys2Proof.Machine
end

