-- ==== Sys2Proof/Machine/Flags.lean ====
section
/-! DEFINITION. Every computation on STATUS (10_state.md R42 to R49) and the interrupt line (60_exceptions.md R310). -/

namespace Sys2Proof.Machine

/-- The code of STATUS.ERR (60_exceptions.md R300). -/
def errCode : Option CmdError → Nat
  | none => 0
  | some .illegalOpcode => 1
  | some .reservedField => 2
  | some .badRegister => 3

/-- The STATUS word; reserved bits read 0 (10_state.md R42). -/
def Status.toWord (t : Status) : Word :=
  .ofNat 32 (t.busy.toNat + t.done.toNat * 2 + t.ok.toNat * 4 + t.cond.toNat * 8 + t.ovf.toNat * 16
    + errCode t.err * 2 ^ 8 + t.aerr.toNat * 2 ^ 16)

/-- A host write to STATUS: write-1-to-clear DONE and AERR, every other bit ignored (10_state.md R42). -/
def Status.writeOneToClear (t : Status) (w : Word) : Status :=
  { t with done := t.done && !w.getLsbD 1, aerr := t.aerr && !w.getLsbD 16 }

/-- Acceptance of a command word (60_exceptions.md R301). -/
def Status.accepted (t : Status) : Status :=
  { t with busy := true, done := false, ok := false, cond := false, ovf := false, err := none }

/-- Rejection of a command word (60_exceptions.md R301, R306). -/
def Status.rejected (t : Status) (e : CmdError) : Status :=
  { t with done := true, ok := false, cond := false, ovf := false, err := some e }

/-- Completion of a command (60_exceptions.md R305). -/
def Status.completed (t : Status) (ok cond ovf : Bool) : Status :=
  { t with busy := false, done := true, ok, cond, ovf }

/-- A host access error (60_exceptions.md R319). -/
def Status.accessError (t : Status) : Status := { t with aerr := true }

/-- The interrupt output: `irq = STATUS.DONE AND CTRL.IE` (60_exceptions.md R310). -/
def State.irq (s : State) : Bool := s.status.done && s.ie

end Sys2Proof.Machine
end

