-- ==== Sys2Proof/Machine/Bits.lean ====
section
/-! DEFINITION. Taking words apart: the 32-bit words of a 256-bit register (20_memory.md R73), the big-endian serialization
(00_scope.md R18), and evaluation order. -/

namespace Sys2Proof.Machine

/-- `f x`, with `x` brought to a numeral first, so that the kernel evaluates a long computation step by step. It is `f x` for
every `x` (`forced_eq`, Laws/Arith.lean). -/
def forced {α : Type} (x : Nat) (f : Nat → α) : α :=
  match x with
  | 0 => f 0
  | k + 1 => f (k + 1)

/-- Word `j` of a 256-bit register, the most significant first: `X[255-32j : 224-32j]` (R73). -/
def wordOf (x : Word256) (j : Fin 8) : Word := x.extractLsb' (32 * (7 - j)) 32

/-- Replace exactly word `j` (R73). -/
def setWordOf (x : Word256) (j : Fin 8) (w : Word) : Word256 :=
  (x &&& ~~~((0xFFFFFFFF : Word256) <<< (32 * (7 - j.val)))) ||| (w.setWidth 256 <<< (32 * (7 - j.val)))

/-- `bytes32(v)`: byte `k` is `v[255-8k : 248-8k]` (00_scope.md R18). -/
def bytes32 (v : Word256) : List Byte :=
  (List.range 32).map fun k => v.extractLsb' (248 - 8 * k) 8

/-- `int(b)`: the big-endian integer of a byte string (00_scope.md R18). -/
def intOf (b : List Byte) : Nat := b.foldl (fun acc x => acc * 256 + x.toNat) 0

end Sys2Proof.Machine
end

