-- ==== Sys2Proof/Machine/Arith.lean ====
section
/-! DEFINITION. The field and scalar primitives on mathematical integers (40_field.md R140, 41_scalar.md R170). -/

namespace Sys2Proof.Machine

open Sys2Proof.Config (p n)

/-- `(x + y) mod m`. -/
def addMod (m x y : Nat) : Nat := (x + y) % m

/-- `(x - y) mod m`, the least non-negative residue (00_scope.md R17). -/
def subMod (m x y : Nat) : Nat := (x + (m - y % m)) % m

/-- `(x · y) mod m`: the exact product, then reduced. -/
def mulMod (m x y : Nat) : Nat := (x * y) % m

/-- Square-and-multiply over the `fuel` low bits of `e`. -/
def powModAux (m x : Nat) : Nat → Nat → Nat
  | 0, _ => 1 % m
  | fuel + 1, e =>
    forced (powModAux m x fuel (e / 2)) fun h =>
      match e % 2 with
      | 0 => mulMod m h h
      | _ => mulMod m (mulMod m h h) x

/-- `(x ^ e) mod m` for a 256-bit exponent, `x ^ 0 = 1` (R140, R170). Equal to `x ^ e % m`: `powMod_eq`, Laws/Arith.lean. -/
def powMod (m x e : Nat) : Nat := powModAux m x 256 e

/-- The inverse: `None` exactly at 0, else the power `m - 2` (40_field.md R150; `m` is prime). -/
def invMod (m x : Nat) : Option Nat := if x = 0 then none else some (powMod m x (m - 2))

/-- `add_p`, `sub_p`, `mul_p`, `pow_p`, `inv_p` (40_field.md R140). -/
def addP (x y : Nat) : Nat := addMod p x y
/-- See `addP`. -/
def subP (x y : Nat) : Nat := subMod p x y
/-- See `addP`. -/
def mulP (x y : Nat) : Nat := mulMod p x y
/-- See `addP`. -/
def powP (x e : Nat) : Nat := powMod p x e
/-- See `addP`. -/
def invP (x : Nat) : Option Nat := invMod p x

/-- `add_n`, `sub_n`, `mul_n`, `pow_n`, `inv_n` (41_scalar.md R170). -/
def addN (x y : Nat) : Nat := addMod n x y
/-- See `addN`. -/
def subN (x y : Nat) : Nat := subMod n x y
/-- See `addN`. -/
def mulN (x y : Nat) : Nat := mulMod n x y
/-- See `addN`. -/
def powN (x e : Nat) : Nat := powMod n x e
/-- See `addN`. -/
def invN (x : Nat) : Option Nat := invMod n x

end Sys2Proof.Machine
end

