-- ==== Sys2Proof/Machine/Curve.lean ====
section
/-! DEFINITION. The group law and scalar multiplication (42_point.md R200, R201, R206), and the P register's point
(10_state.md R35, 42_point.md R203). -/

namespace Sys2Proof.Machine

/-- The generator `G` (42_point.md R214). -/
def generator : Point := .aff Config.gx Config.gy

/-- The point a P register stands for (10_state.md R35). -/
def PointReg.toPoint (r : PointReg) : Point :=
  if r.inf then .inf else .aff r.x.toNat r.y.toNat

/-- Point write-back (42_point.md R203). -/
def PointReg.ofPoint : Point → PointReg
  | .inf => { inf := true, x := 0, y := 0 }
  | .aff x y => { inf := false, x := .ofNat 256 x, y := .ofNat 256 y }

/-- Inversion followed by multiplication. The cases of R200 divide by nonzero values only; the value at a zero denominator is
never used (`chord_denominator_ne_zero`, `tangent_denominator_ne_zero`, Laws/Curve.lean). -/
def slope (num den : Nat) : Nat := mulP num ((invP den).getD 0)

/-- The third point of the line of slope `m` through `(x1, y1)` and a point with x-coordinate `x2`, reflected: the last three
lines of cases 2 and 4 of R200. -/
def reflectThird (m x1 y1 x2 : Nat) : Point :=
  forced (subP (subP (mulP m m) x1) x2) fun x3 =>
    forced (subP (mulP m (subP x1 x3)) y1) fun y3 => .aff x3 y3

/-- `pt_add(P, Q)`, in the case order of 42_point.md R200. -/
def ptAdd : Point → Point → Point
  | .inf, q => q
  | .aff x1 y1, .inf => .aff x1 y1
  | .aff x1 y1, .aff x2 y2 =>
    if x1 = x2 ∧ y1 = y2 then
      if y1 = 0 then .inf
      else forced (slope (mulP 3 (mulP x1 x1)) (addP y1 y1)) fun m => reflectThird m x1 y1 x1
    else if x1 = x2 then .inf
    else forced (slope (subP y2 y1) (subP x2 x1)) fun m => reflectThird m x1 y1 x2

/-- `pt_dbl(P) = pt_add(P, P)` (42_point.md R201). -/
def ptDbl (a : Point) : Point := ptAdd a a

/-- The accumulator after bit `bit` of `k` (42_point.md R206). -/
def accumulate (k : Nat) (acc addend : Point) (bit : Nat) : Point :=
  if k.testBit bit then ptAdd acc addend else acc

/-- `fuel` iterations of R206's loop from bit `bit` on: the accumulator at the end. -/
def smulLoop (k : Nat) : Nat → Point → Point → Nat → Point
  | 0, acc, _, _ => acc
  | fuel + 1, acc, addend, bit => smulLoop k fuel (accumulate k acc addend bit) (ptDbl addend) (bit + 1)

/-- The rest of R206's loop, from bit `bit` to bit 255. -/
def smulRest (k : Nat) (acc addend : Point) (bit : Nat) : Point := smulLoop k (256 - bit) acc addend bit

/-- `pt_smul(P, k)`: double-and-add across all 256 bits, least significant first; `k` is not reduced (42_point.md R206). -/
def ptSmul (a : Point) (k : Nat) : Point := smulRest k .inf a 0

/-- The curve equation `y² = x³ + 7` (00_scope.md R12); the identity is on the curve. -/
def Point.onCurve : Point → Bool
  | .inf => true
  | .aff x y => mulP y y == addP (mulP (mulP x x) x) 7

end Sys2Proof.Machine
end

