-- ==== Sys2Proof/Machine/Ecdsa.lean ====
section
/-! DEFINITION. Signing, verification and the signature operations as functions of values (43_ecdsa.md R245 to R258). -/

namespace Sys2Proof.Machine

/-- `normalize(sig)` (43_ecdsa.md R253). -/
def normalize (g : Sig) : Sig :=
  if Config.halfN < g.s.toNat then { g with s := .ofNat 256 (Config.n - g.s.toNat), v := g.v ^^^ 1 } else g

/-- `is_valid(sig)`, both halves as written (43_ecdsa.md R252, 90_conflicts.md C4). -/
def isValid (g : Sig) : Bool :=
  (0 < g.r.toNat && g.r.toNat < Config.n) && (0 < g.s.toNat && g.s.toNat < Config.n)

/-- Steps 2 to 6 of `sign(x, z, k)` after `R = G * k` is known (43_ecdsa.md R245). -/
def signWith (x z k : Nat) : Point → Option Sig
  | .inf => none
  | .aff rx ry =>
    forced (rx % Config.n) fun r =>
      if r = 0 then none
      else match invN k with
        | none => none
        | some ki =>
          forced (mulN ki (addN z (mulN r x))) fun s =>
            if s = 0 then none
            else some (normalize { r := .ofNat 256 r, s := .ofNat 256 s, v := .ofNat 8 (ry % 2) })

/-- `sign(x, z, k)` (43_ecdsa.md R245). -/
def sign (x z k : Nat) : Option Sig := signWith x z k (ptSmul generator k)

/-- `u1 = z · s^-1` and `u2 = r · s^-1` (43_ecdsa.md R249); `none` where the algorithm returns false before them. -/
def verifyScalars (q : Point) (z : Nat) (g : Sig) : Option (Nat × Nat) :=
  if !isValid g then none
  else if q = .inf then none
  else match invN g.s.toNat with
    | none => none
    | some si => some (mulN z si, mulN g.r.toNat si)

/-- The last three lines of `verify` (43_ecdsa.md R249). -/
def verifyEnd (g : Sig) : Point → Bool
  | .inf => false
  | .aff x _ => x % Config.n == g.r.toNat

/-- `verify(Q, z, sig)` (43_ecdsa.md R249). -/
def verify (q : Point) (z : Nat) (g : Sig) : Bool :=
  match verifyScalars q z g with
  | none => false
  | some (u1, u2) => verifyEnd g (ptAdd (ptSmul generator u1) (ptSmul q u2))

/-- `27 + v`, exact (43_ecdsa.md R257). -/
def vLegacy (v : BitVec 8) : Nat := 27 + v.toNat

/-- `35 + 2·chain + v`, exact (43_ecdsa.md R258). -/
def vEip155 (chain : Nat) (v : BitVec 8) : Nat := 35 + 2 * chain + v.toNat

end Sys2Proof.Machine
end

