-- ==== Sys2Proof/Machine/Sha256.lean ====
section
/-! DEFINITION. HMAC-SHA-256, the reference instantiation of the parameter `HMAC` (43_ecdsa.md R241): HMAC of RFC 2104 over SHA-256
of FIPS 180-4. The spec names the functions and does not restate them; the rounds, and the roots of primes that the constants
are, are PRESUMED from those standards (log 11), and checked by the spec's RFC 6979 vector (95_test_vectors.md section 3). A
32-bit word is a natural number below 2^32 here. -/

namespace Sys2Proof.Machine.Sha256

/-- Whether `m` is a prime below 19 squared: no number from 2 to 18 but itself divides it. -/
def isPrime (m : Nat) : Bool := 2 ≤ m && (List.range' 2 17).all fun d => m % d != 0 || m == d

/-- The root of order `k` of `target`, rounded down; `r` is it without its `bits` lowest bits. -/
def rootFrom (k target : Nat) : Nat → Nat → Nat
  | 0, r => r
  | bits + 1, r =>
    forced (r + 2 ^ bits) fun next =>
      match decide (next ^ k ≤ target) with
      | true => rootFrom k target bits next
      | false => rootFrom k target bits r

/-- The first 32 bits of the fractional part of the root of order `k` of `m`. -/
def rootFraction (k m : Nat) : Nat := rootFrom k (m * 2 ^ (32 * k)) 40 0 % 2 ^ 32

/-- The 64 round constants: the cube roots of the first 64 primes, of which 311 is the last (FIPS 180-4 section 4.2.2). -/
def roundConstants : List Nat := ((List.range 312).filter isPrime).map (rootFraction 3)

/-- The chaining value: eight words. -/
structure Chain where
  a : Nat
  b : Nat
  c : Nat
  d : Nat
  e : Nat
  f : Nat
  g : Nat
  h : Nat
deriving DecidableEq, Repr

/-- The initial chaining value: the square roots of the first eight primes (FIPS 180-4 section 5.3.3). -/
def initial : Chain :=
  ⟨rootFraction 2 2, rootFraction 2 3, rootFraction 2 5, rootFraction 2 7,
    rootFraction 2 11, rootFraction 2 13, rootFraction 2 17, rootFraction 2 19⟩

/-- Addition of words. -/
def add32 (x y : Nat) : Nat := (x + y) % 2 ^ 32

/-- Rotation right. -/
def rotr (k x : Nat) : Nat := (x >>> k) ||| ((x <<< (32 - k)) % 2 ^ 32)

/-- `Σ0`, `Σ1`, `σ0`, `σ1`, `Ch`, `Maj` of FIPS 180-4 section 4.1.2. -/
def bigSigma0 (x : Nat) : Nat := rotr 2 x ^^^ rotr 13 x ^^^ rotr 22 x
/-- See `bigSigma0`. -/
def bigSigma1 (x : Nat) : Nat := rotr 6 x ^^^ rotr 11 x ^^^ rotr 25 x
/-- See `bigSigma0`. -/
def smallSigma0 (x : Nat) : Nat := rotr 7 x ^^^ rotr 18 x ^^^ (x >>> 3)
/-- See `bigSigma0`. -/
def smallSigma1 (x : Nat) : Nat := rotr 17 x ^^^ rotr 19 x ^^^ (x >>> 10)
/-- See `bigSigma0`. -/
def choose (x y z : Nat) : Nat := (x &&& y) ^^^ ((x ^^^ 0xFFFFFFFF) &&& z)
/-- See `bigSigma0`. -/
def majority (x y z : Nat) : Nat := (x &&& y) ^^^ (x &&& z) ^^^ (y &&& z)

/-- One round with the constant `k` and the schedule word `w`. -/
def round (k w : Nat) (s : Chain) : Chain :=
  forced (add32 (add32 s.h (bigSigma1 s.e)) (add32 (choose s.e s.f s.g) (add32 k w))) fun t1 =>
    forced (add32 s.d t1) fun e =>
      forced (add32 t1 (add32 (bigSigma0 s.a) (majority s.a s.b s.c))) fun a =>
        ⟨a, s.a, s.b, s.c, e, s.e, s.f, s.g⟩

/-- The schedule word that follows a window of sixteen. -/
def nextWord (w : List Nat) : Nat :=
  add32 (add32 (smallSigma1 (w.getD 14 0)) (w.getD 9 0)) (add32 (smallSigma0 (w.getD 1 0)) (w.getD 0 0))

/-- The rounds of the constants `ks`, `w` the window of sixteen schedule words that starts at the first of them. -/
def rounds : List Nat → List Nat → Chain → Chain
  | [], _, s => s
  | k :: ks, w, s =>
    forced (nextWord w) fun next =>
      match round k (w.headD 0) s with
      | ⟨a, b, c, d, e, f, g, h⟩ => rounds ks (w.tail ++ [next]) ⟨a, b, c, d, e, f, g, h⟩

/-- Add the rounds' result to the chaining value. -/
def Chain.plus (s t : Chain) : Chain :=
  ⟨add32 s.a t.a, add32 s.b t.b, add32 s.c t.c, add32 s.d t.d, add32 s.e t.e, add32 s.f t.f, add32 s.g t.g, add32 s.h t.h⟩

/-- Bring the eight words to numerals. -/
def Chain.settled (s : Chain) : Chain :=
  forced s.a fun a => forced s.b fun b => forced s.c fun c => forced s.d fun d =>
    forced s.e fun e => forced s.f fun f => forced s.g fun g => forced s.h fun h => ⟨a, b, c, d, e, f, g, h⟩

/-- One block of sixteen words. -/
def compress (s : Chain) (block : List Nat) : Chain :=
  (s.plus (rounds roundConstants block s)).settled

/-- Big-endian words of a byte string whose length is a multiple of four. -/
def wordsOf : List Nat → List Nat
  | a :: b :: c :: d :: rest => forced (((a * 256 + b) * 256 + c) * 256 + d) fun w => w :: wordsOf rest
  | _ => []

/-- `m` blocks of sixteen words. -/
def blocks : Nat → List Nat → Chain → Chain
  | 0, _, s => s
  | m + 1, ws, s => blocks m (ws.drop 16) (compress s (ws.take 16))

/-- The padding of a message of `len` bytes: 0x80, zeros, the length in bits as 8 bytes. -/
def padding (len : Nat) : List Nat :=
  0x80 :: List.replicate ((119 - len % 64) % 64) 0
    ++ (List.range 8).map fun i => (len * 8) / 256 ^ (7 - i) % 256

/-- SHA-256 of a byte string, as a chaining value. -/
def digest (m : List Nat) : Chain :=
  let padded := m ++ padding m.length
  blocks (padded.length / 64) (wordsOf padded) initial

/-- A word's four bytes. -/
def bytesOfWord (w : Nat) : List Nat := [w / 2 ^ 24 % 256, w / 2 ^ 16 % 256, w / 2 ^ 8 % 256, w % 256]

/-- A digest's 32 bytes. -/
def Chain.bytes (s : Chain) : List Nat :=
  bytesOfWord s.a ++ bytesOfWord s.b ++ bytesOfWord s.c ++ bytesOfWord s.d
    ++ bytesOfWord s.e ++ bytesOfWord s.f ++ bytesOfWord s.g ++ bytesOfWord s.h

/-- A digest as a 256-bit integer. -/
def Chain.toNat (s : Chain) : Nat :=
  [s.a, s.b, s.c, s.d, s.e, s.f, s.g, s.h].foldl (fun acc w => acc * 2 ^ 32 + w) 0

/-- HMAC-SHA-256 of a 32-byte key: the key padded with zeros to a block, xored with 0x36 and 0x5c. -/
def hmac (key : List Nat) (m : List Nat) : Nat :=
  let block := key ++ List.replicate 32 0
  let inner := digest (block.map (· ^^^ 0x36) ++ m)
  (digest (block.map (· ^^^ 0x5C) ++ inner.bytes)).toNat

end Sys2Proof.Machine.Sha256
end

