-- ==== Sys2Proof/Machine/Nonce.lean ====
section
/-! DEFINITION. The deterministic nonce: RFC 6979 as 43_ecdsa.md R242 writes it, one candidate at a time (R243). -/

namespace Sys2Proof.Machine

/-- `HMAC(K, m)` of this machine (43_ecdsa.md R241). -/
def HmacKind.run : HmacKind → Word256 → List Byte → Word256
  | .reference, k, m => .ofNat 256 (Sha256.hmac ((bytes32 k).map (·.toNat)) (m.map (·.toNat)))
  | .constant out, _, _ => out
  | .other, k, m => Config.hmacOther k m

/-- `bytes32(int(b) mod n)`, the 32 bytes of the digest reduced (bits2octets, R242); `b` is the digest's integer. -/
def digestOctets (b : Nat) : List Byte := bytes32 (.ofNat 256 (b % Config.n))

/-- `K <- HMAC(K, V || tag || X || H1)`, then `V <- HMAC(K, V)`. -/
def seedRound (hm : HmacKind) (g : Generator) (tag : Byte) (tail : List Byte) : Generator :=
  let k := hm.run g.k (bytes32 g.v ++ tag :: tail)
  { k, v := hm.run k (bytes32 g.v) }

/-- The generator of the private key `x` and the digest `b`, before the first candidate (R242). -/
def seedGenerator (hm : HmacKind) (x : Word256) (b : Nat) : Generator :=
  let tail := bytes32 x ++ digestOctets b
  let start : Generator :=
    { k := 0, v := 0x0101010101010101010101010101010101010101010101010101010101010101 }
  seedRound hm (seedRound hm start 0x00 tail) 0x01 tail

/-- `V <- HMAC(K, V)`: the next candidate. -/
def Generator.candidate (hm : HmacKind) (g : Generator) : Word256 := hm.run g.k (bytes32 g.v)

/-- A candidate is accepted iff `0 < t < n`; it is never reduced (43_ecdsa.md R243). -/
def acceptable (t : Word256) : Bool := 0 < t.toNat && t.toNat < Config.n

/-- After a rejected candidate: `K <- HMAC(K, V || 0x00)`, `V <- HMAC(K, V)` (R242). -/
def Generator.afterReject (hm : HmacKind) (g : Generator) : Generator :=
  let v := g.candidate hm
  let k := hm.run g.k (bytes32 v ++ [0x00])
  { k, v := hm.run k (bytes32 v) }

/-- The candidate loop under fuel (70_reset_and_hazards.md R353): the first accepted candidate among the next `fuel`. -/
def candidateLoop (hm : HmacKind) : Nat → Generator → Option Word256
  | 0, _ => none
  | fuel + 1, g =>
    if acceptable (g.candidate hm) then some (g.candidate hm) else candidateLoop hm fuel (g.afterReject hm)

/-- `generate_k(x, b)` under fuel (43_ecdsa.md R242). -/
def generateK (hm : HmacKind) (fuel : Nat) (x : Word256) (b : Nat) : Option Word256 :=
  candidateLoop hm fuel (seedGenerator hm x b)

end Sys2Proof.Machine
end

