-- ==== Sys2Proof/Machine/Operands.lean ====
section
/-! DEFINITION. Reading and writing the register files (00_scope.md R19; 10_state.md R31 to R39). A command reads its sources
from the snapshot taken at acceptance (60_exceptions.md R301) and writes its destination at completion (R305). -/

namespace Sys2Proof.Machine

/-- The integer in `RAW[i]`. -/
def Regs.rawAt (r : Regs) (i : RReg) : Nat := (r.raw[i]).toNat
/-- The integer in `F[i]`. -/
def Regs.fAt (r : Regs) (i : FReg) : Nat := (r.f[i]).toNat
/-- The integer in `S[i]`. -/
def Regs.sAt (r : Regs) (i : SReg) : Nat := (r.s[i]).toNat
/-- The point in `P[i]`. -/
def Regs.pAt (r : Regs) (i : PReg) : Point := (r.p[i]).toPoint

/-- `RAW[d] <- v`. -/
def Regs.setRaw (r : Regs) (d : RReg) (v : Nat) : Regs := { r with raw := r.raw.set d (.ofNat 256 v) }
/-- `F[d] <- v`. -/
def Regs.setF (r : Regs) (d : FReg) (v : Nat) : Regs := { r with f := r.f.set d (.ofNat 256 v) }
/-- `S[d] <- v`. -/
def Regs.setS (r : Regs) (d : SReg) (v : Nat) : Regs := { r with s := r.s.set d (.ofNat 256 v) }
/-- `P[d] <- v` (42_point.md R203). -/
def Regs.setP (r : Regs) (d : PReg) (v : Point) : Regs := { r with p := r.p.set d (.ofPoint v) }
/-- `SIG <- g`. -/
def Regs.setSig (r : Regs) (g : Sig) : Regs := { r with sig := g }
/-- `VOUT <- v`. -/
def Regs.setVout (r : Regs) (v : Nat) : Regs := { r with vout := .ofNat 64 v }

/-- The registers a completing command reads its sources from: the snapshot of the command in flight; on an idle engine the
registers themselves, as if the command were accepted at that moment (log 3). -/
def State.src (s : State) : Regs :=
  match s.job with
  | some j => j.snap
  | none => s.regs

/-- Where the command in flight stands inside its loop. -/
def State.seq (s : State) : Sequencer :=
  match s.job with
  | some j => j.seq
  | none => .direct

end Sys2Proof.Machine
end

