-- ==== Sys2Proof/Machine/Sequencer.lean ====
section
/-! DEFINITION. The sequencer of the looping commands (10_state.md R30, R52): where a command's loop starts, and one iteration of
it. An engine step that does not complete a command only moves the sequencer. -/

namespace Sys2Proof.Machine

/-- Before the first iteration of `pt_smul(P, k)` (42_point.md R206). -/
def Sequencer.startSmul (k : Nat) (a : Point) : Sequencer := .smul k .inf a 0

/-- The sequencer at acceptance, from the snapshot. EC_VERIFY starts its products only where the algorithm gets that far
(43_ecdsa.md R249). -/
def Sequencer.start (hm : HmacKind) (r : Regs) : Instr → Sequencer
  | .ptMul _ a b => .startSmul (r.rawAt b) (r.pAt a)
  | .ptMulg _ a => .startSmul (r.rawAt a) generator
  | .ecPubkey _ a => .startSmul (r.sAt a) generator
  | .ecSign _ _ c => .startSmul (r.sAt c) generator
  | .ecVerify a b =>
    match verifyScalars (r.pAt a) (r.sAt b) r.sig with
    | none => .direct
    | some (u1, _) => .startSmul u1 generator
  | .ecGenk _ a b => .gen (seedGenerator hm r.s[a] (r.rawAt b))
  | .ecSignh a b => .gen (seedGenerator hm r.s[a] (r.rawAt b))
  | _ => .direct

/-- What follows a finished first product: EC_VERIFY's second one; nothing for any other command. -/
def Sequencer.afterFirst (r : Regs) (k : Nat) (acc addend : Point) (bit : Nat) : Instr → Sequencer
  | .ecVerify a b =>
    match verifyScalars (r.pAt a) (r.sAt b) r.sig with
    | none => .smul k acc addend bit
    | some (_, u2) => .smul2 u2 acc .inf (r.pAt a) 0
  | _ => .smul k acc addend bit

/-- What follows an accepted candidate: EC_SIGNH's multiplication `k · G`; EC_GENK waits to complete. -/
def Sequencer.afterAccept (g : Generator) (t : Word256) : Instr → Sequencer
  | .ecSignh _ _ => .startSmul t.toNat generator
  | _ => .gen g

/-- One iteration of the running command's loop. -/
def Sequencer.tick (hm : HmacKind) (r : Regs) (i : Instr) : Sequencer → Sequencer
  | .direct => .direct
  | .smul k acc addend bit =>
    if bit < 256 then .smul k (accumulate k acc addend bit) (ptDbl addend) (bit + 1)
    else .afterFirst r k acc addend bit i
  | .smul2 k first acc addend bit =>
    if bit < 256 then .smul2 k first (accumulate k acc addend bit) (ptDbl addend) (bit + 1)
    else .smul2 k first acc addend bit
  | .gen g =>
    if acceptable (g.candidate hm) then .afterAccept g (g.candidate hm) i else .gen (g.afterReject hm)

/-- `m` iterations. -/
def Sequencer.run (hm : HmacKind) (r : Regs) (i : Instr) : Nat → Sequencer → Sequencer
  | 0, q => q
  | m + 1, q => Sequencer.run hm r i m (q.tick hm r i)

/-- The product `pt_smul(P, k)` the running command needs: the rest of its loop; from the beginning if the sequencer has not
started one. -/
def Sequencer.product (q : Sequencer) (a : Point) (k : Nat) : Point :=
  match q with
  | .smul k' acc addend bit => smulRest k' acc addend bit
  | _ => ptSmul a k

/-- The sum `pt_smul(G, u1) + pt_smul(Q, u2)` of EC_VERIFY, from where the sequencer stands. -/
def Sequencer.verifySum (s : Sequencer) (q : Point) (u1 u2 : Nat) : Point :=
  match s with
  | .smul2 k first acc addend bit => ptAdd first (smulRest k acc addend bit)
  | _ => ptAdd (s.product generator u1) (ptSmul q u2)

/-- The generator of EC_GENK and EC_SIGNH, freshly seeded if the sequencer has not started one. -/
def Sequencer.generator (s : Sequencer) (hm : HmacKind) (x : Word256) (b : Nat) : Generator :=
  match s with
  | .gen g => g
  | _ => seedGenerator hm x b

end Sys2Proof.Machine
end

