-- ==== Sys2Proof/Machine/Ops.lean ====
section
/-! DEFINITION. The shared operations: submission, rejection and completion of a command (60_exceptions.md R301, R305, R306), reset
(70_reset_and_hazards.md R340 to R343), and the host's accesses to the window (20_memory.md R72 to R84). -/

namespace Sys2Proof.Machine

/-! ### Commands -/

/-- A rejected word changes STATUS only (60_exceptions.md R306). This is the engine's report of an error: it has no traps
(R312). -/
def State.reject (s : State) (e : CmdError) : State := { s with status := s.status.rejected e }

/-- Acceptance of the word `w` that decodes to `i` (60_exceptions.md R301): STATUS, CMD, and the hidden state with the operands
as they are now. -/
def State.accept (s : State) (w : Word) (i : Instr) : State :=
  { s with
    status := s.status.accepted
    cmd := w
    job := some { word := w, snap := s.regs, seq := .start s.hmac s.regs i } }

/-- `Submit(w)` (60_exceptions.md R301). -/
def State.submit (s : State) (w : Word) : State :=
  match decode w with
  | .error e => s.reject e
  | .ok i => s.accept w i

/-- `Complete()` (60_exceptions.md R305): the data registers after the command, OK, COND, OVF, BUSY = 0, DONE = 1, hidden state
discarded. -/
def State.complete (s : State) (r : Regs) (ok cond ovf : Bool) : State :=
  { s with regs := r, status := s.status.completed ok cond ovf, job := none }

/-- A command that returns a result and no boolean: OK = 1 (10_state.md R45, R46). -/
def finish (s : State) (r : Regs) : Answer := .next (s.complete r true false false)

/-- A boolean command (10_state.md R46). -/
def finishCond (s : State) (b : Bool) : Answer := .next (s.complete s.regs true b false)

/-- A command that may overflow its output width (10_state.md R47). -/
def finishOvf (s : State) (r : Regs) (ovf : Bool) : Answer := .next (s.complete r true false ovf)

/-- A command with an Option result: on `None` every destination is unchanged and OK = 0 (60_exceptions.md R303). -/
def finishOption {α : Type} (s : State) (res : Option α) (write : α → Regs) : Answer :=
  .next (s.complete (res.elim s.regs write) res.isSome false false)

/-- A rejected candidate of EC_GENK or EC_SIGNH (43_ecdsa.md R243): the command stays in flight with the generator moved on
(70_reset_and_hazards.md R353). -/
def State.redraw (s : State) (i : Instr) (g : Generator) : State :=
  { s with
    status := { s.status with busy := true }
    job := some { word := encode i, snap := s.src, seq := .gen (g.afterReject s.hmac) } }

/-! ### Reset -/

/-- A legal point out of two free words and a free bit. -/
def freePoint (inf x y : Word256) : PointReg :=
  if inf.getLsbD 0 then { inf := true, x := 0, y := 0 }
  else { inf := false, x := .ofNat 256 (x.toNat % Config.p), y := .ofNat 256 (y.toNat % Config.p) }

/-- Data registers of which only their legal ranges are known (70_reset_and_hazards.md R342): free words reduced into range. -/
def Regs.free (draw : Nat) : Regs :=
  let word := Config.freeWord draw
  let below (m slot : Nat) : Word256 := .ofNat 256 ((word slot).toNat % m)
  { raw := Vector.ofFn fun i => word i.val
    f := Vector.ofFn fun i => below Config.p (4 + i.val)
    s := Vector.ofFn fun i => below Config.n (12 + i.val)
    p := Vector.ofFn fun i => freePoint (word (20 + 3 * i.val)) (word (21 + 3 * i.val)) (word (22 + 3 * i.val))
    sig := { r := below Config.n 32, s := below Config.n 33, v := (word 34).setWidth 8 }
    vout := (word 35).setWidth 64 }

/-- Either reset (70_reset_and_hazards.md R340): control state 0, the command in flight aborted, the data registers some legal
value (R341 to R343). -/
def State.resetEngine (s : State) : State :=
  { s with
    regs := Regs.free s.draws
    status := Status.zero
    ie := false
    cmd := 0
    job := none
    draws := s.draws + 1 }

/-! ### The register window -/

/-- What stands at an aligned offset (20_memory.md R72). -/
inductive Region where
  | id | status | ctrl | cmd | voutLo | voutHi | sigV
  | raw (i : RReg) (j : Fin 8)
  | f (i : FReg) (j : Fin 8)
  | s (i : SReg) (j : Fin 8)
  | tag (i : PReg)
  | px (i : PReg) (j : Fin 8)
  | py (i : PReg) (j : Fin 8)
  | sigR (j : Fin 8)
  | sigS (j : Fin 8)
  | unmapped
deriving DecidableEq, Repr

/-- The word of a 32-byte slot an offset falls on. -/
def slotWord (o : Nat) : Fin 8 := .ofNat 8 (o % 32 / 4)

/-- The slots of one P register, `o` counted from its base (20_memory.md R72). -/
def pointRegion (i : PReg) (o : Nat) : Region :=
  if o = 0 then .tag i
  else if 0x20 ≤ o ∧ o < 0x40 then .px i (slotWord o)
  else if 0x40 ≤ o ∧ o < 0x60 then .py i (slotWord o)
  else .unmapped

/-- The register map (20_memory.md R72), for an aligned offset. -/
def region (off : BitVec 12) : Region :=
  let o := off.toNat
  if o = 0x000 then .id
  else if o = 0x004 then .status
  else if o = 0x008 then .ctrl
  else if o = 0x00C then .cmd
  else if o = 0x010 then .voutLo
  else if o = 0x014 then .voutHi
  else if o = 0x018 then .sigV
  else if 0x100 ≤ o ∧ o < 0x180 then .raw (.ofNat 4 ((o - 0x100) / 32)) (slotWord o)
  else if 0x200 ≤ o ∧ o < 0x300 then .f (.ofNat 8 ((o - 0x200) / 32)) (slotWord o)
  else if 0x300 ≤ o ∧ o < 0x400 then .s (.ofNat 8 ((o - 0x300) / 32)) (slotWord o)
  else if 0x400 ≤ o ∧ o < 0x600 then pointRegion (.ofNat 4 ((o - 0x400) / 128)) ((o - 0x400) % 128)
  else if 0x600 ≤ o ∧ o < 0x620 then .sigR (slotWord o)
  else if 0x620 ≤ o ∧ o < 0x640 then .sigS (slotWord o)
  else .unmapped

/-- An access the window gives a meaning: 32 bits wide, at a multiple of 4 (20_memory.md R76). -/
def wordAccess (off : BitVec 12) (bytes : Nat) : Bool := bytes == 4 && off.toNat % 4 == 0

/-- The word of a data register while no command runs (20_memory.md R72, R73); `none` where there is no data register. -/
def Regs.window (r : Regs) : Region → Option Word
  | .voutLo => some (r.vout.extractLsb' 0 32)
  | .voutHi => some (r.vout.extractLsb' 32 32)
  | .sigV => some (r.sig.v.setWidth 32)
  | .raw i j => some (wordOf r.raw[i] j)
  | .f i j => some (wordOf r.f[i] j)
  | .s i j => some (wordOf r.s[i] j)
  | .tag i => some (.ofNat 32 r.p[i].inf.toNat)
  | .px i j => some (wordOf r.p[i].x j)
  | .py i j => some (wordOf r.p[i].y j)
  | .sigR j => some (wordOf r.sig.r j)
  | .sigS j => some (wordOf r.sig.s j)
  | _ => none

/-- A read returns `w`. -/
def State.returns (s : State) (w : Word) : State := { s with readData := w }

/-- A host access error (60_exceptions.md R319). -/
def State.accessError (s : State) : State := { s with status := s.status.accessError }

/-- A read of a data register other than RAW: a fresh free word while BUSY (20_memory.md R84). -/
def State.readResult (s : State) (w : Word) : State :=
  if s.status.busy then { s with readData := Config.draw32 s.draws, draws := s.draws + 1 } else s.returns w

/-- `HostRead(off)` for an aligned offset (20_memory.md R78). -/
def State.readRegion (s : State) (g : Region) : State :=
  match g with
  | .id => s.returns Config.idValue
  | .status => s.returns s.status.toWord
  | .ctrl => s.returns (.ofNat 32 s.ie.toNat)
  | .cmd => s.returns s.cmd
  | .raw i j => s.returns (wordOf s.regs.raw[i] j)
  | g =>
    match s.regs.window g with
    | some w => s.readResult w
    | none => s.accessError.returns 0

/-- `HostRead`; an access that is not an aligned 32-bit one reads 0 and sets AERR (20_memory.md R76, log 9). -/
def State.hostRead (s : State) (off : BitVec 12) (bytes : Nat) : State :=
  if wordAccess off bytes then s.readRegion (region off) else s.accessError.returns 0

/-- A write to word `j` of RAW[i] (20_memory.md R73, R82). -/
def State.writeRaw (s : State) (i : RReg) (j : Fin 8) (w : Word) : State :=
  if s.status.busy then s.accessError
  else { s with regs := { s.regs with raw := s.regs.raw.set i (setWordOf s.regs.raw[i] j w) } }

/-- A write to CTRL: SRST wins over IE (10_state.md R50). -/
def State.writeCtrl (s : State) (w : Word) : State :=
  if w.getLsbD 1 then s.resetEngine else { s with ie := w.getLsbD 0 }

/-- A write to CMD (20_memory.md R79, 60_exceptions.md R302). -/
def State.writeCmd (s : State) (w : Word) : State := if s.status.busy then s.accessError else s.submit w

/-- `HostWrite(off, w)` for an aligned offset (20_memory.md R79). -/
def State.writeRegion (s : State) (g : Region) (w : Word) : State :=
  match g with
  | .status => { s with status := s.status.writeOneToClear w }
  | .ctrl => s.writeCtrl w
  | .cmd => s.writeCmd w
  | .raw i j => s.writeRaw i j w
  | _ => s.accessError

/-- `HostWrite`; an access that is not an aligned 32-bit one is ignored and sets AERR (20_memory.md R76, log 9). -/
def State.hostWrite (s : State) (off : BitVec 12) (bytes : Nat) (w : Word) : State :=
  if wordAccess off bytes then s.writeRegion (region off) w else s.accessError

/-- The host's next access. A poll of `WAIT` that sees BUSY = 1 goes back to the head of the queue (30_encoding.md R123). -/
def State.hostOp (s : State) : HostOp → State
  | .read off bytes => s.hostRead off bytes
  | .write off bytes w => s.hostWrite off bytes w
  | .wait =>
    let t := s.hostRead 0x004 4
    if t.readData.getLsbD 0 then { t with hostQueue := .wait :: t.hostQueue } else t

end Sys2Proof.Machine
end

