-- ==== Sys2Proof/Machine/Control.lean ====
section
/-! DEFINITION. The control family (44_control.md). Each meaning is the command's completing engine step (60_exceptions.md R305). -/

namespace Sys2Proof.Machine

/-- NOP (44_control.md R290). -/
def execNop (s : State) : Answer := finish s s.regs

end Sys2Proof.Machine
end

