-- ==== Sys2Proof/Machine/Field.lean ====
section
/-! DEFINITION. The field family (40_field.md). Each meaning is the command's completing engine step (60_exceptions.md R305). -/

namespace Sys2Proof.Machine

/-- FE_NEW: `F[d] <- RAW[a] mod p` (40_field.md R142). -/
def execFeNew (d : FReg) (a : RReg) (s : State) : Answer := finish s (s.regs.setF d (s.src.rawAt a % Config.p))

/-- FE_ADD (40_field.md R143). -/
def execFeAdd (d a b : FReg) (s : State) : Answer := finish s (s.regs.setF d (addP (s.src.fAt a) (s.src.fAt b)))

/-- FE_SUB (40_field.md R144). -/
def execFeSub (d a b : FReg) (s : State) : Answer := finish s (s.regs.setF d (subP (s.src.fAt a) (s.src.fAt b)))

/-- FE_MUL (40_field.md R145). -/
def execFeMul (d a b : FReg) (s : State) : Answer := finish s (s.regs.setF d (mulP (s.src.fAt a) (s.src.fAt b)))

/-- FE_POW: the exponent is the raw integer, not reduced (40_field.md R146). -/
def execFePow (d a : FReg) (b : RReg) (s : State) : Answer :=
  finish s (s.regs.setF d (powP (s.src.fAt a) (s.src.rawAt b)))

/-- FE_INV: `None` at 0 (40_field.md R147). -/
def execFeInv (d a : FReg) (s : State) : Answer := finishOption s (invP (s.src.fAt a)) (s.regs.setF d)

/-- FE_EQ (40_field.md R148). -/
def execFeEq (a b : FReg) (s : State) : Answer := finishCond s (s.src.fAt a == s.src.fAt b)

/-- FE_RET (40_field.md R149). -/
def execFeRet (d : RReg) (a : FReg) (s : State) : Answer := finish s (s.regs.setRaw d (s.src.fAt a))

end Sys2Proof.Machine
end

