-- ==== Sys2Proof/Machine/PointOps.lean ====
section
/-! DEFINITION. The point family (42_point.md). Each meaning is the command's completing engine step (60_exceptions.md R305); the
multiplications finish the loop from where the sequencer stands. -/

namespace Sys2Proof.Machine

/-- `x()`: empty when the point is the identity (42_point.md R211). -/
def Point.x? : Point → Option Nat
  | .inf => none
  | .aff x _ => some x

/-- `y()`: empty when the point is the identity (42_point.md R212). -/
def Point.y? : Point → Option Nat
  | .inf => none
  | .aff _ y => some y

/-- PT_SETINF (42_point.md R204). -/
def execPtSetinf (d : PReg) (s : State) : Answer := finish s (s.regs.setP d .inf)

/-- PT_LOAD: no curve check (42_point.md R205, R202). -/
def execPtLoad (d : PReg) (a b : FReg) (s : State) : Answer :=
  finish s (s.regs.setP d (.aff (s.src.fAt a) (s.src.fAt b)))

/-- PT_ADD (42_point.md R207). -/
def execPtAdd (d a b : PReg) (s : State) : Answer := finish s (s.regs.setP d (ptAdd (s.src.pAt a) (s.src.pAt b)))

/-- PT_DBL (42_point.md R208). -/
def execPtDbl (d a : PReg) (s : State) : Answer := finish s (s.regs.setP d (ptDbl (s.src.pAt a)))

/-- PT_MUL: the multiplier is the raw integer, not reduced (42_point.md R209). -/
def execPtMul (d a : PReg) (b : RReg) (s : State) : Answer :=
  finish s (s.regs.setP d (s.seq.product (s.src.pAt a) (s.src.rawAt b)))

/-- PT_MULG (42_point.md R210). -/
def execPtMulg (d : PReg) (a : RReg) (s : State) : Answer :=
  finish s (s.regs.setP d (s.seq.product generator (s.src.rawAt a)))

/-- PT_GETX: `None` at the identity (42_point.md R211). -/
def execPtGetx (d : FReg) (a : PReg) (s : State) : Answer := finishOption s (s.src.pAt a).x? (s.regs.setF d)

/-- PT_GETY: `None` at the identity (42_point.md R212). -/
def execPtGety (d : FReg) (a : PReg) (s : State) : Answer := finishOption s (s.src.pAt a).y? (s.regs.setF d)

/-- PT_ISINF (42_point.md R213). -/
def execPtIsinf (a : PReg) (s : State) : Answer := finishCond s (s.src.pAt a == .inf)

end Sys2Proof.Machine
end

