-- ==== Sys2Proof/Machine/Scalar.lean ====
section
/-! DEFINITION. The scalar family (41_scalar.md). Each meaning is the command's completing engine step (60_exceptions.md R305). -/

namespace Sys2Proof.Machine

/-- SC_NEW: `S[d] <- RAW[a] mod n` (41_scalar.md R172). -/
def execScNew (d : SReg) (a : RReg) (s : State) : Answer := finish s (s.regs.setS d (s.src.rawAt a % Config.n))

/-- SC_ADD (41_scalar.md R173). -/
def execScAdd (d a b : SReg) (s : State) : Answer := finish s (s.regs.setS d (addN (s.src.sAt a) (s.src.sAt b)))

/-- SC_SUB (41_scalar.md R174). -/
def execScSub (d a b : SReg) (s : State) : Answer := finish s (s.regs.setS d (subN (s.src.sAt a) (s.src.sAt b)))

/-- SC_MUL (41_scalar.md R175). -/
def execScMul (d a b : SReg) (s : State) : Answer := finish s (s.regs.setS d (mulN (s.src.sAt a) (s.src.sAt b)))

/-- SC_POW: the exponent is the raw integer, not reduced (41_scalar.md R176). -/
def execScPow (d a : SReg) (b : RReg) (s : State) : Answer :=
  finish s (s.regs.setS d (powN (s.src.sAt a) (s.src.rawAt b)))

/-- SC_INV: `None` at 0 (41_scalar.md R177). -/
def execScInv (d a : SReg) (s : State) : Answer := finishOption s (invN (s.src.sAt a)) (s.regs.setS d)

/-- SC_EQ (41_scalar.md R178). -/
def execScEq (a b : SReg) (s : State) : Answer := finishCond s (s.src.sAt a == s.src.sAt b)

/-- SC_RET (41_scalar.md R179). -/
def execScRet (d : RReg) (a : SReg) (s : State) : Answer := finish s (s.regs.setRaw d (s.src.sAt a))

/-- SC_FROMFE: `S[d] <- F[a] mod n` (41_scalar.md R180). -/
def execScFromfe (d : SReg) (a : FReg) (s : State) : Answer := finish s (s.regs.setS d (s.src.fAt a % Config.n))

end Sys2Proof.Machine
end

