-- ==== Sys2Proof/Machine/Signature.lean ====
section
/-! DEFINITION. The ECDSA and signature family (43_ecdsa.md). Each meaning is the command's completing engine step
(60_exceptions.md R305); a multiplication is finished from where the sequencer stands, and the RFC 6979 generator draws one
candidate in a completing step (70_reset_and_hazards.md R353, log 5). -/

namespace Sys2Proof.Machine

/-- EC_GENK: the next candidate; if it is rejected the command stays in flight (43_ecdsa.md R242 to R244). -/
def execEcGenk (d a : SReg) (b : RReg) (s : State) : Answer :=
  let g := s.seq.generator s.hmac s.src.s[a] (s.src.rawAt b)
  let t := g.candidate s.hmac
  .next (if acceptable t then s.complete (s.regs.setS d t.toNat) true false false else s.redraw (.ecGenk d a b) g)

/-- EC_SIGN (43_ecdsa.md R246). -/
def execEcSign (a b c : SReg) (s : State) : Answer :=
  let k := s.src.sAt c
  finishOption s (signWith (s.src.sAt a) (s.src.sAt b) k (s.seq.product Machine.generator k)) s.regs.setSig

/-- The state after EC_SIGNH's `sign` with the accepted nonce `k` and `r = k · G` (43_ecdsa.md R247, R248). -/
def signhComplete (a : SReg) (b : RReg) (s : State) (k : Nat) (r : Point) : State :=
  let res := signWith (s.src.sAt a) (s.src.rawAt b % Config.n) k r
  s.complete (res.elim s.regs s.regs.setSig) res.isSome false false

/-- EC_SIGNH: the next candidate, then `sign` with it, no retry on `None` (43_ecdsa.md R247, R248). -/
def execEcSignh (a : SReg) (b : RReg) (s : State) : Answer :=
  match s.seq with
  | .smul k acc addend bit => .next (signhComplete a b s k (smulRest k acc addend bit))
  | q =>
    let g := q.generator s.hmac s.src.s[a] (s.src.rawAt b)
    let t := g.candidate s.hmac
    .next (if acceptable t then signhComplete a b s t.toNat (ptSmul Machine.generator t.toNat)
      else s.redraw (.ecSignh a b) g)

/-- EC_VERIFY (43_ecdsa.md R250). -/
def execEcVerify (a : PReg) (b : SReg) (s : State) : Answer :=
  finishCond s (match verifyScalars (s.src.pAt a) (s.src.sAt b) s.src.sig with
    | none => false
    | some (u1, u2) => verifyEnd s.src.sig (s.seq.verifySum (s.src.pAt a) u1 u2))

/-- EC_PUBKEY (43_ecdsa.md R251). -/
def execEcPubkey (d : PReg) (a : SReg) (s : State) : Answer :=
  finish s (s.regs.setP d (s.seq.product Machine.generator (s.src.sAt a)))

/-- SIG_LOAD: no check (43_ecdsa.md R254). -/
def execSigLoad (a b : SReg) (c : RReg) (s : State) : Answer :=
  finish s (s.regs.setSig { r := s.src.s[a], s := s.src.s[b], v := s.src.raw[c].setWidth 8 })

/-- SIG_NORM (43_ecdsa.md R255). -/
def execSigNorm (s : State) : Answer := finish s (s.regs.setSig (normalize s.src.sig))

/-- SIG_VALID (43_ecdsa.md R256). -/
def execSigValid (s : State) : Answer := finishCond s (isValid s.src.sig)

/-- SIG_VLEG: modulo 2^8 (43_ecdsa.md R257). -/
def execSigVleg (s : State) : Answer :=
  let t := vLegacy s.src.sig.v
  finishOvf s (s.regs.setVout (t % 2 ^ 8)) (decide (255 < t))

/-- SIG_V155: modulo 2^64, the chain id the low 64 bits (43_ecdsa.md R258). -/
def execSigV155 (a : RReg) (s : State) : Answer :=
  let t := vEip155 (s.src.rawAt a % 2 ^ 64) s.src.sig.v
  finishOvf s (s.regs.setVout (t % 2 ^ 64)) (decide (2 ^ 64 ≤ t))

end Sys2Proof.Machine
end

