-- ==== Sys2Proof/Machine/Dispatch.lean ====
section
/-! DEFINITION. One arm per command: its meaning. -/

namespace Sys2Proof.Machine

/-- The completing engine step of the command `i`. -/
def exec (i : Instr) (s : State) : Host.Outcome State Fault Refusal :=
  match i with
  | .nop => Sys2Proof.Machine.execNop s
  | .feNew d a => Sys2Proof.Machine.execFeNew d a s
  | .feAdd d a b => Sys2Proof.Machine.execFeAdd d a b s
  | .feSub d a b => Sys2Proof.Machine.execFeSub d a b s
  | .feMul d a b => Sys2Proof.Machine.execFeMul d a b s
  | .fePow d a b => Sys2Proof.Machine.execFePow d a b s
  | .feInv d a => Sys2Proof.Machine.execFeInv d a s
  | .feEq a b => Sys2Proof.Machine.execFeEq a b s
  | .feRet d a => Sys2Proof.Machine.execFeRet d a s
  | .scNew d a => Sys2Proof.Machine.execScNew d a s
  | .scAdd d a b => Sys2Proof.Machine.execScAdd d a b s
  | .scSub d a b => Sys2Proof.Machine.execScSub d a b s
  | .scMul d a b => Sys2Proof.Machine.execScMul d a b s
  | .scPow d a b => Sys2Proof.Machine.execScPow d a b s
  | .scInv d a => Sys2Proof.Machine.execScInv d a s
  | .scEq a b => Sys2Proof.Machine.execScEq a b s
  | .scRet d a => Sys2Proof.Machine.execScRet d a s
  | .scFromfe d a => Sys2Proof.Machine.execScFromfe d a s
  | .ptSetinf d => Sys2Proof.Machine.execPtSetinf d s
  | .ptLoad d a b => Sys2Proof.Machine.execPtLoad d a b s
  | .ptAdd d a b => Sys2Proof.Machine.execPtAdd d a b s
  | .ptDbl d a => Sys2Proof.Machine.execPtDbl d a s
  | .ptMul d a b => Sys2Proof.Machine.execPtMul d a b s
  | .ptMulg d a => Sys2Proof.Machine.execPtMulg d a s
  | .ptGetx d a => Sys2Proof.Machine.execPtGetx d a s
  | .ptGety d a => Sys2Proof.Machine.execPtGety d a s
  | .ptIsinf a => Sys2Proof.Machine.execPtIsinf a s
  | .ecGenk d a b => Sys2Proof.Machine.execEcGenk d a b s
  | .ecSign a b c => Sys2Proof.Machine.execEcSign a b c s
  | .ecSignh a b => Sys2Proof.Machine.execEcSignh a b s
  | .ecVerify a b => Sys2Proof.Machine.execEcVerify a b s
  | .ecPubkey d a => Sys2Proof.Machine.execEcPubkey d a s
  | .sigLoad a b c => Sys2Proof.Machine.execSigLoad a b c s
  | .sigNorm => Sys2Proof.Machine.execSigNorm s
  | .sigValid => Sys2Proof.Machine.execSigValid s
  | .sigVleg => Sys2Proof.Machine.execSigVleg s
  | .sigV155 a => Sys2Proof.Machine.execSigV155 a s

end Sys2Proof.Machine
end

