-- ==== Sys2Proof/Machine/Turns.lean ====
section
/-! DEFINITION. The moves of the agents (00_scope.md R15, 20_memory.md R85) that Step.lean calls, and a command word placed so that
the next step runs it. -/

namespace Sys2Proof.Machine

/-- The host performs its next access; an idle host leaves the state alone. -/
def State.hostTurn (s : State) : State :=
  match s.hostQueue with
  | [] => s
  | op :: rest => { s with hostQueue := rest }.hostOp op

/-- An engine step that does not complete the command in flight: its sequencer advances; an idle engine does nothing. -/
def State.engineTurn (s : State) (iterations : Nat) : State :=
  match s.job with
  | none => s
  | some j =>
    match decode j.word with
    | .error _ => s
    | .ok i => { s with job := some { j with seq := j.seq.run s.hmac j.snap i iterations } }

/-- The engine step that completes the command in flight: `exec` of the latched command word; an idle engine does nothing. -/
def State.completeTurn (s : State) : Answer :=
  match s.job with
  | none => .next s
  | some j =>
    match decode j.word with
    | .error _ => .fault .latchUndecodable
    | .ok i => exec i s

/-- The reset input (70_reset_and_hazards.md R340). -/
def State.rstTurn (s : State) : State := s.resetEngine

/-- Without a schedule, a command in flight completes before the host's next access (log 1). -/
def State.defaultTurn (s : State) : Answer := if s.job.isSome then s.completeTurn else .next s.hostTurn

/-- The move of the agent `t`. -/
def State.move (s : State) : Turn → Answer
  | .host => .next s.hostTurn
  | .engine iterations => .next (s.engineTurn iterations)
  | .complete => s.completeTurn
  | .rst => .next s.rstTurn

/-- The bits of an instruction as its command word (spec/opcode_table.json's numbering: one 32-bit word). -/
def commandWord (nbits w : Nat) : Word := .ofNat 32 (w % 2 ^ nbits)

/-- The word submitted to an idle engine, as by the host's write to CMD (60_exceptions.md R301), and the completing engine step
next (log 19). -/
def State.placeCommand (s : State) (w : Word) : State :=
  let idle := { s with job := none, status := { s.status with busy := false } }
  let t := idle.submit w
  { t with turns := .complete :: t.turns }

end Sys2Proof.Machine
end

