-- ==== Sys2Proof/Machine/Step.lean ====
section
/-! DEFINITION. One step: one move of one agent (20_memory.md R85). -/

namespace Sys2Proof.Machine

/-- The next scheduled agent moves. -/
def step (s : State) : Host.Outcome State Fault Refusal :=
  match s.turns with
  | [] => s.defaultTurn
  | t :: rest => { s with turns := rest }.move t

/-- The state with the command word `w` accepted and about to complete: the engine has no program counter and fetches nothing
(10_state.md R30, 20_memory.md R89), so the word stands where acceptance latches it (log 19). -/
def State.withFetchWord (s : State) (nbits w : Nat) : State := s.placeCommand (commandWord nbits w)

end Sys2Proof.Machine
end

