-- ==== Sys2Proof/Machine/HostProgram.lean ====
section
/-! DEFINITION. The assembler syntax and the host-side pseudo-instructions (30_encoding.md R121 to R123). -/

namespace Sys2Proof.Machine

/-- The mnemonic of spec/opcode_table.json whose row's fixed bits the command's word has (30_encoding.md R118, R120). -/
def mnemonicOf (i : Instr) : String := ((opcodeTable.find? (·.fits (encode i))).map (·.mnemonic)).getD ""

/-- An operand: a file letter and an index (30_encoding.md R121). -/
def operandText (file : RegFile) (k : Nat) : String :=
  (match file with
    | .f => "F"
    | .s => "S"
    | .p => "P"
    | .raw => "R") ++ toString k

/-- `MNEMONIC op1, op2, ...`, the used fields in the order `d, a, b, c` (30_encoding.md R121). -/
def assembly (i : Instr) : String :=
  let w := encode i
  match opcodeEntry (opField w) with
  | none => ""
  | some e =>
    let field (f : Option RegFile) (v : Nat) : List String := (f.map (operandText · v)).toList
    let ops := field e.dFile (dField w) ++ field e.aFile (aField w) ++ field e.bFile (bField w) ++ field e.cFile (cField w)
    if ops.isEmpty then mnemonicOf i else mnemonicOf i ++ " " ++ String.intercalate ", " ops

/-- A statement of a host program (30_encoding.md R122, R123). -/
inductive HostStatement where
  | r32 (off : BitVec 12)
  | w32 (off : BitVec 12) (w : Word)
  | command (i : Instr)
  | wait
  | li (k : RReg) (imm : Word256)
  | lib (k : RReg) (bytes : List Byte)
  | feLi (d : FReg) (imm : Word256) (t : RReg)
  | scLi (d : SReg) (imm : Word256) (t : RReg)
  | feNeg (d a : FReg)
  | scNeg (d a : SReg)
  | ptLoadg (d : PReg) (t : RReg)
  | rd256 (off : BitVec 12)
deriving DecidableEq, Repr

/-- The restrictions R123 puts on its pseudo-instructions: LIB takes 32 bytes, FE_NEG and SC_NEG require `d != a`. -/
def HostStatement.wellFormed : HostStatement → Bool
  | .lib _ bytes => bytes.length == 32
  | .feNeg d a => d != a
  | .scNeg d a => d != a
  | _ => true

/-- `w32 0x00C, <command word>` (30_encoding.md R122). -/
def submitOp (i : Instr) : HostOp := .write 0x00C 4 (encode i)

/-- The offset of word `j` of RAW[k] (20_memory.md R72). -/
def rawOffset (k : RReg) (j : Fin 8) : BitVec 12 := .ofNat 12 (0x100 + 0x20 * k.val + 4 * j.val)

/-- `LI Rk, imm` (30_encoding.md R123). -/
def loadRaw (k : RReg) (imm : Word256) : List HostOp :=
  (List.finRange 8).map fun j => .write (rawOffset k j) 4 (wordOf imm j)

/-- The expansions of 30_encoding.md R123. DESIGN CHOICE (log 25): the offsets of RD256 are added modulo 2^12, so with `o + 28`
beyond 0xFFF, where the rule says nothing, they go on at 0x000. -/
def HostStatement.expand : HostStatement → List HostOp
  | .r32 off => [.read off 4]
  | .w32 off w => [.write off 4 w]
  | .command i => [submitOp i]
  | .wait => [.wait]
  | .li k imm => loadRaw k imm
  | .lib k bytes => loadRaw k (.ofNat 256 (intOf bytes))
  | .feLi d imm t => loadRaw t imm ++ [submitOp (.feNew d t), .wait]
  | .scLi d imm t => loadRaw t imm ++ [submitOp (.scNew d t), .wait]
  | .feNeg d a => [submitOp (.feSub d a a), .wait, submitOp (.feSub d d a), .wait]
  | .scNeg d a => [submitOp (.scSub d a a), .wait, submitOp (.scSub d d a), .wait]
  | .ptLoadg d t => loadRaw t 1 ++ [submitOp (.ptMulg d t), .wait]
  | .rd256 off => (List.range 8).map fun j => .read (off + .ofNat 12 (4 * j)) 4

/-- A host program appended to the host's pending accesses. -/
def State.withProgram (s : State) (program : List HostStatement) : State :=
  { s with hostQueue := s.hostQueue ++ program.flatMap (·.expand) }

end Sys2Proof.Machine
end

