-- ==== Sys2Proof/Safety.lean ====
section
/-! DEFINITION. What claims about the machine are stated in: legal register contents, a coherent command in flight, and what a
completing step changes and leaves alone. -/

namespace Sys2Proof.Machine

/-- A command `i` is in flight (10_state.md R52). -/
def State.Running (s : State) (i : Instr) : Prop := ∃ j, s.job = some j ∧ decode j.word = .ok i

/-! ### Legal contents -/

/-- A point register holds a legal point (10_state.md R35, 70_reset_and_hazards.md R342). -/
structure PointReg.Legal (r : PointReg) : Prop where
  x_lt : r.x.toNat < Config.p
  y_lt : r.y.toNat < Config.p
  inf_zero : r.inf = true → r.x = 0 ∧ r.y = 0

/-- SIG holds scalars (10_state.md R36). -/
structure Sig.Legal (g : Sig) : Prop where
  r_lt : g.r.toNat < Config.n
  s_lt : g.s.toNat < Config.n

/-- Every data register is within its type's range (10_state.md R33 to R36, 00_scope.md R23). -/
structure Regs.Legal (r : Regs) : Prop where
  f_lt : ∀ i : FReg, (r.f[i]).toNat < Config.p
  s_lt : ∀ i : SReg, (r.s[i]).toNat < Config.n
  p_legal : ∀ i : PReg, (r.p[i]).Legal
  sig_legal : r.sig.Legal

/-- A point value with reduced coordinates (00_scope.md R22). -/
def Point.Legal : Point → Prop
  | .inf => True
  | .aff x y => x < Config.p ∧ y < Config.p

/-! ### The command in flight -/

/-- A job is where its command can be after some iterations from acceptance (10_state.md R52). -/
def Job.Coherent (j : Job) (hm : HmacKind) (i : Instr) : Prop :=
  decode j.word = .ok i ∧ ∃ m, j.seq = Sequencer.run hm j.snap i m (Sequencer.start hm j.snap i)

/-- BUSY stands exactly while a command is in flight; then the latched word is CMD, the snapshot is what the registers hold,
the sequencer is on the command's way, and the result flags are still clear (10_state.md R43 to R52; 60_exceptions.md R301). -/
structure State.Coherent (s : State) : Prop where
  busy_iff : s.status.busy = s.job.isSome
  word_eq : ∀ j, s.job = some j → j.word = s.cmd
  snap_eq : ∀ j, s.job = some j → j.snap = s.regs
  onItsWay : ∀ j, s.job = some j → ∃ i, j.Coherent s.hmac i
  flags_clear : ∀ j, s.job = some j →
    s.status.done = false ∧ s.status.ok = false ∧ s.status.cond = false ∧ s.status.ovf = false ∧ s.status.err = none

/-- The invariant of every step. -/
structure State.Inv (s : State) : Prop where
  legal : s.regs.Legal
  coherent : s.Coherent

/-! ### What a completing step leaves alone -/

/-- After `Complete()` (60_exceptions.md R305): idle, DONE, the three result flags; ERR and AERR, CTRL, CMD and everything
outside the engine as before. -/
structure Completed (s t : State) (ok cond ovf : Bool) : Prop where
  job : t.job = none
  status : t.status = { s.status with busy := false, done := true, ok := ok, cond := cond, ovf := ovf }
  ie : t.ie = s.ie
  cmd : t.cmd = s.cmd
  hostQueue : t.hostQueue = s.hostQueue
  turns : t.turns = s.turns
  readData : t.readData = s.readData
  draws : t.draws = s.draws
  hmac : t.hmac = s.hmac

/-- No data register but RAW[d] changes. -/
def OnlyRaw (s t : State) (d : RReg) : Prop :=
  (∀ i : RReg, i ≠ d → t.regs.raw[i] = s.regs.raw[i]) ∧ t.regs.f = s.regs.f ∧ t.regs.s = s.regs.s ∧
    t.regs.p = s.regs.p ∧ t.regs.sig = s.regs.sig ∧ t.regs.vout = s.regs.vout

/-- No data register but F[d] changes. -/
def OnlyF (s t : State) (d : FReg) : Prop :=
  (∀ i : FReg, i ≠ d → t.regs.f[i] = s.regs.f[i]) ∧ t.regs.raw = s.regs.raw ∧ t.regs.s = s.regs.s ∧
    t.regs.p = s.regs.p ∧ t.regs.sig = s.regs.sig ∧ t.regs.vout = s.regs.vout

/-- No data register but S[d] changes. -/
def OnlyS (s t : State) (d : SReg) : Prop :=
  (∀ i : SReg, i ≠ d → t.regs.s[i] = s.regs.s[i]) ∧ t.regs.raw = s.regs.raw ∧ t.regs.f = s.regs.f ∧
    t.regs.p = s.regs.p ∧ t.regs.sig = s.regs.sig ∧ t.regs.vout = s.regs.vout

/-- No data register but P[d] changes. -/
def OnlyP (s t : State) (d : PReg) : Prop :=
  (∀ i : PReg, i ≠ d → t.regs.p[i] = s.regs.p[i]) ∧ t.regs.raw = s.regs.raw ∧ t.regs.f = s.regs.f ∧
    t.regs.s = s.regs.s ∧ t.regs.sig = s.regs.sig ∧ t.regs.vout = s.regs.vout

/-- No data register but SIG changes. -/
def OnlySig (s t : State) : Prop :=
  t.regs.raw = s.regs.raw ∧ t.regs.f = s.regs.f ∧ t.regs.s = s.regs.s ∧ t.regs.p = s.regs.p ∧ t.regs.vout = s.regs.vout

/-- No data register but VOUT changes. -/
def OnlyVout (s t : State) : Prop :=
  t.regs.raw = s.regs.raw ∧ t.regs.f = s.regs.f ∧ t.regs.s = s.regs.s ∧ t.regs.p = s.regs.p ∧ t.regs.sig = s.regs.sig

/-- Every point of the P file satisfies the curve equation (10_state.md R35). -/
def Regs.OnCurve (r : Regs) : Prop := ∀ i : PReg, (r.pAt i).onCurve = true

/-! ### Registers by name -/

/-- A data register (10_state.md R31). -/
inductive DataReg where
  | raw (i : RReg)
  | f (i : FReg)
  | s (i : SReg)
  | p (i : PReg)
  | sig
  | vout
deriving DecidableEq, Repr

/-- Two register sets hold the same in one register. -/
def SameAt (r r' : Regs) : DataReg → Prop
  | .raw i => r.raw[i] = r'.raw[i]
  | .f i => r.f[i] = r'.f[i]
  | .s i => r.s[i] = r'.s[i]
  | .p i => r.p[i] = r'.p[i]
  | .sig => r.sig = r'.sig
  | .vout => r.vout = r'.vout

/-- The registers a command reads: its used source fields and the implicit SIG (30_encoding.md R118). -/
def reads : Instr → List DataReg
  | .nop => []
  | .feNew _ a => [.raw a]
  | .feAdd _ a b => [.f a, .f b]
  | .feSub _ a b => [.f a, .f b]
  | .feMul _ a b => [.f a, .f b]
  | .fePow _ a b => [.f a, .raw b]
  | .feInv _ a => [.f a]
  | .feEq a b => [.f a, .f b]
  | .feRet _ a => [.f a]
  | .scNew _ a => [.raw a]
  | .scAdd _ a b => [.s a, .s b]
  | .scSub _ a b => [.s a, .s b]
  | .scMul _ a b => [.s a, .s b]
  | .scPow _ a b => [.s a, .raw b]
  | .scInv _ a => [.s a]
  | .scEq a b => [.s a, .s b]
  | .scRet _ a => [.s a]
  | .scFromfe _ a => [.f a]
  | .ptSetinf _ => []
  | .ptLoad _ a b => [.f a, .f b]
  | .ptAdd _ a b => [.p a, .p b]
  | .ptDbl _ a => [.p a]
  | .ptMul _ a b => [.p a, .raw b]
  | .ptMulg _ a => [.raw a]
  | .ptGetx _ a => [.p a]
  | .ptGety _ a => [.p a]
  | .ptIsinf a => [.p a]
  | .ecGenk _ a b => [.s a, .raw b]
  | .ecSign a b c => [.s a, .s b, .s c]
  | .ecSignh a b => [.s a, .raw b]
  | .ecVerify a b => [.p a, .s b, .sig]
  | .ecPubkey _ a => [.s a]
  | .sigLoad a b c => [.s a, .s b, .raw c]
  | .sigNorm => [.sig]
  | .sigValid => [.sig]
  | .sigVleg => [.sig]
  | .sigV155 a => [.raw a, .sig]

/-- The one data register a command writes (10_state.md R39); `none` for NOP and the boolean commands. -/
def writes : Instr → Option DataReg
  | .nop => none
  | .feNew d _ => some (.f d)
  | .feAdd d _ _ => some (.f d)
  | .feSub d _ _ => some (.f d)
  | .feMul d _ _ => some (.f d)
  | .fePow d _ _ => some (.f d)
  | .feInv d _ => some (.f d)
  | .feEq _ _ => none
  | .feRet d _ => some (.raw d)
  | .scNew d _ => some (.s d)
  | .scAdd d _ _ => some (.s d)
  | .scSub d _ _ => some (.s d)
  | .scMul d _ _ => some (.s d)
  | .scPow d _ _ => some (.s d)
  | .scInv d _ => some (.s d)
  | .scEq _ _ => none
  | .scRet d _ => some (.raw d)
  | .scFromfe d _ => some (.s d)
  | .ptSetinf d => some (.p d)
  | .ptLoad d _ _ => some (.p d)
  | .ptAdd d _ _ => some (.p d)
  | .ptDbl d _ => some (.p d)
  | .ptMul d _ _ => some (.p d)
  | .ptMulg d _ => some (.p d)
  | .ptGetx d _ => some (.f d)
  | .ptGety d _ => some (.f d)
  | .ptIsinf _ => none
  | .ecGenk d _ _ => some (.s d)
  | .ecSign _ _ _ => some .sig
  | .ecSignh _ _ => some .sig
  | .ecVerify _ _ => none
  | .ecPubkey d _ => some (.p d)
  | .sigLoad _ _ _ => some .sig
  | .sigNorm => some .sig
  | .sigValid => none
  | .sigVleg => some .vout
  | .sigV155 _ => some .vout

/-- The offset of a word of the window by the formulas of 20_memory.md R72; `none` where nothing is mapped. -/
def Region.offset : Region → Option Nat
  | .id => some 0x000
  | .status => some 0x004
  | .ctrl => some 0x008
  | .cmd => some 0x00C
  | .voutLo => some 0x010
  | .voutHi => some 0x014
  | .sigV => some 0x018
  | .raw i j => some (0x100 + 0x20 * i.val + 4 * j.val)
  | .f i j => some (0x200 + 0x20 * i.val + 4 * j.val)
  | .s i j => some (0x300 + 0x20 * i.val + 4 * j.val)
  | .tag i => some (0x400 + 0x80 * i.val)
  | .px i j => some (0x420 + 0x80 * i.val + 4 * j.val)
  | .py i j => some (0x440 + 0x80 * i.val + 4 * j.val)
  | .sigR j => some (0x600 + 4 * j.val)
  | .sigS j => some (0x620 + 4 * j.val)
  | .unmapped => none

/-- The offset of a mapped word as the host gives it. -/
def Region.off (g : Region) : BitVec 12 := .ofNat 12 (g.offset.getD 0)

/-! ### Results by their equations -/

/-- The value of a command word by the formula of 30_encoding.md R111, `resv` 0. -/
def CommandWord (i : Instr) (op d a b c : Nat) : Prop :=
  (encode i).toNat = c * 2 ^ 20 + b * 2 ^ 16 + a * 2 ^ 12 + d * 2 ^ 8 + op

/-- `r` is the point where the line of slope `m` through `(x1, y1)` meets the curve beside `x1` and `x2`, reflected
(42_point.md R200). -/
def OnChord (m : ZMod Config.p) (x1 y1 x2 : Nat) (r : Point) : Prop :=
  ∃ x3 y3, r = .aff x3 y3 ∧ (x3 : ZMod Config.p) = m ^ 2 - x1 - x2 ∧ (y3 : ZMod Config.p) = m * (x1 - x3) - y1

/-- `r = pt_add(a, b)`, by the equations of 42_point.md R200's cases. -/
def PointSum : Point → Point → Point → Prop
  | .inf, b, r => r = b
  | .aff x y, .inf, r => r = .aff x y
  | .aff x1 y1, .aff x2 y2, r =>
    (x1 = x2 ∧ y1 = y2 ∧ y1 = 0 → r = .inf) ∧
    (x1 = x2 ∧ y1 = y2 ∧ y1 ≠ 0 → ∃ m : ZMod Config.p, m * (2 * y1) = 3 * x1 ^ 2 ∧ OnChord m x1 y1 x1 r) ∧
    (x1 = x2 ∧ y1 ≠ y2 → r = .inf) ∧
    (x1 ≠ x2 → ∃ m : ZMod Config.p, m * (x2 - x1) = y2 - y1 ∧ OnChord m x1 y1 x2 r)

/-- `res = sign(x, z, k)` after `pt_smul(G, k) = R`, by the equations of 43_ecdsa.md R245 and R253. -/
def SignatureOf (x z k : Nat) (R : Point) (res : Option Sig) : Prop :=
  (R = .inf → res = none) ∧
  ∀ x1 y1, R = .aff x1 y1 →
    (x1 % Config.n = 0 ∨ (z + x1 % Config.n * x) % Config.n = 0 → res = none) ∧
    (¬(x1 % Config.n = 0 ∨ (z + x1 % Config.n * x) % Config.n = 0) →
      ∃ s0 g, res = some g ∧ s0 < Config.n ∧ k * s0 % Config.n = (z + x1 % Config.n * x) % Config.n ∧
        g.r.toNat = x1 % Config.n ∧
        (s0 ≤ Config.n / 2 → g.s.toNat = s0 ∧ g.v.toNat = y1 % 2) ∧
        (Config.n / 2 < s0 → g.s.toNat = Config.n - s0 ∧ g.v.toNat = 1 - y1 % 2))

/-- `verify(Q, z, sig)` is true, by the equations of 43_ecdsa.md R249 and R252. -/
def Verifies (q : Point) (z : Nat) (g : Sig) : Prop :=
  0 < g.r.toNat ∧ g.r.toNat < Config.n ∧ 0 < g.s.toNat ∧ g.s.toNat < Config.n ∧ q ≠ .inf ∧
    ∃ si x y, si < Config.n ∧ g.s.toNat * si % Config.n = 1 ∧
      ptAdd (ptSmul generator (z * si % Config.n)) (ptSmul q (g.r.toNat * si % Config.n)) = .aff x y ∧
      x % Config.n = g.r.toNat

/-! ### Runs -/

/-- The state after `m` steps, if all of them answer a next state. -/
def State.after : Nat → State → Option State
  | 0, s => some s
  | m + 1, s =>
    match step s with
    | .next t => t.after m
    | _ => none

/-- The agent that moves in the next step. -/
def State.mover (s : State) : Turn :=
  match s.turns with
  | t :: _ => t
  | [] => if s.job.isSome then .complete else .host

/-- The host access of the next step, if the host moves and has one. -/
def State.access (s : State) : Option HostOp := if s.mover = .host then s.hostQueue.head? else none

/-- Whether a STATUS read after the last CMD write has returned BUSY = 0, once the access `op` is made and, if it is a read, has
returned `readData`; `seen` says it of the accesses before. A poll of WAIT is such a read. -/
def HostOp.seesIdle (op : HostOp) (readData : Word) (seen : Bool) : Bool :=
  match op with
  | .read off bytes => seen || (off == 0x004 && bytes == 4 && !readData.getLsbD 0)
  | .write off bytes _ => seen && !(off == 0x00C && bytes == 4)
  | .wait => seen || !readData.getLsbD 0

/-- `runOver` from the state `s` on, `seen` standing for the accesses before it. -/
def State.overAfter : Nat → Bool → State → Bool
  | 0, seen, s => s.hostQueue.isEmpty && seen
  | m + 1, seen, s =>
    match step s with
    | .next t => t.overAfter m (s.access.elim seen (·.seesIdle t.readData seen))
    | _ => false

/-- After `m` steps from `s` the run of the host program in its queue is over (70_reset_and_hazards.md R355): the last access is
made, and a STATUS read after the last CMD write has returned BUSY = 0 (log 26). -/
def State.runOver (s : State) (m : Nat) : Bool := s.overAfter m false

/-- The observation of a run that is over: the word the host reads at each offset (70_reset_and_hazards.md R355). -/
def State.observation (s : State) (off : BitVec 12) : Word := (s.hostRead off 4).readData

end Sys2Proof.Machine
end

