-- ==== Sys2Proof/Certificates/Slice0/Obligations.lean ====
section
/-! DEFINITION. The statements for the provers. In a statement about a command, `s.src` is where the command reads its sources:
the snapshot of the command in flight, or, on an idle engine, the registers (log 3); `s` is any state unless a premise
says otherwise. `Only…` and `Completed` (Safety.lean) are the frame. -/

section Slice0Obligations

open Sys2Proof Sys2Proof.Machine
open Sys2Proof.Config (p n)

/-! ### Encoding -/

/-- Words written out from the bit layout of 30_encoding.md R111 and the opcode map R118. -/
def Obligations.SampleWordsDecode : Prop :=
  decode 0b00000000000000000000000000000000 = .ok .nop ∧
  decode 0b00000000000000110010000100010001 = .ok (.feAdd 1 2 3) ∧
  decode 0b00000000000000110101011100010100 = .ok (.fePow 7 5 3) ∧
  decode 0b00000000000000000111001100100111 = .ok (.scRet 3 7) ∧
  decode 0b00000000000000110010000100110100 = .ok (.ptMul 1 2 3) ∧
  decode 0b00000000001000010000000001000001 = .ok (.ecSign 0 1 2) ∧
  decode 0b00000000001100010110000001001000 = .ok (.sigLoad 6 1 3) ∧
  decode 0b00000000000000000010000001001100 = .ok (.sigV155 2)

/-- Decoding an encoded command gives it back, for every command and every operand. -/
def Obligations.DecodeOfEncode : Prop := ∀ i : Instr, decode (encode i) = .ok i

/-- 30_encoding.md R120: the legal words are the 37 patterns of the table, and no word is legal under two rows. -/
def Obligations.LegalWordsAreTheTable : Prop :=
  opcodeTable.length = 37 ∧
  ∀ w : Word,
    ((∃ i, decode w = .ok i) ↔ ∃ r ∈ opcodeTable, w &&& r.mask = r.value) ∧
    ((¬∃ r ∈ opcodeTable, w &&& r.mask = r.value) → ∃ e, decode w = .error e) ∧
    ∀ r ∈ opcodeTable, ∀ r' ∈ opcodeTable, w &&& r.mask = r.value → w &&& r'.mask = r'.value → r = r'

/-- 30_encoding.md R119: the checks in their order, said by the table's rows: a field that a row's mask fixes whole is unused. -/
def Obligations.DecodeChecksInOrder : Prop :=
  ∀ w : Word,
    ((∀ r ∈ opcodeTable, r.value.toNat ≠ w.toNat % 256) → decode w = .error .illegalOpcode) ∧
    ∀ r ∈ opcodeTable, r.value.toNat = w.toNat % 256 →
      let unusedSet := w.toNat / 2 ^ 24 ≠ 0 ∨
        ∃ k ∈ [8, 12, 16, 20], r.mask.toNat / 2 ^ k % 16 = 15 ∧ w.toNat / 2 ^ k % 16 ≠ 0
      (unusedSet → decode w = .error .reservedField) ∧
      (¬unusedSet → w &&& r.mask ≠ r.value → decode w = .error .badRegister) ∧
      (¬unusedSet → w &&& r.mask = r.value → ∃ i, decode w = .ok i ∧ encode i = w)

/-! ### Steps -/

/-- A completing engine step is the meaning of the latched command word; without a schedule the step of a busy engine is
that one (log 1). A legal command word placed for the next step is accepted on the idle engine, and the next step runs it
(log 19). -/
def Obligations.StepRunsTheAcceptedCommand : Prop :=
  (∀ (s : State) (j : Job) (i : Instr), s.job = some j → decode j.word = .ok i →
    (∀ rest, s.turns = .complete :: rest → step s = exec i { s with turns := rest }) ∧
    (s.turns = [] → step s = exec i s)) ∧
  ∀ (s : State) (w : Word) (i : Instr), decode w = .ok i →
    step (s.withFetchWord 32 w.toNat) =
      exec i (State.accept { s with job := none, status := { s.status with busy := false } } w i)

/-- The other moves: the host's next access (20_memory.md R85). That the turns of an idle host or engine do nothing, and who moves
without a schedule, is the model's choice (log 1), and so is the reset input as a pulse of one step (log 21). -/
def Obligations.StepMovesOneAgent : Prop :=
  ∀ (s : State) (rest : List Turn),
    (∀ op ops, s.turns = .host :: rest → s.hostQueue = op :: ops →
      step s = .next (State.hostOp { s with turns := rest, hostQueue := ops } op)) ∧
    (s.turns = .host :: rest → s.hostQueue = [] → step s = .next { s with turns := rest }) ∧
    (s.turns = .complete :: rest → s.job = none → step s = .next { s with turns := rest }) ∧
    (∀ m, s.turns = .engine m :: rest → s.job = none → step s = .next { s with turns := rest }) ∧
    (s.turns = .rst :: rest → step s = .next (State.resetEngine { s with turns := rest })) ∧
    (∀ op ops, s.turns = [] → s.job = none → s.hostQueue = op :: ops →
      step s = .next (State.hostOp { s with hostQueue := ops } op)) ∧
    (s.turns = [] → s.job = none → s.hostQueue = [] → step s = .next s)

/-- An engine step that does not complete the command moves the sequencer and nothing else: no destination, no flag
(60_exceptions.md R301, R305). -/
def Obligations.InternalStepsAreHidden : Prop :=
  ∀ (s : State) (m : Nat) (rest : List Turn), s.turns = .engine m :: rest →
    ∃ t, step s = .next t ∧ t.regs = s.regs ∧ t.status = s.status ∧ t.ie = s.ie ∧ t.cmd = s.cmd ∧
      t.hostQueue = s.hostQueue ∧ t.turns = rest ∧ t.readData = s.readData ∧ t.draws = s.draws ∧ t.hmac = s.hmac ∧
      t.job.map Job.word = s.job.map Job.word ∧ t.job.map Job.snap = s.job.map Job.snap

/-! ### Submission -/

/-- 60_exceptions.md R301: acceptance of a legal word by an idle engine. R301 snapshots the sources the opcode reads; that the
snapshot holds every data register as it is now is the model's reading (log 4, DEDUCED). -/
def Obligations.AcceptanceOfALegalWord : Prop :=
  ∀ (s : State) (w : Word) (i : Instr), s.status.busy = false → decode w = .ok i →
    s.hostWrite 0x00C 4 w =
      { s with
        status := { busy := true, done := false, ok := false, cond := false, ovf := false, err := none, aerr := s.status.aerr }
        cmd := w
        job := some { word := w, snap := s.regs, seq := Sequencer.start s.hmac s.regs i } }

/-- 60_exceptions.md R306: a rejected word changes STATUS only, and how. -/
def Obligations.RejectionOfAnIllegalWord : Prop :=
  ∀ (s : State) (w : Word) (e : CmdError), s.status.busy = false → decode w = .error e →
    s.hostWrite 0x00C 4 w =
      { s with
        status := { busy := false, done := true, ok := false, cond := false, ovf := false, err := some e, aerr := s.status.aerr } }

/-! ### The register window -/

/-- 20_memory.md R72: an aligned offset is one word of one register, or unmapped, by the formulas of the map. -/
def Obligations.WindowMap : Prop :=
  ∀ off : BitVec 12, off.toNat % 4 = 0 →
    (∀ g : Region, g.offset = some off.toNat ↔ region off = g ∧ g ≠ .unmapped) ∧
    (region off = .unmapped ↔ ∀ g : Region, g.offset ≠ some off.toNat)

/-- 20_memory.md R78: `HostRead` of every aligned offset: the whole state after it. While BUSY (R84) the unspecified word is the
model's free value, numbered by the counter `draws`, which the read advances: the model's choice (log 10, DESIGN CHOICE). -/
def Obligations.HostReadAnswers : Prop :=
  ∀ s : State,
    s.hostRead 0x000 4 = { s with readData := Config.idValue } ∧
    s.hostRead 0x004 4 = { s with readData := s.status.toWord } ∧
    s.hostRead 0x008 4 = { s with readData := .ofNat 32 s.ie.toNat } ∧
    s.hostRead 0x00C 4 = { s with readData := s.cmd } ∧
    (∀ (i : RReg) (j : Fin 8), s.hostRead (Region.raw i j).off 4 =
      { s with readData := .ofNat 32 ((s.regs.raw[i]).toNat / 2 ^ (224 - 32 * j.val)) }) ∧
    (s.status.busy = false →
      s.hostRead 0x010 4 = { s with readData := .ofNat 32 s.regs.vout.toNat } ∧
      s.hostRead 0x014 4 = { s with readData := .ofNat 32 (s.regs.vout.toNat / 2 ^ 32) } ∧
      s.hostRead 0x018 4 = { s with readData := .ofNat 32 s.regs.sig.v.toNat } ∧
      ∀ j : Fin 8,
        (∀ i : FReg, s.hostRead (Region.f i j).off 4 =
          { s with readData := .ofNat 32 ((s.regs.f[i]).toNat / 2 ^ (224 - 32 * j.val)) }) ∧
        (∀ i : SReg, s.hostRead (Region.s i j).off 4 =
          { s with readData := .ofNat 32 ((s.regs.s[i]).toNat / 2 ^ (224 - 32 * j.val)) }) ∧
        (∀ i : PReg, s.hostRead (Region.tag i).off 4 = { s with readData := if (s.regs.p[i]).inf then 1 else 0 } ∧
          s.hostRead (Region.px i j).off 4 =
            { s with readData := .ofNat 32 ((s.regs.p[i]).x.toNat / 2 ^ (224 - 32 * j.val)) } ∧
          s.hostRead (Region.py i j).off 4 =
            { s with readData := .ofNat 32 ((s.regs.p[i]).y.toNat / 2 ^ (224 - 32 * j.val)) }) ∧
        s.hostRead (Region.sigR j).off 4 = { s with readData := .ofNat 32 (s.regs.sig.r.toNat / 2 ^ (224 - 32 * j.val)) } ∧
        s.hostRead (Region.sigS j).off 4 = { s with readData := .ofNat 32 (s.regs.sig.s.toNat / 2 ^ (224 - 32 * j.val)) }) ∧
    (s.status.busy = true → ∀ (off : BitVec 12) (g : Region), g.offset = some off.toNat →
      g ∉ [.id, .status, .ctrl, .cmd] → (∀ i j, g ≠ .raw i j) →
      s.hostRead off 4 = { s with readData := Config.draw32 s.draws, draws := s.draws + 1 }) ∧
    ∀ off : BitVec 12, off.toNat % 4 = 0 → (∀ g : Region, g.offset ≠ some off.toNat) →
      s.hostRead off 4 = { s with readData := 0, status := { s.status with aerr := true } }

/-- 20_memory.md R79: `HostWrite` to every aligned offset: the whole state after it, but for the new RAW value, which
`RawWriteReplacesOneWord` says bit by bit. -/
def Obligations.HostWriteEffects : Prop :=
  ∀ (s : State) (w : Word),
    s.hostWrite 0x004 4 w =
      { s with status := { s.status with
          done := if w.getLsbD 1 then false else s.status.done
          aerr := if w.getLsbD 16 then false else s.status.aerr } } ∧
    s.hostWrite 0x008 4 w = (if w.getLsbD 1 then s.resetEngine else { s with ie := w.getLsbD 0 }) ∧
    s.hostWrite 0x00C 4 w =
      (if s.status.busy then { s with status := { s.status with aerr := true } } else s.submit w) ∧
    (∀ (i : RReg) (j : Fin 8), s.hostWrite (Region.raw i j).off 4 w =
      if s.status.busy then { s with status := { s.status with aerr := true } }
      else { s with regs := { s.regs with raw := s.regs.raw.set i (setWordOf s.regs.raw[i] j w) } }) ∧
    ∀ off : BitVec 12, off.toNat % 4 = 0 → off ∉ [0x004, 0x008, 0x00C] → (∀ i j, off ≠ (Region.raw i j).off) →
      s.hostWrite off 4 w = { s with status := { s.status with aerr := true } }

/-- 20_memory.md R73: a write to word `j` of RAW[i] replaces exactly its 32 bits, word 0 being the most significant, and reading
word `k` back gives the word written or the old one; no other register changes. -/
def Obligations.RawWriteReplacesOneWord : Prop :=
  ∀ (s : State) (i : RReg) (j : Fin 8) (w : Word), s.status.busy = false →
    ∃ t, s.hostWrite (Region.raw i j).off 4 w = t ∧ t.status = s.status ∧ OnlyRaw s t i ∧
      (∀ b < 256, (t.regs.raw[i]).getLsbD b =
        if 224 - 32 * j.val ≤ b ∧ b ≤ 255 - 32 * j.val then w.getLsbD (b - (224 - 32 * j.val)) else (s.regs.raw[i]).getLsbD b) ∧
      ∀ k : Fin 8, (t.hostRead (Region.raw i k).off 4).readData =
        if k = j then w else (s.hostRead (Region.raw i k).off 4).readData

/-- An access of another width or alignment has the effect 20_memory.md R76 gives the engine: a write is ignored, a read gives 0,
AERR is set. That the model does not refuse it is its own choice (log 9). -/
def Obligations.NonWordAccess : Prop :=
  ∀ (s : State) (off : BitVec 12) (bytes : Nat) (w : Word), bytes ≠ 4 ∨ off.toNat % 4 ≠ 0 →
    s.hostWrite off bytes w = { s with status := { s.status with aerr := true } } ∧
    s.hostRead off bytes = { s with readData := 0, status := { s.status with aerr := true } }

/-- 10_state.md R42: the bits of STATUS; the codes of ERR are those of 60_exceptions.md R300. -/
def Obligations.StatusLayout : Prop :=
  ∀ (t : Status) (b : Nat), b < 32 →
    let code : Nat := match t.err with
      | none => 0
      | some .illegalOpcode => 1
      | some .reservedField => 2
      | some .badRegister => 3
    t.toWord.getLsbD b =
      if b = 0 then t.busy else if b = 1 then t.done else if b = 2 then t.ok else if b = 3 then t.cond
      else if b = 4 then t.ovf else if 8 ≤ b ∧ b ≤ 11 then code.testBit (b - 8) else if b = 16 then t.aerr
      else false

/-- 60_exceptions.md R310: `irq = STATUS.DONE AND CTRL.IE`, as the host reads them, and DONE rises only by the completion of a
command or the rejection of a word. -/
def Obligations.InterruptLine : Prop :=
  (∀ s : State, s.irq = ((s.hostRead 0x004 4).readData.getLsbD 1 && (s.hostRead 0x008 4).readData.getLsbD 0)) ∧
  ∀ s t : State, step s = .next t → s.status.done = false → t.status.done = true →
    (s.mover = .complete ∧ s.job.isSome = true ∧ t.job = none) ∨
    ∃ w e, s.access = some (.write 0x00C 4 w) ∧ s.status.busy = false ∧ decode w = .error e ∧ t.status.err = some e

/-- 20_memory.md R83: what host accesses can do. -/
def Obligations.HostAccessesAreTame : Prop :=
  ∀ (s : State) (op : HostOp),
    (s.job = none → (s.hostOp op).job ≠ none → ∃ w, op = .write 0x00C 4 w) ∧
    (∀ w, op = .write 0x004 4 w → s.hostOp op = { s with status := { s.status with
        done := if w.getLsbD 1 then false else s.status.done
        aerr := if w.getLsbD 16 then false else s.status.aerr } }) ∧
    (∀ w, op = .write 0x008 4 w → s.hostOp op = if w.getLsbD 1 then s.resetEngine else { s with ie := w.getLsbD 0 }) ∧
    ((s.hostOp op).regs ≠ s.regs →
      (∃ w, op = .write 0x00C 4 w) ∨ (∃ w, op = .write 0x008 4 w ∧ w.getLsbD 1 = true) ∨
      ∃ i j w, op = .write (Region.raw i j).off 4 w)

/-- 20_memory.md R89: no host access but a soft reset changes the command in flight: its word, its operands, its place. -/
def Obligations.CommandInFlightIsLatched : Prop :=
  ∀ (s : State) (op : HostOp), s.Coherent → s.job.isSome = true → (∀ w, op = .write 0x008 4 w → w.getLsbD 1 = false) →
    (s.hostOp op).job = s.job ∧ (s.hostOp op).cmd = s.cmd ∧ (s.hostOp op).regs = s.regs ∧ (s.hostOp op).status.busy = true

/-- 10_state.md R30, R52: no host access sees the hidden state: two engines that differ only in where the running command stands
answer every access alike. -/
def Obligations.HiddenStateIsUnseen : Prop :=
  ∀ (s : State) (j : Job) (q : Sequencer) (op : HostOp), s.Coherent → s.job = some j →
    let s' := { s with job := some { j with seq := q } }
    (s'.hostOp op).readData = (s.hostOp op).readData ∧ (s'.hostOp op).status = (s.hostOp op).status ∧
      (s'.hostOp op).regs = (s.hostOp op).regs ∧ (s'.hostOp op).hostQueue = (s.hostOp op).hostQueue

/-- 20_memory.md R86: after a STATUS read that returns BUSY = 0, or DONE = 1, no command is in flight, so a data register read by
the next access has its final value. -/
def Obligations.IdleStatusReadMeansDone : Prop :=
  ∀ s t : State, s.Coherent → s.hostOp (.read 0x004 4) = t → t.readData.getLsbD 0 = false ∨ t.readData.getLsbD 1 = true →
    t.job = none ∧ t.regs = s.regs ∧
      ∀ g : Region, ∀ w, t.regs.window g = some w → (t.hostOp (.read g.off 4)).readData = w

/-- 30_encoding.md R123: `WAIT` is over exactly when the STATUS read gives BUSY = 0, otherwise it is the host's next access again:
the model holds the loop as one entry of the host queue that goes back to its head (log 22, DEDUCED). The eight writes of
`LI Rk, imm` leave the integer in RAW[k] and change nothing else; `LIB` loads the big-endian integer of its 32 bytes
(20_memory.md R74). -/
def Obligations.HostPseudoInstructions : Prop :=
  (∀ s : State, s.hostOp .wait =
    { s with
      readData := s.status.toWord
      hostQueue := if s.status.busy then .wait :: s.hostQueue else s.hostQueue }) ∧
  ∀ (s : State) (k : RReg) (imm : Word256), s.status.busy = false →
    (HostStatement.li k imm).expand.foldl State.hostOp s =
      { s with regs := { s.regs with raw := s.regs.raw.set k imm } } ∧
    ∀ bytes, (HostStatement.lib k bytes).wellFormed = true → imm.toNat = intOf bytes →
      bytes32 imm = bytes ∧ (HostStatement.lib k bytes).expand = (HostStatement.li k imm).expand

/-! ### Reset -/

/-- 10_state.md R53, 70_reset_and_hazards.md R344: the control state after reset, as the host reads it. -/
def Obligations.ResetIsIdle : Prop :=
  (State.reset.hostRead 0x000 4).readData = Config.idValue ∧ (State.reset.hostRead 0x004 4).readData = 0 ∧
  (State.reset.hostRead 0x008 4).readData = 0 ∧ (State.reset.hostRead 0x00C 4).readData = 0 ∧
  State.reset.job = none ∧ State.reset.irq = false

/-- Both resets inside a run (70_reset_and_hazards.md R340, R341, R343): control state 0, the command in flight gone, nothing
outside the engine touched, the data registers within their ranges (R342). The reset input as one step is the model's choice
(log 21, DESIGN CHOICE), and so are the free register values behind `resetEngine` (log 8, DESIGN CHOICE). -/
def Obligations.BothResets : Prop :=
  ∀ s : State,
    (∀ w : Word, w.getLsbD 1 = true → s.hostWrite 0x008 4 w = s.resetEngine) ∧
    (∀ rest, s.turns = .rst :: rest → step s = .next (State.resetEngine { s with turns := rest })) ∧
    s.resetEngine.status = { busy := false, done := false, ok := false, cond := false, ovf := false, err := none, aerr := false } ∧
    (s.resetEngine.hostRead 0x000 4).readData = Config.idValue ∧ s.resetEngine.ie = false ∧ s.resetEngine.cmd = 0 ∧
    s.resetEngine.job = none ∧ s.resetEngine.irq = false ∧
    s.resetEngine.hostQueue = s.hostQueue ∧ s.resetEngine.turns = s.turns ∧ s.resetEngine.readData = s.readData ∧
    s.resetEngine.hmac = s.hmac ∧ s.resetEngine.regs.Legal

/-! ### Control -/

/-- 44_control.md R290: NOP. -/
def Obligations.NopResult : Prop :=
  CommandWord .nop 0x00 0 0 0 0 ∧ (∀ w, decode w = .ok .nop ↔ w = 0) ∧
  decode 0x01000000 = .error .reservedField ∧ decode 0x00000100 = .error .reservedField ∧
  (∀ s : State, ∃ t, exec .nop s = .next t ∧ t.regs = s.regs ∧ Completed s t true false false) ∧
  ∃ t, step (State.reset.withFetchWord 32 0) = .next t ∧ t.status.toWord = 0x00000006

/-! ### Field and scalar commands -/

/-- FE_NEW, SC_NEW and SC_FROMFE reduce an integer (40_field.md R142, 41_scalar.md R172, R180); FE_RET and SC_RET give it
(40_field.md R149, 41_scalar.md R179). -/
def Obligations.IntegerConversions : Prop :=
  ∀ s : State,
    (∀ (d : FReg) (a : RReg), CommandWord (.feNew d a) 0x10 d a 0 0 ∧
      ∃ t, exec (.feNew d a) s = .next t ∧ (t.regs.f[d]).toNat = (s.src.raw[a]).toNat % p ∧ OnlyF s t d ∧
        Completed s t true false false) ∧
    (∀ (d : SReg) (a : RReg), CommandWord (.scNew d a) 0x20 d a 0 0 ∧
      ∃ t, exec (.scNew d a) s = .next t ∧ (t.regs.s[d]).toNat = (s.src.raw[a]).toNat % n ∧ OnlyS s t d ∧
        Completed s t true false false) ∧
    (∀ (d : SReg) (a : FReg), CommandWord (.scFromfe d a) 0x28 d a 0 0 ∧
      ∃ t, exec (.scFromfe d a) s = .next t ∧ (t.regs.s[d]).toNat = (s.src.f[a]).toNat % n ∧ OnlyS s t d ∧
        Completed s t true false false) ∧
    (∀ (d : RReg) (a : FReg), CommandWord (.feRet d a) 0x17 d a 0 0 ∧
      ∃ t, exec (.feRet d a) s = .next t ∧ t.regs.raw[d] = s.src.f[a] ∧ OnlyRaw s t d ∧ Completed s t true false false) ∧
    ∀ (d : RReg) (a : SReg), CommandWord (.scRet d a) 0x27 d a 0 0 ∧
      ∃ t, exec (.scRet d a) s = .next t ∧ t.regs.raw[d] = s.src.s[a] ∧ OnlyRaw s t d ∧ Completed s t true false false

/-- 40_field.md R143 to R145: FE_ADD, FE_SUB and FE_MUL, sums, differences and products of integers modulo `p`. -/
def Obligations.FieldAddSubMul : Prop :=
  ∀ (s : State) (d a b : FReg),
    (CommandWord (.feAdd d a b) 0x11 d a b 0 ∧
      ∃ t, exec (.feAdd d a b) s = .next t ∧ (t.regs.f[d]).toNat = ((s.src.f[a]).toNat + (s.src.f[b]).toNat) % p ∧
        OnlyF s t d ∧ Completed s t true false false) ∧
    (CommandWord (.feSub d a b) 0x12 d a b 0 ∧
      ∃ t, exec (.feSub d a b) s = .next t ∧
        ((t.regs.f[d]).toNat : Int) = ((s.src.f[a]).toNat - (s.src.f[b]).toNat : Int) % p ∧
        OnlyF s t d ∧ Completed s t true false false) ∧
    CommandWord (.feMul d a b) 0x13 d a b 0 ∧
      ∃ t, exec (.feMul d a b) s = .next t ∧ (t.regs.f[d]).toNat = ((s.src.f[a]).toNat * (s.src.f[b]).toNat) % p ∧
        OnlyF s t d ∧ Completed s t true false false

/-- 41_scalar.md R173 to R175: SC_ADD, SC_SUB and SC_MUL, modulo `n`. -/
def Obligations.ScalarAddSubMul : Prop :=
  ∀ (s : State) (d a b : SReg),
    (CommandWord (.scAdd d a b) 0x21 d a b 0 ∧
      ∃ t, exec (.scAdd d a b) s = .next t ∧ (t.regs.s[d]).toNat = ((s.src.s[a]).toNat + (s.src.s[b]).toNat) % n ∧
        OnlyS s t d ∧ Completed s t true false false) ∧
    (CommandWord (.scSub d a b) 0x22 d a b 0 ∧
      ∃ t, exec (.scSub d a b) s = .next t ∧
        ((t.regs.s[d]).toNat : Int) = ((s.src.s[a]).toNat - (s.src.s[b]).toNat : Int) % n ∧
        OnlyS s t d ∧ Completed s t true false false) ∧
    CommandWord (.scMul d a b) 0x23 d a b 0 ∧
      ∃ t, exec (.scMul d a b) s = .next t ∧ (t.regs.s[d]).toNat = ((s.src.s[a]).toNat * (s.src.s[b]).toNat) % n ∧
        OnlyS s t d ∧ Completed s t true false false

/-- 40_field.md R146, 41_scalar.md R176: FE_POW and SC_POW, the exponent a 256-bit integer, `0 ^ 0 = 1`. -/
def Obligations.Powers : Prop :=
  ∀ s : State,
    (∀ (d a : FReg) (b : RReg), CommandWord (.fePow d a b) 0x14 d a b 0 ∧
      ∃ t, exec (.fePow d a b) s = .next t ∧ (t.regs.f[d]).toNat = (s.src.f[a]).toNat ^ (s.src.raw[b]).toNat % p ∧
        OnlyF s t d ∧ Completed s t true false false) ∧
    ∀ (d a : SReg) (b : RReg), CommandWord (.scPow d a b) 0x24 d a b 0 ∧
      ∃ t, exec (.scPow d a b) s = .next t ∧ (t.regs.s[d]).toNat = (s.src.s[a]).toNat ^ (s.src.raw[b]).toNat % n ∧
        OnlyS s t d ∧ Completed s t true false false

/-- 40_field.md R147, 41_scalar.md R177: FE_INV of a field element and SC_INV of a scalar: `None` at 0, else the inverse. -/
def Obligations.Inverses : Prop :=
  ∀ s : State,
    (∀ d a : FReg, (s.src.f[a]).toNat < p →
      CommandWord (.feInv d a) 0x15 d a 0 0 ∧
      ∃ t, exec (.feInv d a) s = .next t ∧
        ((s.src.f[a]).toNat = 0 → t.regs = s.regs ∧ Completed s t false false false) ∧
        ((s.src.f[a]).toNat ≠ 0 → (t.regs.f[d]).toNat < p ∧ (s.src.f[a]).toNat * (t.regs.f[d]).toNat % p = 1 ∧
          OnlyF s t d ∧ Completed s t true false false)) ∧
    ∀ d a : SReg, (s.src.s[a]).toNat < n →
      CommandWord (.scInv d a) 0x25 d a 0 0 ∧
      ∃ t, exec (.scInv d a) s = .next t ∧
        ((s.src.s[a]).toNat = 0 → t.regs = s.regs ∧ Completed s t false false false) ∧
        ((s.src.s[a]).toNat ≠ 0 → (t.regs.s[d]).toNat < n ∧ (s.src.s[a]).toNat * (t.regs.s[d]).toNat % n = 1 ∧
          OnlyS s t d ∧ Completed s t true false false)

/-- 40_field.md R150: the inverse in `[0, p)` is unique, and FE_INV and FE_POW with the exponent `p - 2` agree on it. -/
def Obligations.InversionMethodsAgree : Prop :=
  ∀ x y : Nat, 0 < x → x < p →
    (y < p → x * y % p = 1 → invP x = some y ∧ x ^ (p - 2) % p = y) ∧
    ∀ (s : State) (a d d' : FReg) (b : RReg), (s.src.f[a]).toNat = x → (s.src.raw[b]).toNat = p - 2 →
      ∃ t t', exec (.feInv d a) s = .next t ∧ exec (.fePow d' a b) s = .next t' ∧ t.regs.f[d] = t'.regs.f[d']

/-- 40_field.md R148, 41_scalar.md R178, 42_point.md R213: FE_EQ, SC_EQ and PT_ISINF write COND and no register. -/
def Obligations.BooleanTests : Prop :=
  ∀ s : State,
    (∀ a b : FReg, CommandWord (.feEq a b) 0x16 0 a b 0 ∧
      ∃ t, exec (.feEq a b) s = .next t ∧ t.regs = s.regs ∧ Completed s t true (decide (s.src.f[a] = s.src.f[b])) false) ∧
    (∀ a b : SReg, CommandWord (.scEq a b) 0x26 0 a b 0 ∧
      ∃ t, exec (.scEq a b) s = .next t ∧ t.regs = s.regs ∧ Completed s t true (decide (s.src.s[a] = s.src.s[b])) false) ∧
    ∀ a : PReg, CommandWord (.ptIsinf a) 0x38 0 a 0 0 ∧
      ∃ t, exec (.ptIsinf a) s = .next t ∧ t.regs = s.regs ∧ Completed s t true (s.src.p[a]).inf false

/-! ### Point commands -/

/-- 42_point.md R204, R205 and R203: PT_SETINF and PT_LOAD, the three fields of the register. -/
def Obligations.PointConstructors : Prop :=
  ∀ (s : State) (d : PReg),
    (CommandWord (.ptSetinf d) 0x30 d 0 0 0 ∧
      ∃ t, exec (.ptSetinf d) s = .next t ∧ t.regs.p[d] = { inf := true, x := 0, y := 0 } ∧ OnlyP s t d ∧
        Completed s t true false false) ∧
    ∀ a b : FReg, CommandWord (.ptLoad d a b) 0x31 d a b 0 ∧
      ∃ t, exec (.ptLoad d a b) s = .next t ∧ t.regs.p[d] = { inf := false, x := s.src.f[a], y := s.src.f[b] } ∧
        OnlyP s t d ∧ Completed s t true false false

/-- 42_point.md R207 and R208: PT_ADD by the equations of R200's cases, on any legal points, on the curve or not (R202), and
PT_DBL, the sum of the point with itself: the identity and a point with `y = 0` give the identity (R201). -/
def Obligations.PointSums : Prop :=
  ∀ (s : State) (d a : PReg), (s.src.p[a]).Legal →
    (∀ b : PReg, (s.src.p[b]).Legal →
      CommandWord (.ptAdd d a b) 0x32 d a b 0 ∧
      ∃ t, exec (.ptAdd d a b) s = .next t ∧ PointSum (s.src.pAt a) (s.src.pAt b) (t.regs.pAt d) ∧ (t.regs.p[d]).Legal ∧
        OnlyP s t d ∧ Completed s t true false false) ∧
    CommandWord (.ptDbl d a) 0x33 d a 0 0 ∧
    ∃ t, exec (.ptDbl d a) s = .next t ∧ PointSum (s.src.pAt a) (s.src.pAt a) (t.regs.pAt d) ∧ (t.regs.p[d]).Legal ∧
      (s.src.pAt a = .inf ∨ (∃ x, s.src.pAt a = .aff x 0) → t.regs.pAt d = .inf) ∧
      OnlyP s t d ∧ Completed s t true false false

/-- 42_point.md R206: `pt_smul` is double-and-add across all 256 bits, least significant first. -/
def Obligations.SmulIsDoubleAndAdd : Prop :=
  ∀ (q : Point) (k : Nat),
    ptSmul q k =
      ((List.range 256).foldl (fun (st : Point × Point) i =>
        (if k.testBit i then ptAdd st.1 st.2 else st.1, ptAdd st.2 st.2)) (.inf, q)).1

/-- 42_point.md R209, R210, 43_ecdsa.md R251: PT_MUL, PT_MULG and EC_PUBKEY in flight complete with `pt_smul`, wherever their loop
stands; the multiplier is the integer, not reduced. -/
def Obligations.Multiplications : Prop :=
  ∀ s : State, s.Inv →
    (∀ (d a : PReg) (b : RReg), s.Running (.ptMul d a b) →
      CommandWord (.ptMul d a b) 0x34 d a b 0 ∧
      ∃ t, exec (.ptMul d a b) s = .next t ∧ t.regs.pAt d = ptSmul (s.src.pAt a) (s.src.raw[b]).toNat ∧
        (t.regs.p[d]).Legal ∧ OnlyP s t d ∧ Completed s t true false false) ∧
    (∀ (d : PReg) (a : RReg), s.Running (.ptMulg d a) →
      CommandWord (.ptMulg d a) 0x35 d a 0 0 ∧
      ∃ t, exec (.ptMulg d a) s = .next t ∧ t.regs.pAt d = ptSmul (.aff Config.gx Config.gy) (s.src.raw[a]).toNat ∧
        (t.regs.p[d]).Legal ∧ OnlyP s t d ∧ Completed s t true false false) ∧
    ∀ (d : PReg) (a : SReg), s.Running (.ecPubkey d a) →
      CommandWord (.ecPubkey d a) 0x44 d a 0 0 ∧
      ∃ t, exec (.ecPubkey d a) s = .next t ∧ t.regs.pAt d = ptSmul (.aff Config.gx Config.gy) (s.src.s[a]).toNat ∧
        (t.regs.p[d]).Legal ∧ OnlyP s t d ∧ Completed s t true false false

/-- 42_point.md R211, R212: PT_GETX and PT_GETY: `None` at the identity, else the coordinate. -/
def Obligations.Coordinates : Prop :=
  ∀ (s : State) (d : FReg) (a : PReg),
    (CommandWord (.ptGetx d a) 0x36 d a 0 0 ∧
      ∃ t, exec (.ptGetx d a) s = .next t ∧
        ((s.src.p[a]).inf = true → t.regs = s.regs ∧ Completed s t false false false) ∧
        ((s.src.p[a]).inf = false → t.regs.f[d] = (s.src.p[a]).x ∧ OnlyF s t d ∧ Completed s t true false false)) ∧
    CommandWord (.ptGety d a) 0x37 d a 0 0 ∧
      ∃ t, exec (.ptGety d a) s = .next t ∧
        ((s.src.p[a]).inf = true → t.regs = s.regs ∧ Completed s t false false false) ∧
        ((s.src.p[a]).inf = false → t.regs.f[d] = (s.src.p[a]).y ∧ OnlyF s t d ∧ Completed s t true false false)

/-! ### Nonce, signing, verification -/

/-- 43_ecdsa.md R243, R244: EC_GENK in flight whose next candidate is in `(0, n)` completes with it, and it is `generate_k` of the
private key and the digest. That a completing step draws one candidate, and one outside leaves the command in flight with every
register as it was, is the model's cut of the loop into steps (log 5, DEDUCED). -/
def Obligations.NonceDerivation : Prop :=
  ∀ (s : State) (d a : SReg) (b : RReg) (g : Generator), s.Inv → s.Running (.ecGenk d a b) → s.seq = .gen g →
    CommandWord (.ecGenk d a b) 0x40 d a b 0 ∧
    (0 < (g.candidate s.hmac).toNat ∧ (g.candidate s.hmac).toNat < n →
      ∃ t, exec (.ecGenk d a b) s = .next t ∧ t.regs.s[d] = g.candidate s.hmac ∧
        (∃ fuel, generateK s.hmac fuel s.src.s[a] (s.src.raw[b]).toNat = some t.regs.s[d]) ∧
        OnlyS s t d ∧ Completed s t true false false) ∧
    (¬(0 < (g.candidate s.hmac).toNat ∧ (g.candidate s.hmac).toNat < n) →
      ∃ t, exec (.ecGenk d a b) s = .next t ∧ t.regs = s.regs ∧ t.status = s.status ∧
        t.seq = .gen (g.afterReject s.hmac) ∧ t.src = s.src ∧ t.Running (.ecGenk d a b))

/-- 43_ecdsa.md R242, R243: the seed and the loop of RFC 6979, written out over any HMAC: `generate_k` is the loop from the seed,
and for a generator anywhere in the loop the candidate, what the loop gives, and K and V after a rejection. The loop is under
fuel: the number of candidates it may draw (70_reset_and_hazards.md R353). -/
def Obligations.Rfc6979Steps : Prop :=
  ∀ (hm : HmacKind) (x : Word256) (b : Nat),
    let mac := hm.run
    let X := bytes32 x
    let H1 := bytes32 (.ofNat 256 (b % n))
    let v0 : Word256 := .ofNat 256 (intOf (List.replicate 32 0x01))
    let k1 := mac 0 (bytes32 v0 ++ [0x00] ++ X ++ H1)
    let v1 := mac k1 (bytes32 v0)
    let k2 := mac k1 (bytes32 v1 ++ [0x01] ++ X ++ H1)
    let v2 := mac k2 (bytes32 v1)
    seedGenerator hm x b = { k := k2, v := v2 } ∧
    (∀ fuel, generateK hm fuel x b = candidateLoop hm fuel { k := k2, v := v2 }) ∧
    (∀ g : Generator,
      let t := mac g.k (bytes32 g.v)
      let k' := mac g.k (bytes32 t ++ [0x00])
      let next : Generator := { k := k', v := mac k' (bytes32 t) }
      g.candidate hm = t ∧ g.afterReject hm = next ∧ candidateLoop hm 0 g = none ∧
      ∀ fuel,
        (0 < t.toNat ∧ t.toNat < n → candidateLoop hm (fuel + 1) g = some t) ∧
        (¬(0 < t.toNat ∧ t.toNat < n) → candidateLoop hm (fuel + 1) g = candidateLoop hm fuel next)) ∧
    ∀ fuel k, generateK hm fuel x b = some k → 0 < k.toNat ∧ k.toNat < n

/-- 43_ecdsa.md R242, 70_reset_and_hazards.md R353: EC_GENK submitted to an idle engine and left alone completes with `k` within
`fuel` steps if the candidate loop gives `k` within `fuel` candidates, and stays in flight for ever if the loop never ends.
It speaks of the default order alone, no turns scheduled, which is the model's choice (log 1, DESIGN CHOICE); that one completing
step draws one candidate is log 5 (DEDUCED). -/
def Obligations.NonceLoopRuns : Prop :=
  ∀ (s : State) (d a : SReg) (b : RReg), s.job = none → s.status.busy = false → s.turns = [] →
    (∀ fuel k, generateK s.hmac fuel s.regs.s[a] (s.regs.raw[b]).toNat = some k →
      ∃ m t, m ≤ fuel ∧ (s.submit (encode (.ecGenk d a b))).after m = some t ∧ t.regs.s[d] = k ∧ OnlyS s t d ∧ t.job = none ∧
        t.status = { busy := false, done := true, ok := true, cond := false, ovf := false, err := none, aerr := s.status.aerr }) ∧
    ((∀ fuel, generateK s.hmac fuel s.regs.s[a] (s.regs.raw[b]).toNat = none) →
      ∀ m, ∃ t, (s.submit (encode (.ecGenk d a b))).after m = some t ∧ t.status.busy = true ∧ t.status.done = false ∧
        t.regs = s.regs)

/-- 43_ecdsa.md R246: EC_SIGN in flight: the result by the equations of R245 and R253; on `None` nothing is written and OK = 0. -/
def Obligations.SigningWithNonce : Prop :=
  ∀ (s : State) (a b c : SReg), s.Inv → s.Running (.ecSign a b c) →
    CommandWord (.ecSign a b c) 0x41 0 a b c ∧
    ∃ t res, exec (.ecSign a b c) s = .next t ∧
      SignatureOf (s.src.s[a]).toNat (s.src.s[b]).toNat (s.src.s[c]).toNat (ptSmul generator (s.src.s[c]).toNat) res ∧
      (res = none → t.regs = s.regs ∧ Completed s t false false false) ∧
      ∀ g, res = some g → t.regs.sig = g ∧ OnlySig s t ∧ Completed s t true false false

/-- 43_ecdsa.md R247, R248: EC_SIGNH in flight whose generator has given the nonce `k`, or gives it next, signs the digest reduced
modulo `n` with it, with no retry on `None`. That a completing step draws one candidate, and a rejected one leaves the command in
flight, is the model's cut of the loop into steps (log 5, DEDUCED). -/
def Obligations.SigningADigest : Prop :=
  ∀ (s : State) (a : SReg) (b : RReg), s.Inv → s.Running (.ecSignh a b) →
    CommandWord (.ecSignh a b) 0x42 0 a b 0 ∧
    ((∀ g, s.seq = .gen g → 0 < (g.candidate s.hmac).toNat ∧ (g.candidate s.hmac).toNat < n) →
      ∃ t res k fuel, exec (.ecSignh a b) s = .next t ∧
        generateK s.hmac fuel s.src.s[a] (s.src.raw[b]).toNat = some k ∧
        SignatureOf (s.src.s[a]).toNat ((s.src.raw[b]).toNat % n) k.toNat (ptSmul generator k.toNat) res ∧
        (res = none → t.regs = s.regs ∧ Completed s t false false false) ∧
        ∀ g, res = some g → t.regs.sig = g ∧ OnlySig s t ∧ Completed s t true false false) ∧
    ∀ g, s.seq = .gen g → ¬(0 < (g.candidate s.hmac).toNat ∧ (g.candidate s.hmac).toNat < n) →
      ∃ t, exec (.ecSignh a b) s = .next t ∧ t.regs = s.regs ∧ t.status = s.status ∧
        t.seq = .gen (g.afterReject s.hmac) ∧ t.src = s.src ∧ t.Running (.ecSignh a b)

/-- 43_ecdsa.md R250: EC_VERIFY in flight: COND by the equations of R249, OK = 1 whatever it is, no register written. -/
def Obligations.Verification : Prop :=
  ∀ (s : State) (a : PReg) (b : SReg), s.Inv → s.Running (.ecVerify a b) →
    CommandWord (.ecVerify a b) 0x43 0 a b 0 ∧
    ∃ t c, exec (.ecVerify a b) s = .next t ∧ t.regs = s.regs ∧ Completed s t true c false ∧
      (c = true ↔ Verifies (s.src.pAt a) (s.src.s[b]).toNat s.src.sig)

/-- 43_ecdsa.md R254, R255 with R253, R256 with R252: SIG_LOAD, SIG_NORM and SIG_VALID. -/
def Obligations.SignatureOperations : Prop :=
  ∀ s : State,
    (∀ (a b : SReg) (c : RReg), CommandWord (.sigLoad a b c) 0x48 0 a b c ∧
      ∃ t, exec (.sigLoad a b c) s = .next t ∧ t.regs.sig.r = s.src.s[a] ∧ t.regs.sig.s = s.src.s[b] ∧
        t.regs.sig.v.toNat = (s.src.raw[c]).toNat % 256 ∧ OnlySig s t ∧ Completed s t true false false) ∧
    (CommandWord .sigNorm 0x49 0 0 0 0 ∧ (s.src.sig.s.toNat < n →
      ∃ t, exec .sigNorm s = .next t ∧ t.regs.sig.r = s.src.sig.r ∧
        (s.src.sig.s.toNat ≤ n / 2 → t.regs.sig = s.src.sig) ∧
        (n / 2 < s.src.sig.s.toNat → t.regs.sig.s.toNat = n - s.src.sig.s.toNat ∧ t.regs.sig.v = s.src.sig.v ^^^ 0x01) ∧
        OnlySig s t ∧ Completed s t true false false)) ∧
    CommandWord .sigValid 0x4A 0 0 0 0 ∧
      ∃ t, exec .sigValid s = .next t ∧ t.regs = s.regs ∧
        Completed s t true (decide (0 < s.src.sig.r.toNat ∧ s.src.sig.r.toNat < n ∧ 0 < s.src.sig.s.toNat ∧ s.src.sig.s.toNat < n))
          false

/-- 43_ecdsa.md R257, R258: SIG_VLEG and SIG_V155: VOUT modulo the result's width, OVF when it wraps. -/
def Obligations.RecoveryValues : Prop :=
  ∀ s : State,
    (CommandWord .sigVleg 0x4B 0 0 0 0 ∧
      ∃ t, exec .sigVleg s = .next t ∧ t.regs.vout.toNat = (27 + s.src.sig.v.toNat) % 2 ^ 8 ∧ OnlyVout s t ∧
        Completed s t true false (decide (27 + s.src.sig.v.toNat > 255))) ∧
    ∀ a : RReg, CommandWord (.sigV155 a) 0x4C 0 a 0 0 ∧
      ∃ t, exec (.sigV155 a) s = .next t ∧
        t.regs.vout.toNat = (35 + 2 * ((s.src.raw[a]).toNat % 2 ^ 64) + s.src.sig.v.toNat) % 2 ^ 64 ∧ OnlyVout s t ∧
        Completed s t true false (decide (35 + 2 * ((s.src.raw[a]).toNat % 2 ^ 64) + s.src.sig.v.toNat ≥ 2 ^ 64))

/-- 43_ecdsa.md R259: what SIG holds after EC_SIGN or EC_SIGNH completes with OK = 1. -/
def Obligations.SignedIsLowS : Prop :=
  ∀ (s t : State) (i : Instr), s.Inv → s.Running i → ((∃ a b c, i = .ecSign a b c) ∨ ∃ a b, i = .ecSignh a b) →
    exec i s = .next t → t.status.ok = true →
    0 < t.regs.sig.r.toNat ∧ t.regs.sig.r.toNat < n ∧ 0 < t.regs.sig.s.toNat ∧ t.regs.sig.s.toNat ≤ n / 2 ∧
      (t.regs.sig.v = 0 ∨ t.regs.sig.v = 1)

/-- A signature made by EC_SIGN with a nonzero private key verifies under its public key `pt_smul(G, x)`
(43_ecdsa.md R245 to R250). -/
def Obligations.SignThenVerify : Prop :=
  ∀ (s t : State) (a b c : SReg), s.Inv → s.Running (.ecSign a b c) → 0 < (s.src.s[a]).toNat →
    exec (.ecSign a b c) s = .next t → t.status.ok = true →
    ∀ (u : State) (q : PReg) (e : SReg), u.Inv → u.Running (.ecVerify q e) → u.src.sig = t.regs.sig →
      u.src.s[e] = s.src.s[b] → u.src.pAt q = ptSmul generator (s.src.s[a]).toNat →
      ∃ w, exec (.ecVerify q e) u = .next w ∧ w.status.cond = true

/-! ### The group -/

/-- 42_point.md R206: on the curve `pt_smul` is repeated addition, so multipliers add; `k` is any 256-bit integer. -/
def Obligations.SmulIsRepeatedAddition : Prop :=
  ∀ (q : Point) (j k : Nat), q.Legal → q.onCurve = true → j + k < 2 ^ 256 →
    ptSmul q 0 = .inf ∧ ptSmul q 1 = q ∧ ptSmul q (j + k) = ptAdd (ptSmul q j) (ptSmul q k)

/-- 42_point.md R206: `n·G = INF`, and `pt_smul(G, k) = pt_smul(G, k mod n)` for every 256-bit `k`; no smaller multiple is the
identity. -/
def Obligations.GeneratorHasOrderN : Prop :=
  ptSmul generator n = .inf ∧
  ∀ k, k < 2 ^ 256 → ptSmul generator k = ptSmul generator (k % n) ∧ (ptSmul generator k = .inf ↔ n ∣ k)

/-- 42_point.md R215: the group properties, for every on-curve point. -/
def Obligations.GroupProperties : Prop :=
  (∀ q : Point, q.Legal → q.onCurve = true →
    ptDbl q = ptAdd q q ∧ ptAdd q .inf = q ∧
    ptAdd q (match q with | .inf => .inf | .aff x y => .aff x (subP 0 y)) = .inf) ∧
  ptSmul generator 1 = generator ∧
  ptSmul generator 2 = .aff 0xC6047F9441ED7D6D3045406E95C07CD85C778E4B8CEF3CA7ABAC09B95C709EE5
    0x1AE168FEA63DC339A3C58419466CEAEEF7F632653266D0E1236431A950CFE52A

/-- 42_point.md R201: no affine point of the curve has `y = 0`, so doubling an on-curve affine point never gives the identity. -/
def Obligations.NoPointOfOrderTwo : Prop :=
  ∀ x y : Nat, x < p → y < p → (Point.aff x y).onCurve = true → y ≠ 0 ∧ ptDbl (.aff x y) ≠ .inf

/-- 42_point.md R202: every command but PT_LOAD keeps the points of the P file on the curve. -/
def Obligations.CommandsKeepTheCurve : Prop :=
  ∀ (s t : State) (i : Instr), s.Inv → s.Running i → s.regs.OnCurve → (∀ d a b, i ≠ .ptLoad d a b) →
    exec i s = .next t → t.regs.OnCurve

/-! ### The whole machine -/

/-- The invariant holds right after reset: every register in its range, no command in flight. -/
def Obligations.ResetInv : Prop := State.reset.Inv

/-- Every step keeps the invariant: register ranges (10_state.md R33 to R36), BUSY exactly while a command is in flight, the
hidden state that of the accepted word, and the result flags clear until completion. -/
def Obligations.StepKeepsInv : Prop := ∀ s t : State, s.Inv → step s = .next t → t.Inv

/-- From a state that meets the invariant no step stops: the engine has no traps (60_exceptions.md R307, R312). -/
def Obligations.NoStepStops : Prop := ∀ s : State, s.Inv → ∃ t, step s = .next t

/-- 10_state.md R39: a command changes no data register but its destination; on OK = 0 none at all (60_exceptions.md R303). -/
def Obligations.CommandsWriteTheirDestination : Prop :=
  ∀ (s t : State) (i : Instr), exec i s = .next t →
    (∀ x : DataReg, writes i ≠ some x → SameAt t.regs s.regs x) ∧ (t.job = none → t.status.ok = false → t.regs = s.regs)

/-- 10_state.md R45 to R47: which completions can have OK = 0, COND = 1 or OVF = 1. -/
def Obligations.FlagsOfCompletion : Prop :=
  ∀ (s t : State) (i : Instr), exec i s = .next t → t.job = none →
    t.status.busy = false ∧ t.status.done = true ∧ t.status.err = s.status.err ∧ t.status.aerr = s.status.aerr ∧
    (t.status.ok = false → (∃ d a, i = .feInv d a) ∨ (∃ d a, i = .scInv d a) ∨ (∃ d a, i = .ptGetx d a) ∨
      (∃ d a, i = .ptGety d a) ∨ (∃ a b c, i = .ecSign a b c) ∨ ∃ a b, i = .ecSignh a b) ∧
    (t.status.cond = true → (∃ a b, i = .feEq a b) ∨ (∃ a b, i = .scEq a b) ∨ (∃ a, i = .ptIsinf a) ∨
      (∃ a b, i = .ecVerify a b) ∨ i = .sigValid) ∧
    (t.status.ovf = true → i = .sigVleg ∨ ∃ a, i = .sigV155 a)

/-- 70_reset_and_hazards.md R353: every command but EC_GENK and EC_SIGNH completes, from every state. -/
def Obligations.CommandsTerminate : Prop :=
  ∀ (s : State) (i : Instr), (∀ d a b, i ≠ .ecGenk d a b) → (∀ a b, i ≠ .ecSignh a b) →
    ∃ t, exec i s = .next t ∧ t.job = none ∧ t.status.busy = false ∧ t.status.done = true

/-- 70_reset_and_hazards.md R352: what a completing command writes is a function of the command word and of its sources in the
snapshot: two engines in any states, with the same HMAC, that agree on these agree on the result. -/
def Obligations.ResultsAreDetermined : Prop :=
  ∀ (s s' t t' : State) (i : Instr), s.Coherent → s'.Coherent → s.Running i → s'.Running i → s.hmac = s'.hmac →
    (∀ x ∈ reads i, SameAt s.src s'.src x) →
    exec i s = .next t → exec i s' = .next t' → t.job = none → t'.job = none →
    t.status.ok = t'.status.ok ∧ t.status.cond = t'.status.cond ∧ t.status.ovf = t'.status.ovf ∧
      (t.status.ok = true → ∀ x, writes i = some x → SameAt t.regs t'.regs x)

/-- A step changes a data register only if it completes a command, resets the engine, or is a RAW write to an idle engine
(20_memory.md R83, 60_exceptions.md R305, 70_reset_and_hazards.md R351). -/
def Obligations.DataChangesOnlyThus : Prop :=
  ∀ s t : State, s.Coherent → step s = .next t → t.regs ≠ s.regs →
    (s.mover = .complete ∧ s.job.isSome = true ∧ t.job = none ∧ t.status.done = true) ∨ s.mover = .rst ∨
    (∃ w, s.access = some (.write 0x008 4 w) ∧ w.getLsbD 1 = true) ∨
    ∃ i j w, s.access = some (.write (Region.raw i j).off 4 w) ∧ s.job = none

/-- 70_reset_and_hazards.md R355 with 20_memory.md R86: when a run is over no access is pending and no command is in flight, each
data register reads as its value, and no later step that is not a reset changes the observation. Runs and `runOver` are the
model's (logs 1, 26). -/
def Obligations.EndOfRun : Prop :=
  ∀ (s : State) (m : Nat), s.Coherent → s.runOver m = true →
    ∃ t, s.after m = some t ∧ t.hostQueue = [] ∧ t.job = none ∧ t.status.busy = false ∧
      (∀ g w, t.regs.window g = some w → t.observation g.off = w) ∧
      (.rst ∉ t.turns → ∀ k, ∃ u, t.after k = some u ∧ ∀ off, u.observation off = t.observation off)

end Slice0Obligations
end

