-- ==== Sys2Proof/Laws/Arith.lean ====
section
/-! SUPPORT. The modular primitives: ranges, the power they compute, and integer residues (40_field.md R140, 41_scalar.md R170). -/

set_option Elab.async false

namespace Sys2Proof.Machine

@[simp] theorem forced_eq {α : Type} (x : Nat) (f : Nat → α) : forced x f = f x := by
  cases x <;> rfl

theorem p_pos : 0 < Config.p := by decide
theorem n_pos : 0 < Config.n := by decide
theorem n_lt_p : Config.n < Config.p := by decide
theorem p_lt : Config.p < 2 ^ 256 := by decide
theorem n_lt : Config.n < 2 ^ 256 := by decide
/-- 00_scope.md R9. -/
theorem p_eq : Config.p = 2 ^ 256 - 2 ^ 32 - 977 := by decide
/-- 43_ecdsa.md R253. -/
theorem halfN_eq : Config.halfN = Config.n / 2 := by decide

theorem addMod_lt {m : Nat} (hm : 0 < m) (x y : Nat) : addMod m x y < m := Nat.mod_lt _ hm
theorem subMod_lt {m : Nat} (hm : 0 < m) (x y : Nat) : subMod m x y < m := Nat.mod_lt _ hm
theorem mulMod_lt {m : Nat} (hm : 0 < m) (x y : Nat) : mulMod m x y < m := Nat.mod_lt _ hm

/-- `subMod` is the least non-negative residue of the integer difference (00_scope.md R17). -/
theorem subMod_eq_emod {m : Nat} (hm : 0 < m) (x y : Nat) : ((subMod m x y : Nat) : Int) = ((x : Int) - y) % m := by
  have h : y % m ≤ m := (Nat.mod_lt y hm).le
  unfold subMod
  push_cast [Nat.cast_sub h]
  rw [show (x : Int) + (m - y % m) = (x - y % m) + m by ring, Int.add_emod_right, Int.sub_emod, Int.emod_emod_of_dvd _ (dvd_refl _), ← Int.sub_emod]

theorem powModAux_eq (m x : Nat) : ∀ (fuel e : Nat), e < 2 ^ fuel → powModAux m x fuel e = x ^ e % m
  | 0, e, h => by
    obtain rfl : e = 0 := by simpa using h
    simp [powModAux]
  | fuel + 1, e, h => by
    have ih := powModAux_eq m x fuel (e / 2) (by rw [Nat.div_lt_iff_lt_mul two_pos]; simpa [pow_succ] using h)
    have hsq : mulMod m (x ^ (e / 2) % m) (x ^ (e / 2) % m) = x ^ (2 * (e / 2)) % m := by
      rw [mulMod, ← Nat.mul_mod, ← pow_add, two_mul]
    rw [powModAux, forced_eq, ih]
    rcases Nat.mod_two_eq_zero_or_one e with h0 | h1
    · have he : 2 * (e / 2) = e := by omega
      simp only [h0, hsq, he]
    · have he : 2 * (e / 2) + 1 = e := by omega
      simp only [h1, hsq]
      rw [mulMod, Nat.mod_mul_mod, ← pow_succ, he]

/-- The square-and-multiply computes the power, for every 256-bit exponent (40_field.md R140). -/
theorem powMod_eq (m x e : Nat) (h : e < 2 ^ 256) : powMod m x e = x ^ e % m := powModAux_eq m x 256 e h

theorem powMod_lt {m : Nat} (hm : 0 < m) (x e : Nat) (h : e < 2 ^ 256) : powMod m x e < m := by
  rw [powMod_eq m x e h]; exact Nat.mod_lt _ hm

theorem invMod_zero (m : Nat) : invMod m 0 = none := rfl

theorem invMod_of_ne_zero (m x : Nat) (h : x ≠ 0) : invMod m x = some (powMod m x (m - 2)) := by
  simp [invMod, h]

end Sys2Proof.Machine
end

