-- ==== Sys2Proof/Laws/Bits.lean ====
section
/-! SUPPORT. The words of a 256-bit register (20_memory.md R73), and register files as vectors. -/

set_option Elab.async false

namespace Sys2Proof.Machine

/-! ### Words -/

theorem getLsbD_mask (k b : Nat) :
    ((0xFFFFFFFF : Word256) <<< k).getLsbD b = (decide (b < 256) && decide (k ≤ b) && decide (b < k + 32)) := by
  rw [BitVec.getLsbD_shiftLeft, show (0xFFFFFFFF : Word256) = (BitVec.allOnes 32).setWidth 256 by decide,
    BitVec.getLsbD_setWidth, BitVec.getLsbD_allOnes]
  by_cases h : k ≤ b
  · simp only [h, decide_true, Bool.and_true, not_lt.2 h, decide_false, Bool.not_false]
    by_cases h2 : b < 256
    · have h3 : b - k < 256 := by omega
      rw [show decide (b - k < 32) = decide (b < k + 32) by rw [decide_eq_decide]; omega]
      simp [h2, h3]
    · simp [h2]
  · simp [h]

/-- Bit `b` after word `j` is replaced (20_memory.md R73). -/
theorem getLsbD_setWordOf (x : Word256) (j : Fin 8) (w : Word) (b : Nat) :
    (setWordOf x j w).getLsbD b =
      if 32 * (7 - j.val) ≤ b ∧ b < 32 * (7 - j.val) + 32 then w.getLsbD (b - 32 * (7 - j.val)) else x.getLsbD b := by
  have hj : 32 * (7 - j.val) + 32 ≤ 256 := by omega
  unfold setWordOf
  rw [BitVec.getLsbD_or, BitVec.getLsbD_and, BitVec.getLsbD_not, getLsbD_mask, BitVec.getLsbD_shiftLeft, BitVec.getLsbD_setWidth]
  split_ifs with h
  · have h2 : b < 256 := by omega
    have h3 : b - 32 * (7 - j.val) < 256 := by omega
    simp [h2, h3, h.1, h.2]
  · by_cases h2 : b < 256
    · by_cases h3 : 32 * (7 - j.val) ≤ b
      · have h4 : 32 * (7 - j.val) + 32 ≤ b := by omega
        simp [h2, h3, not_lt.2 h4, BitVec.getLsbD_of_ge w (b - 32 * (7 - j.val)) (by omega)]
      · simp [h2, h3, not_le.1 h3]
    · simp [h2, BitVec.getLsbD_of_ge x b (by omega)]

theorem getLsbD_wordOf (x : Word256) (j : Fin 8) (b : Nat) :
    (wordOf x j).getLsbD b = (decide (b < 32) && x.getLsbD (32 * (7 - j.val) + b)) := by
  simp [wordOf]

@[simp] theorem wordOf_setWordOf_self (x : Word256) (j : Fin 8) (w : Word) : wordOf (setWordOf x j w) j = w := by
  apply BitVec.eq_of_getLsbD_eq
  intro b hb
  rw [getLsbD_wordOf, getLsbD_setWordOf, if_pos (by omega)]
  simp [hb]

theorem wordOf_setWordOf_of_ne (x : Word256) {i j : Fin 8} (h : i ≠ j) (w : Word) :
    wordOf (setWordOf x j w) i = wordOf x i := by
  apply BitVec.eq_of_getLsbD_eq
  intro b hb
  rw [getLsbD_wordOf, getLsbD_setWordOf, getLsbD_wordOf, if_neg (by omega)]

/-- A 256-bit value is its eight words. -/
theorem word256_ext {x y : Word256} (h : ∀ j : Fin 8, wordOf x j = wordOf y j) : x = y := by
  apply BitVec.eq_of_getLsbD_eq
  intro b hb
  have e := congrArg (·.getLsbD (b % 32)) (h ⟨7 - b / 32, by omega⟩)
  simp only [getLsbD_wordOf] at e
  rw [show 32 * (7 - (7 - b / 32)) + b % 32 = b by omega] at e
  simpa [Nat.mod_lt b (show 0 < 32 by decide)] using e

/-! ### Register files -/

@[simp] theorem vector_set_self {α : Type} {m : Nat} (v : Vector α m) (d : Fin m) (x : α) : (v.set d x)[d] = x := by
  simp

theorem vector_set_of_ne {α : Type} {m : Nat} (v : Vector α m) {d i : Fin m} (h : i ≠ d) (x : α) :
    (v.set d x)[i] = v[i] := by
  have : d.val ≠ i.val := fun e => h (Fin.ext e.symm)
  simp [this]

theorem vector_set_get_self {α : Type} {m : Nat} (v : Vector α m) (d : Fin m) : v.set d v[d] = v := by
  simp

end Sys2Proof.Machine
end

