-- ==== Sys2Proof/Laws/Primes.lean ====
section
/-! SUPPORT. The field prime and the group order are prime, by Lucas certificates evaluated with the model's own power
(40_field.md R150, 00_scope.md R10), and so every nonzero residue has the inverse the model computes. -/

set_option Elab.async false

namespace Sys2Proof.Machine

theorem prime_of_lucas (N a : Nat) (factors : List Nat) (hN : 1 < N) (hlt : N < 2 ^ 256)
    (hprime : ∀ q ∈ factors, q.Prime) (hprod : factors.prod = N - 1)
    (hpow : powMod N a (N - 1) = 1) (hne : ∀ q ∈ factors, powMod N a ((N - 1) / q) ≠ 1) : N.Prime := by
  have cast : ∀ e, e < 2 ^ 256 → ((powMod N a e : Nat) : ZMod N) = (a : ZMod N) ^ e := by
    intro e he
    rw [powMod_eq N a e he, ZMod.natCast_mod, Nat.cast_pow]
  refine lucas_primality N (a : ZMod N) ?_ ?_
  · rw [← cast _ (by omega), hpow, Nat.cast_one]
  · intro q hq hd
    have hmem : q ∈ factors := by
      rw [← hprod] at hd
      obtain ⟨r, hr, hqr⟩ := (Prime.dvd_prod_iff hq.prime).1 hd
      rwa [(Nat.prime_dvd_prime_iff_eq hq (hprime r hr)).1 hqr]
    have he : (N - 1) / q < 2 ^ 256 := lt_of_le_of_lt (Nat.div_le_self _ _) (by omega)
    rw [← cast _ he]
    intro h1
    have hlt' : powMod N a ((N - 1) / q) < N := powMod_lt (by omega) _ _ he
    have : ((powMod N a ((N - 1) / q) : Nat) : ZMod N) = ((1 : Nat) : ZMod N) := by rw [h1, Nat.cast_one]
    rw [ZMod.natCast_eq_natCast_iff', Nat.mod_eq_of_lt hlt', Nat.mod_eq_of_lt hN] at this
    exact hne q hmem this
theorem prime_107590001 : Nat.Prime 107590001 := by
  refine prime_of_lucas _ 3 [2, 2, 2, 2, 5, 5, 5, 5, 7, 29, 53] (by decide +kernel) (by decide +kernel) ?_ (by decide +kernel) (by decide +kernel) (by decide +kernel)
  intro q hq
  simp only [List.mem_cons, List.not_mem_nil, or_false] at hq
  rcases hq with rfl | rfl | rfl | rfl | rfl | rfl | rfl | rfl | rfl | rfl | rfl <;> first | norm_num

theorem prime_255515944373312847190720520512484175977 : Nat.Prime 255515944373312847190720520512484175977 := by
  refine prime_of_lucas _ 3 [2, 2, 2, 7, 7, 11, 1627, 2657, 4423, 41201, 96557, 7240687, 107590001] (by decide +kernel) (by decide +kernel) ?_ (by decide +kernel) (by decide +kernel) (by decide +kernel)
  intro q hq
  simp only [List.mem_cons, List.not_mem_nil, or_false] at hq
  rcases hq with rfl | rfl | rfl | rfl | rfl | rfl | rfl | rfl | rfl | rfl | rfl | rfl | rfl <;> first | exact prime_107590001 | norm_num

theorem prime_13331831 : Nat.Prime 13331831 := by
  refine prime_of_lucas _ 13 [2, 5, 971, 1373] (by decide +kernel) (by decide +kernel) ?_ (by decide +kernel) (by decide +kernel) (by decide +kernel)
  intro q hq
  simp only [List.mem_cons, List.not_mem_nil, or_false] at hq
  rcases hq with rfl | rfl | rfl | rfl <;> first | norm_num

theorem prime_173378833005251801 : Nat.Prime 173378833005251801 := by
  refine prime_of_lucas _ 6 [2, 2, 2, 5, 5, 2621, 24809, 13331831] (by decide +kernel) (by decide +kernel) ?_ (by decide +kernel) (by decide +kernel) (by decide +kernel)
  intro q hq
  simp only [List.mem_cons, List.not_mem_nil, or_false] at hq
  rcases hq with rfl | rfl | rfl | rfl | rfl | rfl | rfl | rfl <;> first | exact prime_13331831 | norm_num

theorem prime_22149492674086928081353 : Nat.Prime 22149492674086928081353 := by
  refine prime_of_lucas _ 5 [2, 2, 2, 3, 5323, 173378833005251801] (by decide +kernel) (by decide +kernel) ?_ (by decide +kernel) (by decide +kernel) (by decide +kernel)
  intro q hq
  simp only [List.mem_cons, List.not_mem_nil, or_false] at hq
  rcases hq with rfl | rfl | rfl | rfl | rfl | rfl <;> first | exact prime_173378833005251801 | norm_num

theorem prime_132896956044521568488119 : Nat.Prime 132896956044521568488119 := by
  refine prime_of_lucas _ 6 [2, 3, 22149492674086928081353] (by decide +kernel) (by decide +kernel) ?_ (by decide +kernel) (by decide +kernel) (by decide +kernel)
  intro q hq
  simp only [List.mem_cons, List.not_mem_nil, or_false] at hq
  rcases hq with rfl | rfl | rfl <;> first | exact prime_22149492674086928081353 | norm_num

theorem prime_205115282021455665897114700593932402728804164701536103180137503955397371 : Nat.Prime 205115282021455665897114700593932402728804164701536103180137503955397371 := by
  refine prime_of_lucas _ 10 [2, 3, 5, 29, 29, 31, 7723, 132896956044521568488119, 255515944373312847190720520512484175977] (by decide +kernel) (by decide +kernel) ?_ (by decide +kernel) (by decide +kernel) (by decide +kernel)
  intro q hq
  simp only [List.mem_cons, List.not_mem_nil, or_false] at hq
  rcases hq with rfl | rfl | rfl | rfl | rfl | rfl | rfl | rfl | rfl <;> first | exact prime_132896956044521568488119 | exact prime_255515944373312847190720520512484175977 | norm_num

/-- The field prime is prime (40_field.md R150). -/
theorem prime_p : Nat.Prime Config.p := by
  refine prime_of_lucas _ 3 [2, 3, 7, 13441, 205115282021455665897114700593932402728804164701536103180137503955397371] (by decide +kernel) (by decide +kernel) ?_ (by decide +kernel) (by decide +kernel) (by decide +kernel)
  intro q hq
  simp only [List.mem_cons, List.not_mem_nil, or_false] at hq
  rcases hq with rfl | rfl | rfl | rfl | rfl <;> first | exact prime_205115282021455665897114700593932402728804164701536103180137503955397371 | norm_num

theorem prime_44706919 : Nat.Prime 44706919 := by
  refine prime_of_lucas _ 6 [2, 3, 797, 9349] (by decide +kernel) (by decide +kernel) ?_ (by decide +kernel) (by decide +kernel) (by decide +kernel)
  intro q hq
  simp only [List.mem_cons, List.not_mem_nil, or_false] at hq
  rcases hq with rfl | rfl | rfl | rfl <;> first | norm_num

theorem prime_174723607534414371449 : Nat.Prime 174723607534414371449 := by
  refine prime_of_lucas _ 3 [2, 2, 2, 17, 59, 4051, 120233, 44706919] (by decide +kernel) (by decide +kernel) ?_ (by decide +kernel) (by decide +kernel) (by decide +kernel)
  intro q hq
  simp only [List.mem_cons, List.not_mem_nil, or_false] at hq
  rcases hq with rfl | rfl | rfl | rfl | rfl | rfl | rfl | rfl <;> first | exact prime_44706919 | norm_num

theorem prime_107361793816595537 : Nat.Prime 107361793816595537 := by
  refine prime_of_lucas _ 3 [2, 2, 2, 2, 16699, 85831, 4681609] (by decide +kernel) (by decide +kernel) ?_ (by decide +kernel) (by decide +kernel) (by decide +kernel)
  intro q hq
  simp only [List.mem_cons, List.not_mem_nil, or_false] at hq
  rcases hq with rfl | rfl | rfl | rfl | rfl | rfl | rfl <;> first | norm_num

theorem prime_297159362677 : Nat.Prime 297159362677 := by
  refine prime_of_lucas _ 2 [2, 2, 3, 3, 11, 461, 1627771] (by decide +kernel) (by decide +kernel) ?_ (by decide +kernel) (by decide +kernel) (by decide +kernel)
  intro q hq
  simp only [List.mem_cons, List.not_mem_nil, or_false] at hq
  rcases hq with rfl | rfl | rfl | rfl | rfl | rfl | rfl <;> first | norm_num

theorem prime_545358713 : Nat.Prime 545358713 := by
  refine prime_of_lucas _ 5 [2, 2, 2, 41, 59, 28181] (by decide +kernel) (by decide +kernel) ?_ (by decide +kernel) (by decide +kernel) (by decide +kernel)
  intro q hq
  simp only [List.mem_cons, List.not_mem_nil, or_false] at hq
  rcases hq with rfl | rfl | rfl | rfl | rfl | rfl <;> first | norm_num

theorem prime_29047611873442575647497758179 : Nat.Prime 29047611873442575647497758179 := by
  refine prime_of_lucas _ 2 [2, 293, 305873, 545358713, 297159362677] (by decide +kernel) (by decide +kernel) ?_ (by decide +kernel) (by decide +kernel) (by decide +kernel)
  intro q hq
  simp only [List.mem_cons, List.not_mem_nil, or_false] at hq
  rcases hq with rfl | rfl | rfl | rfl | rfl <;> first | exact prime_545358713 | exact prime_297159362677 | norm_num

theorem prime_341948486974166000522343609283189 : Nat.Prime 341948486974166000522343609283189 := by
  refine prime_of_lucas _ 2 [2, 2, 3, 3, 3, 109, 29047611873442575647497758179] (by decide +kernel) (by decide +kernel) ?_ (by decide +kernel) (by decide +kernel) (by decide +kernel)
  intro q hq
  simp only [List.mem_cons, List.not_mem_nil, or_false] at hq
  rcases hq with rfl | rfl | rfl | rfl | rfl | rfl | rfl <;> first | exact prime_29047611873442575647497758179 | norm_num

/-- The group order is prime (00_scope.md R10). -/
theorem prime_n : Nat.Prime Config.n := by
  refine prime_of_lucas _ 7 [2, 2, 2, 2, 2, 2, 3, 149, 631, 107361793816595537, 174723607534414371449, 341948486974166000522343609283189] (by decide +kernel) (by decide +kernel) ?_ (by decide +kernel) (by decide +kernel) (by decide +kernel)
  intro q hq
  simp only [List.mem_cons, List.not_mem_nil, or_false] at hq
  rcases hq with rfl | rfl | rfl | rfl | rfl | rfl | rfl | rfl | rfl | rfl | rfl | rfl <;> first | exact prime_107361793816595537 | exact prime_174723607534414371449 | exact prime_341948486974166000522343609283189 | norm_num

/-- For a prime modulus the power `m - 2` is the inverse (40_field.md R150). -/
theorem mul_powMod_sub_two {m x : Nat} (hm : m.Prime) (hlt : m < 2 ^ 256) (hx : x % m ≠ 0) :
    x * powMod m x (m - 2) % m = 1 := by
  have h2 : 2 ≤ m := hm.two_le
  have hco : x.Coprime m := by
    rw [Nat.coprime_comm, hm.coprime_iff_not_dvd]
    exact fun h => hx (Nat.mod_eq_zero_of_dvd h)
  rw [powMod_eq m x _ (by omega), Nat.mul_mod, Nat.mod_mod, ← Nat.mul_mod, ← pow_succ',
    show m - 2 + 1 = m - 1 by omega, ← Nat.totient_prime hm]
  exact Eq.trans (Nat.ModEq.pow_totient hco) (Nat.mod_eq_of_lt (by omega))

/-- `inv_p` of a nonzero reduced value (40_field.md R140). -/
theorem invP_spec {x : Nat} (h0 : x ≠ 0) (hx : x < Config.p) :
    ∃ y, invP x = some y ∧ y < Config.p ∧ mulP x y = 1 := by
  refine ⟨_, invMod_of_ne_zero _ x h0, powMod_lt p_pos _ _ (by decide), ?_⟩
  exact mul_powMod_sub_two prime_p p_lt (by rwa [Nat.mod_eq_of_lt hx])

/-- `inv_n` of a nonzero reduced value (41_scalar.md R170). -/
theorem invN_spec {x : Nat} (h0 : x ≠ 0) (hx : x < Config.n) :
    ∃ y, invN x = some y ∧ y < Config.n ∧ mulN x y = 1 := by
  refine ⟨_, invMod_of_ne_zero _ x h0, powMod_lt n_pos _ _ (by decide), ?_⟩
  exact mul_powMod_sub_two prime_n n_lt (by rwa [Nat.mod_eq_of_lt hx])

end Sys2Proof.Machine
end

