-- ==== Sys2Proof/Laws/Curve.lean ====
section
/-! SUPPORT. The field primitives as arithmetic of `ZMod p`, the ranges of the point operations, and the denominators the cases of
42_point.md R200 divide by (93_implementation_defined.md U12). -/

set_option Elab.async false

namespace Sys2Proof.Machine

theorem addP_lt (x y : Nat) : addP x y < Config.p := addMod_lt p_pos x y
theorem subP_lt (x y : Nat) : subP x y < Config.p := subMod_lt p_pos x y
theorem mulP_lt (x y : Nat) : mulP x y < Config.p := mulMod_lt p_pos x y
theorem addN_lt (x y : Nat) : addN x y < Config.n := addMod_lt n_pos x y
theorem mulN_lt (x y : Nat) : mulN x y < Config.n := mulMod_lt n_pos x y

/-! ### Casts -/

@[simp] theorem cast_addP (x y : Nat) : ((addP x y : Nat) : ZMod Config.p) = x + y := by
  simp [addP, addMod]

@[simp] theorem cast_mulP (x y : Nat) : ((mulP x y : Nat) : ZMod Config.p) = x * y := by
  simp [mulP, mulMod]

@[simp] theorem cast_subP (x y : Nat) : ((subP x y : Nat) : ZMod Config.p) = x - y := by
  have h : y % Config.p ≤ Config.p := (Nat.mod_lt y p_pos).le
  rw [subP, subMod, ZMod.natCast_mod, Nat.cast_add, Nat.cast_sub h, ZMod.natCast_mod, ZMod.natCast_self]
  ring

theorem cast_inj {x y : Nat} (hx : x < Config.p) (hy : y < Config.p) :
    (x : ZMod Config.p) = y ↔ x = y := by
  rw [ZMod.natCast_eq_natCast_iff', Nat.mod_eq_of_lt hx, Nat.mod_eq_of_lt hy]

theorem cast_eq_zero {x : Nat} (hx : x < Config.p) : (x : ZMod Config.p) = 0 ↔ x = 0 := by
  rw [← Nat.cast_zero, cast_inj hx p_pos]

/-- `slope` divides (42_point.md R200: "All divisions are field inversion followed by multiplication"). -/
theorem cast_slope [Fact (Nat.Prime Config.p)] (a d : Nat) :
    ((slope a d : Nat) : ZMod Config.p) = a / d := by
  rw [slope, cast_mulP, div_eq_mul_inv]
  congr 1
  unfold invP invMod
  split
  · next h => simp [h]
  · rw [Option.getD_some, powMod_eq _ _ _ (by decide), ZMod.natCast_mod, Nat.cast_pow]
    by_cases h0 : (d : ZMod Config.p) = 0
    · rw [h0, inv_zero, zero_pow (by decide)]
    · refine eq_inv_of_mul_eq_one_left ?_
      rw [← pow_succ, show Config.p - 2 + 1 = Config.p - 1 by decide, ZMod.pow_card_sub_one_eq_one h0]

/-! ### Denominators -/

/-- Case 4 of R200 divides by a nonzero value. -/
theorem chord_denominator_ne_zero {x1 x2 : Nat} (h1 : x1 < Config.p) (h2 : x2 < Config.p) (hne : x1 ≠ x2) :
    subP x2 x1 ≠ 0 := by
  intro h
  have hc : ((subP x2 x1 : Nat) : ZMod Config.p) = 0 := by rw [h, Nat.cast_zero]
  rw [cast_subP, sub_eq_zero, cast_inj h2 h1] at hc
  exact hne hc.symm

/-- Case 2 of R200 divides by a nonzero value: `p` is odd. -/
theorem tangent_denominator_ne_zero {y : Nat} (hy : y < Config.p) (h0 : y ≠ 0) : addP y y ≠ 0 := by
  unfold addP addMod
  have hodd : Config.p % 2 = 1 := by decide
  intro h
  obtain ⟨k, hk⟩ := Nat.dvd_of_mod_eq_zero h
  have : k < 2 := by
    by_contra hk2
    have : Config.p * 2 ≤ Config.p * k := Nat.mul_le_mul_left _ (by omega)
    omega
  interval_cases k <;> omega

/-! ### Ranges -/

theorem generator_legal : generator.Legal := by
  simp only [generator, Point.Legal]; decide

theorem PointReg.Legal.toPoint {r : PointReg} (h : r.Legal) : r.toPoint.Legal := by
  unfold PointReg.toPoint
  split
  · trivial
  · exact ⟨h.x_lt, h.y_lt⟩

theorem PointReg.ofPoint_legal {q : Point} (h : q.Legal) : (PointReg.ofPoint q).Legal := by
  cases q with
  | inf => exact ⟨p_pos, p_pos, fun _ => ⟨rfl, rfl⟩⟩
  | aff x y =>
    refine ⟨?_, ?_, fun h => by simp [PointReg.ofPoint] at h⟩
    · rw [PointReg.ofPoint, BitVec.toNat_ofNat]; exact lt_of_le_of_lt (Nat.mod_le _ _) h.1
    · rw [PointReg.ofPoint, BitVec.toNat_ofNat]; exact lt_of_le_of_lt (Nat.mod_le _ _) h.2

/-- What is written to a P register is what is read from it (42_point.md R203, 10_state.md R35). -/
theorem PointReg.toPoint_ofPoint {q : Point} (h : q.Legal) : (PointReg.ofPoint q).toPoint = q := by
  cases q with
  | inf => rfl
  | aff x y =>
    have hx := lt_trans h.1 p_lt
    have hy := lt_trans h.2 p_lt
    simpa [PointReg.ofPoint, PointReg.toPoint] using And.intro hx hy

theorem reflectThird_eq (m x1 y1 x2 : Nat) :
    reflectThird m x1 y1 x2 =
      .aff (subP (subP (mulP m m) x1) x2) (subP (mulP m (subP x1 (subP (subP (mulP m m) x1) x2))) y1) := by
  simp [reflectThird]

/-- Every case of `pt_add` (42_point.md R200) gives a legal point. -/
theorem ptAdd_legal {a b : Point} (ha : a.Legal) (hb : b.Legal) : (ptAdd a b).Legal := by
  match a, b, ha, hb with
  | .inf, b, _, hb => exact hb
  | .aff x1 y1, .inf, ha, _ => exact ha
  | .aff x1 y1, .aff x2 y2, _, _ =>
    simp only [ptAdd, forced_eq, reflectThird_eq]
    split_ifs <;> simp only [Point.Legal, subP_lt, and_self]

theorem ptDbl_legal {a : Point} (ha : a.Legal) : (ptDbl a).Legal := ptAdd_legal ha ha

theorem accumulate_legal {acc addend : Point} (k bit : Nat) (h : acc.Legal) (h' : addend.Legal) :
    (accumulate k acc addend bit).Legal := by
  unfold accumulate; split
  · exact ptAdd_legal h h'
  · exact h

theorem smulLoop_legal (k : Nat) : ∀ (fuel : Nat) (acc addend : Point) (bit : Nat),
    acc.Legal → addend.Legal → (smulLoop k fuel acc addend bit).Legal
  | 0, _, _, _, h, _ => h
  | fuel + 1, _, _, bit, h, h' =>
    smulLoop_legal k fuel _ _ (bit + 1) (accumulate_legal k bit h h') (ptDbl_legal h')

theorem smulRest_legal {acc addend : Point} (k bit : Nat) (h : acc.Legal) (h' : addend.Legal) :
    (smulRest k acc addend bit).Legal := smulLoop_legal k _ _ _ bit h h'

theorem ptSmul_legal {a : Point} (h : a.Legal) (k : Nat) : (ptSmul a k).Legal := smulRest_legal k 0 trivial h

/-! ### The loop -/

/-- One iteration of R206's loop leaves its result alone. -/
theorem smulRest_step {k bit : Nat} (h : bit < 256) (acc addend : Point) :
    smulRest k acc addend bit = smulRest k (accumulate k acc addend bit) (ptDbl addend) (bit + 1) := by
  unfold smulRest
  rw [show 256 - bit = (256 - (bit + 1)) + 1 by omega, smulLoop]

theorem smulRest_end {k bit : Nat} (h : 256 ≤ bit) (acc addend : Point) : smulRest k acc addend bit = acc := by
  unfold smulRest
  rw [Nat.sub_eq_zero_of_le h, smulLoop]

end Sys2Proof.Machine
end

