-- ==== Sys2Proof/Laws/CurveGroup.lean ====
section
/-! SUPPORT. The model's point addition is addition in Mathlib's group of the curve `y² = x³ + 7` over `ZMod p` (00_scope.md R12;
42_point.md R200, R206, R215). -/

set_option Elab.async false

namespace Sys2Proof.Machine

open WeierstrassCurve

/-- The curve of 00_scope.md R12: coefficient `a` is 0 and `b` is 7. -/
def curve : Affine (ZMod Config.p) := { a₁ := 0, a₂ := 0, a₃ := 0, a₄ := 0, a₆ := 7 }

theorem curve_equation (x y : ZMod Config.p) : curve.Equation x y ↔ y ^ 2 = x ^ 3 + 7 := by
  rw [Affine.equation_iff]; simp [curve]

/-- The curve equation of the model is the curve equation of the group. -/
theorem onCurve_iff (x y : Nat) : (Point.aff x y).onCurve = true ↔ curve.Equation (x : ZMod Config.p) y := by
  rw [curve_equation, Point.onCurve, beq_iff_eq,
    ← cast_inj (mulP_lt _ _) (addP_lt _ _)]
  simp only [cast_mulP, cast_addP]
  push_cast
  constructor <;> intro h <;> linear_combination h

section

variable [Fact (Nat.Prime Config.p)]

theorem two_ne_zero_p : (2 : ZMod Config.p) ≠ 0 := by
  have := cast_eq_zero (x := 2) (by decide)
  norm_num at this; exact this

theorem seven_ne_zero_p : (7 : ZMod Config.p) ≠ 0 := by
  have := cast_eq_zero (x := 7) (by decide)
  norm_num at this; exact this

theorem curve_negY (x y : ZMod Config.p) : curve.negY x y = -y := by simp [Affine.negY, curve]

/-- `y = -y` only at 0: `p` is odd. -/
theorem eq_neg_iff_zero (y : ZMod Config.p) : y = -y ↔ y = 0 := by
  constructor
  · intro h
    have : 2 * y = 0 := by linear_combination h
    exact (mul_eq_zero.1 this).resolve_left two_ne_zero_p
  · rintro rfl; simp

theorem nonsingular_of_equation {x y : ZMod Config.p} (h : curve.Equation x y) : curve.Nonsingular x y := by
  rw [Affine.nonsingular_iff]
  refine ⟨h, ?_⟩
  by_cases hy : y = 0
  · left
    have hx : x ≠ 0 := by
      rintro rfl
      rw [curve_equation, hy] at h
      norm_num at h
      exact seven_ne_zero_p h.symm
    have h3 : (3 : ZMod Config.p) ≠ 0 := by
      have := cast_eq_zero (x := 3) (by decide)
      norm_num at this; exact this
    simpa [curve] using And.intro h3 hx
  · right
    simpa [curve] using fun h' => hy ((eq_neg_iff_zero y).1 h')

open Classical in
/-- A point of the model as an element of the curve's group; a pair off the curve is sent to 0. -/
noncomputable def toGroup : Point → curve.Point
  | .inf => 0
  | .aff x y => if h : curve.Nonsingular (x : ZMod Config.p) y then .some _ _ h else 0

@[simp] theorem toGroup_inf : toGroup .inf = 0 := rfl

theorem toGroup_aff {x y : Nat} (h : curve.Nonsingular (x : ZMod Config.p) y) :
    toGroup (.aff x y) = .some _ _ h := by
  simp [toGroup, h]

theorem nonsingular_of_onCurve {x y : Nat} (h : (Point.aff x y).onCurve = true) :
    curve.Nonsingular (x : ZMod Config.p) y := nonsingular_of_equation ((onCurve_iff x y).1 h)

/-- A result whose coordinates are those of a group element. -/
theorem toGroup_eq_some {x y : Nat} {X Y : ZMod Config.p} (h : curve.Nonsingular X Y)
    (hx : (x : ZMod Config.p) = X) (hy : (y : ZMod Config.p) = Y) :
    toGroup (.aff x y) = .some X Y h ∧ (Point.aff x y).onCurve = true := by
  subst hx hy
  exact ⟨toGroup_aff h, (onCurve_iff x y).2 h.1⟩

/-- Legal on-curve points are equal when their group elements are. -/
theorem toGroup_injective {a b : Point} (ha : a.Legal) (hb : b.Legal) (ca : a.onCurve = true) (cb : b.onCurve = true)
    (h : toGroup a = toGroup b) : a = b := by
  match a, b, ha, hb, ca, cb, h with
  | .inf, .inf, _, _, _, _, _ => rfl
  | .inf, .aff x y, _, _, _, cb, h =>
    rw [toGroup_aff (nonsingular_of_onCurve cb)] at h; exact absurd h (by simp [Affine.Point.zero_def])
  | .aff x y, .inf, _, _, ca, _, h =>
    rw [toGroup_aff (nonsingular_of_onCurve ca)] at h; exact absurd h (by simp [Affine.Point.zero_def])
  | .aff x y, .aff x' y', ha, hb, ca, cb, h =>
    rw [toGroup_aff (nonsingular_of_onCurve ca), toGroup_aff (nonsingular_of_onCurve cb)] at h
    simp only [Affine.Point.some.injEq] at h
    rw [(cast_inj ha.1 hb.1).1 h.1, (cast_inj ha.2 hb.2).1 h.2]

/-- `pt_add` is the group's addition on the curve, and keeps to it (42_point.md R200, R202). -/
theorem toGroup_ptAdd {a b : Point} (ha : a.Legal) (hb : b.Legal) (ca : a.onCurve = true) (cb : b.onCurve = true) :
    toGroup (ptAdd a b) = toGroup a + toGroup b ∧ (ptAdd a b).onCurve = true := by
  match a, b, ha, hb, ca, cb with
  | .inf, b, _, _, _, cb => simp [ptAdd, cb]
  | .aff x y, .inf, _, _, ca, _ => simp [ptAdd, ca]
  | .aff x1 y1, .aff x2 y2, ha, hb, ca, cb =>
    have n1 := nonsingular_of_onCurve ca
    have n2 := nonsingular_of_onCurve cb
    rw [toGroup_aff n1, toGroup_aff n2]
    simp only [ptAdd, forced_eq, reflectThird_eq]
    split_ifs with hsame hy0 hx
    · -- vertical tangent
      obtain ⟨rfl, rfl⟩ := hsame
      subst hy0
      rw [Affine.Point.add_of_Y_eq rfl (by rw [curve_negY]; simp)]
      exact ⟨rfl, rfl⟩
    · -- doubling
      obtain ⟨rfl, rfl⟩ := hsame
      have hy : ((y1 : Nat) : ZMod Config.p) ≠ curve.negY (x1 : ZMod Config.p) y1 := by
        rw [curve_negY, Ne, eq_neg_iff_zero, cast_eq_zero ha.2]; exact hy0
      rw [Affine.Point.add_of_Y_ne hy]
      apply toGroup_eq_some
      · simp only [Affine.addX, Affine.slope_of_Y_ne rfl hy, cast_subP, cast_mulP, cast_slope, cast_addP, curve_negY]
        simp only [curve]; push_cast; ring
      · simp only [Affine.addY, Affine.negAddY, Affine.addX, Affine.slope_of_Y_ne rfl hy, cast_subP, cast_mulP, cast_slope,
          cast_addP, curve_negY]
        simp only [curve]; push_cast; ring
    · -- inverses
      subst hx
      have hne : y1 ≠ y2 := fun h => hsame ⟨rfl, h⟩
      rw [Affine.Point.add_of_Y_eq rfl
        ((Affine.Y_eq_of_X_eq n1.1 n2.1 rfl).resolve_left (fun h => hne ((cast_inj ha.2 hb.2).1 h)))]
      exact ⟨rfl, rfl⟩
    · -- chord
      have hX : ((x1 : Nat) : ZMod Config.p) ≠ x2 := fun h => hx ((cast_inj ha.1 hb.1).1 h)
      have hs : ((y2 : ZMod Config.p) - y1) / (x2 - x1) = (y1 - y2) / (x1 - x2) := by
        rw [← neg_sub (y1 : ZMod Config.p), ← neg_sub (x1 : ZMod Config.p), neg_div_neg_eq]
      rw [Affine.Point.add_of_X_ne hX]
      apply toGroup_eq_some
      · simp only [Affine.addX, Affine.slope_of_X_ne hX, cast_subP, cast_mulP, cast_slope, hs]
        simp only [curve]; ring
      · simp only [Affine.addY, Affine.negAddY, Affine.addX, Affine.slope_of_X_ne hX, cast_subP, cast_mulP, cast_slope, hs,
          curve_negY]
        simp only [curve]; ring

theorem toGroup_ptDbl {a : Point} (ha : a.Legal) (ca : a.onCurve = true) :
    toGroup (ptDbl a) = 2 • toGroup a ∧ (ptDbl a).onCurve = true := by
  rw [two_nsmul]; exact toGroup_ptAdd ha ha ca ca

/-- What is left of R206's loop adds the multiple of the addend by the bits left. -/
theorem toGroup_smulLoop (k : Nat) : ∀ (fuel : Nat) {acc addend : Point} (bit : Nat), acc.Legal → addend.Legal →
    acc.onCurve = true → addend.onCurve = true →
    toGroup (smulLoop k fuel acc addend bit) = toGroup acc + ((k / 2 ^ bit) % 2 ^ fuel) • toGroup addend ∧
      (smulLoop k fuel acc addend bit).onCurve = true
  | 0, acc, addend, bit, _, _, ca, _ => by simp [smulLoop, Nat.mod_one, ca]
  | fuel + 1, acc, addend, bit, ha, hb, ca, cb => by
    have hd := toGroup_ptDbl hb cb
    have hacc : toGroup (accumulate k acc addend bit) = toGroup acc + ((k / 2 ^ bit) % 2) • toGroup addend ∧
        (accumulate k acc addend bit).onCurve = true := by
      unfold accumulate
      rw [Nat.testBit_eq_decide_div_mod_eq]
      rcases Nat.mod_two_eq_zero_or_one (k / 2 ^ bit) with h | h
      · simp [h, ca]
      · simpa [h] using toGroup_ptAdd ha hb ca cb
    have ih := toGroup_smulLoop k fuel (bit + 1) (accumulate_legal k bit ha hb) (ptDbl_legal hb) hacc.2 hd.2
    rw [smulLoop]
    refine ⟨?_, ih.2⟩
    rw [ih.1, hacc.1, hd.1, add_assoc, ← mul_nsmul', ← add_nsmul]
    congr 2
    rw [pow_succ 2 bit, ← Nat.div_div_eq_div_mul, pow_succ' 2 fuel, Nat.mod_mul]
    ring

/-- `pt_smul(P, k) = k · P` in the group, for every 256-bit `k` (42_point.md R206). -/
theorem toGroup_ptSmul {a : Point} (ha : a.Legal) (ca : a.onCurve = true) {k : Nat} (hk : k < 2 ^ 256) :
    toGroup (ptSmul a k) = k • toGroup a ∧ (ptSmul a k).onCurve = true := by
  have h := toGroup_smulLoop k 256 0 (acc := .inf) trivial ha rfl ca
  rw [pow_zero, Nat.div_one, Nat.mod_eq_of_lt hk, toGroup_inf, zero_add] at h
  exact h

end

theorem generator_onCurve : generator.onCurve = true := by decide

end Sys2Proof.Machine
end

