-- ==== Sys2Proof/Laws/Decode.lean ====
section
/-! SUPPORT. The decoder's checks one by one, and the fields of a packed word (30_encoding.md R111, R119). -/

set_option Elab.async false

namespace Sys2Proof

theorem decode_of {w : Word} {e : OpcodeEntry} (he : opcodeEntry (opField w) = some e) (f6 : resvField w = 0)
  (hu : (unusedIsZero e.dFile (dField w) && unusedIsZero e.aFile (aField w) && unusedIsZero e.bFile (bField w) && unusedIsZero e.cFile (cField w)) = true)
  (hr : (usedInRange e.dFile (dField w) && usedInRange e.aFile (aField w) && usedInRange e.bFile (bField w) && usedInRange e.cFile (cField w)) = true) :
  decode w = .ok (e.build (dField w) (aField w) (bField w) (cField w)) := by
  unfold decode
  rw [he]
  simp [f6, hu, hr]
theorem fields_of_sum {w : Word} {op d a b c : Nat} (h : w.toNat = c * 2^20 + b * 2^16 + a * 2^12 + d * 2^8 + op) (h1 : op < 256) (h2 : d < 16) (h3 : a < 16) (h4 : b < 16) (h5 : c < 16) :
  opField w = op ∧ dField w = d ∧ aField w = a ∧ bField w = b ∧ cField w = c ∧ resvField w = 0 := by
  refine ⟨?_, ?_, ?_, ?_, ?_, ?_⟩
  · unfold opField; omega
  · unfold dField; omega
  · unfold aField; omega
  · unfold bField; omega
  · unfold cField; omega
  · unfold resvField; omega
theorem pack_toNat (op d a b c : Nat) (h1 : op < 256) (h2 : d < 16) (h3 : a < 16) (h4 : b < 16) (h5 : c < 16) :
  (pack op d a b c).toNat = c * 2^20 + b * 2^16 + a * 2^12 + d * 2^8 + op := by
  unfold pack; rw [BitVec.toNat_ofNat]; omega
theorem decode_pack {op d a b c : Nat} {e : OpcodeEntry} (he : opcodeEntry op = some e) (h1 : op < 256) (h2 : d < 16) (h3 : a < 16) (h4 : b < 16) (h5 : c < 16)
  (hu : (unusedIsZero e.dFile d && unusedIsZero e.aFile a && unusedIsZero e.bFile b && unusedIsZero e.cFile c) = true)
  (hr : (usedInRange e.dFile d && usedInRange e.aFile a && usedInRange e.bFile b && usedInRange e.cFile c) = true) :
  decode (pack op d a b c) = .ok (e.build d a b c) := by
  have hp := pack_toNat op d a b c h1 h2 h3 h4 h5
  generalize pack op d a b c = w at hp ⊢
  obtain ⟨rfl, rfl, rfl, rfl, rfl, f6⟩ := fields_of_sum hp h1 h2 h3 h4 h5
  exact decode_of he f6 hu hr
@[simp] theorem unusedIsZero_none (v : Nat) : unusedIsZero none v = true ↔ v = 0 := by simp [unusedIsZero]
@[simp] theorem unusedIsZero_some (file : RegFile) (v : Nat) : unusedIsZero (some file) v = true := rfl
@[simp] theorem usedInRange_none (v : Nat) : usedInRange none v = true := rfl
@[simp] theorem usedInRange_some (file : RegFile) (v : Nat) : usedInRange (some file) v = true ↔ v < file.size := by
  simp [usedInRange]
@[simp] theorem size_f : RegFile.size .f = 8 := rfl
@[simp] theorem size_s : RegFile.size .s = 8 := rfl
@[simp] theorem size_p : RegFile.size .p = 4 := rfl
@[simp] theorem size_raw : RegFile.size .raw = 4 := rfl

/-- A word is the sum of its fields (30_encoding.md R111). -/
theorem toNat_eq_fields (w : Word) :
    w.toNat = resvField w * 2 ^ 24 + cField w * 2 ^ 20 + bField w * 2 ^ 16 + aField w * 2 ^ 12 + dField w * 2 ^ 8 + opField w := by
  unfold resvField cField bField aField dField opField
  omega

theorem opField_lt (w : Word) : opField w < 256 := Nat.mod_lt _ (by decide)
theorem dField_lt (w : Word) : dField w < 16 := Nat.mod_lt _ (by decide)
theorem aField_lt (w : Word) : aField w < 16 := Nat.mod_lt _ (by decide)
theorem bField_lt (w : Word) : bField w < 16 := Nat.mod_lt _ (by decide)
theorem cField_lt (w : Word) : cField w < 16 := Nat.mod_lt _ (by decide)

/-- Everything a successful decode says (30_encoding.md R119). -/
theorem decode_ok {w : Word} {i : Instr} (h : decode w = .ok i) :
    ∃ e, opcodeEntry (opField w) = some e ∧ resvField w = 0 ∧
      (unusedIsZero e.dFile (dField w) && unusedIsZero e.aFile (aField w)
        && unusedIsZero e.bFile (bField w) && unusedIsZero e.cFile (cField w)) = true ∧
      (usedInRange e.dFile (dField w) && usedInRange e.aFile (aField w)
        && usedInRange e.bFile (bField w) && usedInRange e.cFile (cField w)) = true ∧
      i = e.build (dField w) (aField w) (bField w) (cField w) := by
  unfold decode at h
  split at h
  · cases h
  · next e he =>
    split_ifs at h with h1 h2 h3
    exact ⟨e, he, by simpa using h1, by simpa using h2, by simpa using h3, by cases h; rfl⟩

/-- With bits 31:24 clear a word is packed from its fields. -/
theorem eq_pack {w : Word} (h : resvField w = 0) : w = pack (opField w) (dField w) (aField w) (bField w) (cField w) := by
  apply BitVec.eq_of_toNat_eq
  rw [pack_toNat _ _ _ _ _ (opField_lt w) (dField_lt w) (aField_lt w) (bField_lt w) (cField_lt w), toNat_eq_fields w, h,
    Nat.zero_mul, Nat.zero_add]

end Sys2Proof
end

