-- ==== Sys2Proof/Laws/State.lean ====
section
/-! SUPPORT. One lemma per field for each update of the state, of the data registers and of STATUS. -/

set_option Elab.async false

namespace Sys2Proof.Machine

@[simp] theorem State.reject_regs (s : State) (e : CmdError) : (s.reject e).regs = s.regs := rfl
@[simp] theorem State.reject_status (s : State) (e : CmdError) : (s.reject e).status = s.status.rejected e := rfl
@[simp] theorem State.reject_ie (s : State) (e : CmdError) : (s.reject e).ie = s.ie := rfl
@[simp] theorem State.reject_cmd (s : State) (e : CmdError) : (s.reject e).cmd = s.cmd := rfl
@[simp] theorem State.reject_job (s : State) (e : CmdError) : (s.reject e).job = s.job := rfl
@[simp] theorem State.reject_hostQueue (s : State) (e : CmdError) : (s.reject e).hostQueue = s.hostQueue := rfl
@[simp] theorem State.reject_turns (s : State) (e : CmdError) : (s.reject e).turns = s.turns := rfl
@[simp] theorem State.reject_readData (s : State) (e : CmdError) : (s.reject e).readData = s.readData := rfl
@[simp] theorem State.reject_draws (s : State) (e : CmdError) : (s.reject e).draws = s.draws := rfl
@[simp] theorem State.reject_hmac (s : State) (e : CmdError) : (s.reject e).hmac = s.hmac := rfl

@[simp] theorem State.accept_regs (s : State) (w : Word) (i : Instr) : (s.accept w i).regs = s.regs := rfl
@[simp] theorem State.accept_status (s : State) (w : Word) (i : Instr) : (s.accept w i).status = s.status.accepted := rfl
@[simp] theorem State.accept_ie (s : State) (w : Word) (i : Instr) : (s.accept w i).ie = s.ie := rfl
@[simp] theorem State.accept_cmd (s : State) (w : Word) (i : Instr) : (s.accept w i).cmd = w := rfl
@[simp] theorem State.accept_job (s : State) (w : Word) (i : Instr) : (s.accept w i).job = some { word := w, snap := s.regs, seq := .start s.hmac s.regs i } := rfl
@[simp] theorem State.accept_hostQueue (s : State) (w : Word) (i : Instr) : (s.accept w i).hostQueue = s.hostQueue := rfl
@[simp] theorem State.accept_turns (s : State) (w : Word) (i : Instr) : (s.accept w i).turns = s.turns := rfl
@[simp] theorem State.accept_readData (s : State) (w : Word) (i : Instr) : (s.accept w i).readData = s.readData := rfl
@[simp] theorem State.accept_draws (s : State) (w : Word) (i : Instr) : (s.accept w i).draws = s.draws := rfl
@[simp] theorem State.accept_hmac (s : State) (w : Word) (i : Instr) : (s.accept w i).hmac = s.hmac := rfl

@[simp] theorem State.complete_regs (s : State) (r : Regs) (ok cond ovf : Bool) : (s.complete r ok cond ovf).regs = r := rfl
@[simp] theorem State.complete_status (s : State) (r : Regs) (ok cond ovf : Bool) : (s.complete r ok cond ovf).status = s.status.completed ok cond ovf := rfl
@[simp] theorem State.complete_ie (s : State) (r : Regs) (ok cond ovf : Bool) : (s.complete r ok cond ovf).ie = s.ie := rfl
@[simp] theorem State.complete_cmd (s : State) (r : Regs) (ok cond ovf : Bool) : (s.complete r ok cond ovf).cmd = s.cmd := rfl
@[simp] theorem State.complete_job (s : State) (r : Regs) (ok cond ovf : Bool) : (s.complete r ok cond ovf).job = none := rfl
@[simp] theorem State.complete_hostQueue (s : State) (r : Regs) (ok cond ovf : Bool) : (s.complete r ok cond ovf).hostQueue = s.hostQueue := rfl
@[simp] theorem State.complete_turns (s : State) (r : Regs) (ok cond ovf : Bool) : (s.complete r ok cond ovf).turns = s.turns := rfl
@[simp] theorem State.complete_readData (s : State) (r : Regs) (ok cond ovf : Bool) : (s.complete r ok cond ovf).readData = s.readData := rfl
@[simp] theorem State.complete_draws (s : State) (r : Regs) (ok cond ovf : Bool) : (s.complete r ok cond ovf).draws = s.draws := rfl
@[simp] theorem State.complete_hmac (s : State) (r : Regs) (ok cond ovf : Bool) : (s.complete r ok cond ovf).hmac = s.hmac := rfl

@[simp] theorem State.redraw_regs (s : State) (i : Instr) (g : Generator) : (s.redraw i g).regs = s.regs := rfl
@[simp] theorem State.redraw_status (s : State) (i : Instr) (g : Generator) : (s.redraw i g).status = { s.status with busy := true } := rfl
@[simp] theorem State.redraw_ie (s : State) (i : Instr) (g : Generator) : (s.redraw i g).ie = s.ie := rfl
@[simp] theorem State.redraw_cmd (s : State) (i : Instr) (g : Generator) : (s.redraw i g).cmd = s.cmd := rfl
@[simp] theorem State.redraw_job (s : State) (i : Instr) (g : Generator) : (s.redraw i g).job = some { word := encode i, snap := s.src, seq := .gen (g.afterReject s.hmac) } := rfl
@[simp] theorem State.redraw_hostQueue (s : State) (i : Instr) (g : Generator) : (s.redraw i g).hostQueue = s.hostQueue := rfl
@[simp] theorem State.redraw_turns (s : State) (i : Instr) (g : Generator) : (s.redraw i g).turns = s.turns := rfl
@[simp] theorem State.redraw_readData (s : State) (i : Instr) (g : Generator) : (s.redraw i g).readData = s.readData := rfl
@[simp] theorem State.redraw_draws (s : State) (i : Instr) (g : Generator) : (s.redraw i g).draws = s.draws := rfl
@[simp] theorem State.redraw_hmac (s : State) (i : Instr) (g : Generator) : (s.redraw i g).hmac = s.hmac := rfl

@[simp] theorem State.resetEngine_regs (s : State) : (s.resetEngine).regs = Regs.free s.draws := rfl
@[simp] theorem State.resetEngine_status (s : State) : (s.resetEngine).status = Status.zero := rfl
@[simp] theorem State.resetEngine_ie (s : State) : (s.resetEngine).ie = false := rfl
@[simp] theorem State.resetEngine_cmd (s : State) : (s.resetEngine).cmd = 0 := rfl
@[simp] theorem State.resetEngine_job (s : State) : (s.resetEngine).job = none := rfl
@[simp] theorem State.resetEngine_hostQueue (s : State) : (s.resetEngine).hostQueue = s.hostQueue := rfl
@[simp] theorem State.resetEngine_turns (s : State) : (s.resetEngine).turns = s.turns := rfl
@[simp] theorem State.resetEngine_readData (s : State) : (s.resetEngine).readData = s.readData := rfl
@[simp] theorem State.resetEngine_draws (s : State) : (s.resetEngine).draws = s.draws + 1 := rfl
@[simp] theorem State.resetEngine_hmac (s : State) : (s.resetEngine).hmac = s.hmac := rfl

@[simp] theorem State.returns_regs (s : State) (w : Word) : (s.returns w).regs = s.regs := rfl
@[simp] theorem State.returns_status (s : State) (w : Word) : (s.returns w).status = s.status := rfl
@[simp] theorem State.returns_ie (s : State) (w : Word) : (s.returns w).ie = s.ie := rfl
@[simp] theorem State.returns_cmd (s : State) (w : Word) : (s.returns w).cmd = s.cmd := rfl
@[simp] theorem State.returns_job (s : State) (w : Word) : (s.returns w).job = s.job := rfl
@[simp] theorem State.returns_hostQueue (s : State) (w : Word) : (s.returns w).hostQueue = s.hostQueue := rfl
@[simp] theorem State.returns_turns (s : State) (w : Word) : (s.returns w).turns = s.turns := rfl
@[simp] theorem State.returns_readData (s : State) (w : Word) : (s.returns w).readData = w := rfl
@[simp] theorem State.returns_draws (s : State) (w : Word) : (s.returns w).draws = s.draws := rfl
@[simp] theorem State.returns_hmac (s : State) (w : Word) : (s.returns w).hmac = s.hmac := rfl

@[simp] theorem State.accessError_regs (s : State) : (s.accessError).regs = s.regs := rfl
@[simp] theorem State.accessError_status (s : State) : (s.accessError).status = s.status.accessError := rfl
@[simp] theorem State.accessError_ie (s : State) : (s.accessError).ie = s.ie := rfl
@[simp] theorem State.accessError_cmd (s : State) : (s.accessError).cmd = s.cmd := rfl
@[simp] theorem State.accessError_job (s : State) : (s.accessError).job = s.job := rfl
@[simp] theorem State.accessError_hostQueue (s : State) : (s.accessError).hostQueue = s.hostQueue := rfl
@[simp] theorem State.accessError_turns (s : State) : (s.accessError).turns = s.turns := rfl
@[simp] theorem State.accessError_readData (s : State) : (s.accessError).readData = s.readData := rfl
@[simp] theorem State.accessError_draws (s : State) : (s.accessError).draws = s.draws := rfl
@[simp] theorem State.accessError_hmac (s : State) : (s.accessError).hmac = s.hmac := rfl

@[simp] theorem Regs.setRaw_raw (r : Regs) (d : RReg) (v : Nat) : (r.setRaw d v).raw = r.raw.set d (.ofNat 256 v) := rfl
@[simp] theorem Regs.setRaw_f (r : Regs) (d : RReg) (v : Nat) : (r.setRaw d v).f = r.f := rfl
@[simp] theorem Regs.setRaw_s (r : Regs) (d : RReg) (v : Nat) : (r.setRaw d v).s = r.s := rfl
@[simp] theorem Regs.setRaw_p (r : Regs) (d : RReg) (v : Nat) : (r.setRaw d v).p = r.p := rfl
@[simp] theorem Regs.setRaw_sig (r : Regs) (d : RReg) (v : Nat) : (r.setRaw d v).sig = r.sig := rfl
@[simp] theorem Regs.setRaw_vout (r : Regs) (d : RReg) (v : Nat) : (r.setRaw d v).vout = r.vout := rfl

@[simp] theorem Regs.setF_raw (r : Regs) (d : FReg) (v : Nat) : (r.setF d v).raw = r.raw := rfl
@[simp] theorem Regs.setF_f (r : Regs) (d : FReg) (v : Nat) : (r.setF d v).f = r.f.set d (.ofNat 256 v) := rfl
@[simp] theorem Regs.setF_s (r : Regs) (d : FReg) (v : Nat) : (r.setF d v).s = r.s := rfl
@[simp] theorem Regs.setF_p (r : Regs) (d : FReg) (v : Nat) : (r.setF d v).p = r.p := rfl
@[simp] theorem Regs.setF_sig (r : Regs) (d : FReg) (v : Nat) : (r.setF d v).sig = r.sig := rfl
@[simp] theorem Regs.setF_vout (r : Regs) (d : FReg) (v : Nat) : (r.setF d v).vout = r.vout := rfl

@[simp] theorem Regs.setS_raw (r : Regs) (d : SReg) (v : Nat) : (r.setS d v).raw = r.raw := rfl
@[simp] theorem Regs.setS_f (r : Regs) (d : SReg) (v : Nat) : (r.setS d v).f = r.f := rfl
@[simp] theorem Regs.setS_s (r : Regs) (d : SReg) (v : Nat) : (r.setS d v).s = r.s.set d (.ofNat 256 v) := rfl
@[simp] theorem Regs.setS_p (r : Regs) (d : SReg) (v : Nat) : (r.setS d v).p = r.p := rfl
@[simp] theorem Regs.setS_sig (r : Regs) (d : SReg) (v : Nat) : (r.setS d v).sig = r.sig := rfl
@[simp] theorem Regs.setS_vout (r : Regs) (d : SReg) (v : Nat) : (r.setS d v).vout = r.vout := rfl

@[simp] theorem Regs.setP_raw (r : Regs) (d : PReg) (v : Point) : (r.setP d v).raw = r.raw := rfl
@[simp] theorem Regs.setP_f (r : Regs) (d : PReg) (v : Point) : (r.setP d v).f = r.f := rfl
@[simp] theorem Regs.setP_s (r : Regs) (d : PReg) (v : Point) : (r.setP d v).s = r.s := rfl
@[simp] theorem Regs.setP_p (r : Regs) (d : PReg) (v : Point) : (r.setP d v).p = r.p.set d (.ofPoint v) := rfl
@[simp] theorem Regs.setP_sig (r : Regs) (d : PReg) (v : Point) : (r.setP d v).sig = r.sig := rfl
@[simp] theorem Regs.setP_vout (r : Regs) (d : PReg) (v : Point) : (r.setP d v).vout = r.vout := rfl

@[simp] theorem Regs.setSig_raw (r : Regs) (g : Sig) : (r.setSig g).raw = r.raw := rfl
@[simp] theorem Regs.setSig_f (r : Regs) (g : Sig) : (r.setSig g).f = r.f := rfl
@[simp] theorem Regs.setSig_s (r : Regs) (g : Sig) : (r.setSig g).s = r.s := rfl
@[simp] theorem Regs.setSig_p (r : Regs) (g : Sig) : (r.setSig g).p = r.p := rfl
@[simp] theorem Regs.setSig_sig (r : Regs) (g : Sig) : (r.setSig g).sig = g := rfl
@[simp] theorem Regs.setSig_vout (r : Regs) (g : Sig) : (r.setSig g).vout = r.vout := rfl

@[simp] theorem Regs.setVout_raw (r : Regs) (v : Nat) : (r.setVout v).raw = r.raw := rfl
@[simp] theorem Regs.setVout_f (r : Regs) (v : Nat) : (r.setVout v).f = r.f := rfl
@[simp] theorem Regs.setVout_s (r : Regs) (v : Nat) : (r.setVout v).s = r.s := rfl
@[simp] theorem Regs.setVout_p (r : Regs) (v : Nat) : (r.setVout v).p = r.p := rfl
@[simp] theorem Regs.setVout_sig (r : Regs) (v : Nat) : (r.setVout v).sig = r.sig := rfl
@[simp] theorem Regs.setVout_vout (r : Regs) (v : Nat) : (r.setVout v).vout = .ofNat 64 v := rfl

@[simp] theorem Status.accepted_busy (t : Status) : (t.accepted).busy = true := rfl
@[simp] theorem Status.accepted_done (t : Status) : (t.accepted).done = false := rfl
@[simp] theorem Status.accepted_ok (t : Status) : (t.accepted).ok = false := rfl
@[simp] theorem Status.accepted_cond (t : Status) : (t.accepted).cond = false := rfl
@[simp] theorem Status.accepted_ovf (t : Status) : (t.accepted).ovf = false := rfl
@[simp] theorem Status.accepted_err (t : Status) : (t.accepted).err = none := rfl
@[simp] theorem Status.accepted_aerr (t : Status) : (t.accepted).aerr = t.aerr := rfl

@[simp] theorem Status.rejected_busy (t : Status) (e : CmdError) : (t.rejected e).busy = t.busy := rfl
@[simp] theorem Status.rejected_done (t : Status) (e : CmdError) : (t.rejected e).done = true := rfl
@[simp] theorem Status.rejected_ok (t : Status) (e : CmdError) : (t.rejected e).ok = false := rfl
@[simp] theorem Status.rejected_cond (t : Status) (e : CmdError) : (t.rejected e).cond = false := rfl
@[simp] theorem Status.rejected_ovf (t : Status) (e : CmdError) : (t.rejected e).ovf = false := rfl
@[simp] theorem Status.rejected_err (t : Status) (e : CmdError) : (t.rejected e).err = some e := rfl
@[simp] theorem Status.rejected_aerr (t : Status) (e : CmdError) : (t.rejected e).aerr = t.aerr := rfl

@[simp] theorem Status.completed_busy (t : Status) (ok cond ovf : Bool) : (t.completed ok cond ovf).busy = false := rfl
@[simp] theorem Status.completed_done (t : Status) (ok cond ovf : Bool) : (t.completed ok cond ovf).done = true := rfl
@[simp] theorem Status.completed_ok (t : Status) (ok cond ovf : Bool) : (t.completed ok cond ovf).ok = ok := rfl
@[simp] theorem Status.completed_cond (t : Status) (ok cond ovf : Bool) : (t.completed ok cond ovf).cond = cond := rfl
@[simp] theorem Status.completed_ovf (t : Status) (ok cond ovf : Bool) : (t.completed ok cond ovf).ovf = ovf := rfl
@[simp] theorem Status.completed_err (t : Status) (ok cond ovf : Bool) : (t.completed ok cond ovf).err = t.err := rfl
@[simp] theorem Status.completed_aerr (t : Status) (ok cond ovf : Bool) : (t.completed ok cond ovf).aerr = t.aerr := rfl

@[simp] theorem Status.accessError_busy (t : Status) : (t.accessError).busy = t.busy := rfl
@[simp] theorem Status.accessError_done (t : Status) : (t.accessError).done = t.done := rfl
@[simp] theorem Status.accessError_ok (t : Status) : (t.accessError).ok = t.ok := rfl
@[simp] theorem Status.accessError_cond (t : Status) : (t.accessError).cond = t.cond := rfl
@[simp] theorem Status.accessError_ovf (t : Status) : (t.accessError).ovf = t.ovf := rfl
@[simp] theorem Status.accessError_err (t : Status) : (t.accessError).err = t.err := rfl
@[simp] theorem Status.accessError_aerr (t : Status) : (t.accessError).aerr = true := rfl

@[simp] theorem Status.writeOneToClear_busy (t : Status) (w : Word) : (t.writeOneToClear w).busy = t.busy := rfl
@[simp] theorem Status.writeOneToClear_done (t : Status) (w : Word) : (t.writeOneToClear w).done = (t.done && !w.getLsbD 1) := rfl
@[simp] theorem Status.writeOneToClear_ok (t : Status) (w : Word) : (t.writeOneToClear w).ok = t.ok := rfl
@[simp] theorem Status.writeOneToClear_cond (t : Status) (w : Word) : (t.writeOneToClear w).cond = t.cond := rfl
@[simp] theorem Status.writeOneToClear_ovf (t : Status) (w : Word) : (t.writeOneToClear w).ovf = t.ovf := rfl
@[simp] theorem Status.writeOneToClear_err (t : Status) (w : Word) : (t.writeOneToClear w).err = t.err := rfl
@[simp] theorem Status.writeOneToClear_aerr (t : Status) (w : Word) : (t.writeOneToClear w).aerr = (t.aerr && !w.getLsbD 16) := rfl
@[simp] theorem State.src_of_job (s : State) (j : Job) (h : s.job = some j) : s.src = j.snap := by simp [State.src, h]
@[simp] theorem State.src_of_idle (s : State) (h : s.job = none) : s.src = s.regs := by simp [State.src, h]
@[simp] theorem State.seq_of_job (s : State) (j : Job) (h : s.job = some j) : s.seq = j.seq := by simp [State.seq, h]
@[simp] theorem State.seq_of_idle (s : State) (h : s.job = none) : s.seq = .direct := by simp [State.seq, h]

end Sys2Proof.Machine
end

