-- ==== Sys2Proof/Laws/Ops.lean ====
section
/-! SUPPORT. What each shared operation can do, said once: the ends of a command, submission, the host's accesses, reset. -/

set_option Elab.async false

namespace Sys2Proof.Machine

/-! ### The ends of a command -/

theorem completed_complete (s : State) (r : Regs) (ok cond ovf : Bool) :
    Completed s (s.complete r ok cond ovf) ok cond ovf := ⟨rfl, rfl, rfl, rfl, rfl, rfl, rfl, rfl, rfl⟩

/-- `finish` answers next, with the registers given. -/
theorem finish_next (s : State) (r : Regs) : ∃ t, finish s r = .next t ∧ t.regs = r ∧ Completed s t true false false :=
  ⟨_, rfl, rfl, completed_complete ..⟩

theorem finishCond_next (s : State) (b : Bool) :
    ∃ t, finishCond s b = .next t ∧ t.regs = s.regs ∧ Completed s t true b false :=
  ⟨_, rfl, rfl, completed_complete ..⟩

theorem finishOvf_next (s : State) (r : Regs) (ovf : Bool) :
    ∃ t, finishOvf s r ovf = .next t ∧ t.regs = r ∧ Completed s t true false ovf :=
  ⟨_, rfl, rfl, completed_complete ..⟩

/-- `None` leaves every register as it was, with OK = 0 (60_exceptions.md R303). -/
theorem finishOption_none {α : Type} (s : State) (write : α → Regs) :
    ∃ t, finishOption s none write = .next t ∧ t.regs = s.regs ∧ Completed s t false false false :=
  ⟨_, rfl, rfl, completed_complete ..⟩

theorem finishOption_some {α : Type} (s : State) (x : α) (write : α → Regs) :
    ∃ t, finishOption s (some x) write = .next t ∧ t.regs = write x ∧ Completed s t true false false :=
  ⟨_, rfl, rfl, completed_complete ..⟩

/-! ### Register writes -/

theorem onlyRaw_set {s t : State} {d : RReg} {v : Nat} (h : t.regs = s.regs.setRaw d v) : OnlyRaw s t d := by
  rw [OnlyRaw, h]
  exact ⟨fun i hi => vector_set_of_ne _ hi _, rfl, rfl, rfl, rfl, rfl⟩

theorem onlyF_set {s t : State} {d : FReg} {v : Nat} (h : t.regs = s.regs.setF d v) : OnlyF s t d := by
  rw [OnlyF, h]
  exact ⟨fun i hi => vector_set_of_ne _ hi _, rfl, rfl, rfl, rfl, rfl⟩

theorem onlyS_set {s t : State} {d : SReg} {v : Nat} (h : t.regs = s.regs.setS d v) : OnlyS s t d := by
  rw [OnlyS, h]
  exact ⟨fun i hi => vector_set_of_ne _ hi _, rfl, rfl, rfl, rfl, rfl⟩

theorem onlyP_set {s t : State} {d : PReg} {v : Point} (h : t.regs = s.regs.setP d v) : OnlyP s t d := by
  rw [OnlyP, h]
  exact ⟨fun i hi => vector_set_of_ne _ hi _, rfl, rfl, rfl, rfl, rfl⟩

theorem onlySig_set {s t : State} {g : Sig} (h : t.regs = s.regs.setSig g) : OnlySig s t := by
  rw [OnlySig, h]
  exact ⟨rfl, rfl, rfl, rfl, rfl⟩

theorem onlyVout_set {s t : State} {v : Nat} (h : t.regs = s.regs.setVout v) : OnlyVout s t := by
  rw [OnlyVout, h]
  exact ⟨rfl, rfl, rfl, rfl, rfl⟩

@[simp] theorem Regs.setRaw_raw_self (r : Regs) (d : RReg) (v : Nat) : (r.setRaw d v).raw[d] = .ofNat 256 v := by
  simp [Regs.setRaw]
@[simp] theorem Regs.setF_f_self (r : Regs) (d : FReg) (v : Nat) : (r.setF d v).f[d] = .ofNat 256 v := by
  simp [Regs.setF]
@[simp] theorem Regs.setS_s_self (r : Regs) (d : SReg) (v : Nat) : (r.setS d v).s[d] = .ofNat 256 v := by
  simp [Regs.setS]
@[simp] theorem Regs.setP_p_self (r : Regs) (d : PReg) (v : Point) : (r.setP d v).p[d] = .ofPoint v := by
  simp [Regs.setP]

theorem Regs.setF_toNat (r : Regs) (d : FReg) {v : Nat} (h : v < Config.p) : ((r.setF d v).f[d]).toNat = v := by
  rw [setF_f_self, BitVec.toNat_ofNat, Nat.mod_eq_of_lt (lt_trans h p_lt)]

theorem Regs.setS_toNat (r : Regs) (d : SReg) {v : Nat} (h : v < Config.n) : ((r.setS d v).s[d]).toNat = v := by
  rw [setS_s_self, BitVec.toNat_ofNat, Nat.mod_eq_of_lt (lt_trans h n_lt)]

theorem Regs.setP_pAt (r : Regs) (d : PReg) {q : Point} (h : q.Legal) : (r.setP d q).pAt d = q := by
  unfold pAt
  rw [setP_p_self, PointReg.toPoint_ofPoint h]

/-! ### Legal contents -/

theorem Regs.Legal.setRaw {r : Regs} (h : r.Legal) (d : RReg) (v : Nat) : (r.setRaw d v).Legal :=
  ⟨h.f_lt, h.s_lt, h.p_legal, h.sig_legal⟩

theorem Regs.Legal.setF {r : Regs} (h : r.Legal) (d : FReg) {v : Nat} (hv : v < Config.p) : (r.setF d v).Legal := by
  refine ⟨fun i => ?_, h.s_lt, h.p_legal, h.sig_legal⟩
  by_cases hi : i = d
  · subst hi; rw [setF_toNat r i hv]; exact hv
  · rw [show (r.setF d v).f[i] = r.f[i] from vector_set_of_ne _ hi _]; exact h.f_lt i

theorem Regs.Legal.setS {r : Regs} (h : r.Legal) (d : SReg) {v : Nat} (hv : v < Config.n) : (r.setS d v).Legal := by
  refine ⟨h.f_lt, fun i => ?_, h.p_legal, h.sig_legal⟩
  by_cases hi : i = d
  · subst hi; rw [setS_toNat r i hv]; exact hv
  · rw [show (r.setS d v).s[i] = r.s[i] from vector_set_of_ne _ hi _]; exact h.s_lt i

theorem Regs.Legal.setP {r : Regs} (h : r.Legal) (d : PReg) {q : Point} (hq : q.Legal) : (r.setP d q).Legal := by
  refine ⟨h.f_lt, h.s_lt, fun i => ?_, h.sig_legal⟩
  by_cases hi : i = d
  · subst hi; rw [setP_p_self]; exact PointReg.ofPoint_legal hq
  · rw [show (r.setP d q).p[i] = r.p[i] from vector_set_of_ne _ hi _]; exact h.p_legal i

theorem Regs.Legal.setSig {r : Regs} (h : r.Legal) {g : Sig} (hg : g.Legal) : (r.setSig g).Legal :=
  ⟨h.f_lt, h.s_lt, h.p_legal, hg⟩

theorem Regs.Legal.setVout {r : Regs} (h : r.Legal) (v : Nat) : (r.setVout v).Legal :=
  ⟨h.f_lt, h.s_lt, h.p_legal, h.sig_legal⟩

theorem Regs.Legal.pAt {r : Regs} (h : r.Legal) (i : PReg) : (r.pAt i).Legal := (h.p_legal i).toPoint

theorem freePoint_legal (inf x y : Word256) : (freePoint inf x y).Legal := by
  have mod_lt (v : Word256) : (BitVec.ofNat 256 (v.toNat % Config.p)).toNat < Config.p := by
    rw [BitVec.toNat_ofNat]
    exact lt_of_le_of_lt (Nat.mod_le _ _) (Nat.mod_lt _ p_pos)
  unfold freePoint
  split
  · exact ⟨p_pos, p_pos, fun _ => ⟨rfl, rfl⟩⟩
  · exact ⟨mod_lt x, mod_lt y, fun h => by simp at h⟩

/-- Reset leaves legal values (70_reset_and_hazards.md R342). -/
theorem Regs.free_legal (draw : Nat) : (Regs.free draw).Legal := by
  have below (m slot : Nat) (hm : 0 < m) : (BitVec.ofNat 256 ((Config.freeWord draw slot).toNat % m)).toNat < m := by
    rw [BitVec.toNat_ofNat]
    exact lt_of_le_of_lt (Nat.mod_le _ _) (Nat.mod_lt _ hm)
  refine ⟨fun i => ?_, fun i => ?_, fun i => ?_, ⟨below _ _ n_pos, below _ _ n_pos⟩⟩
  · simpa [free] using below Config.p (4 + i.val) p_pos
  · simpa [free] using below Config.n (12 + i.val) n_pos
  · simpa [free] using freePoint_legal _ _ _

/-! ### The map -/

theorem region_id : region 0x000 = .id := by decide +kernel
theorem region_status : region 0x004 = .status := by decide +kernel
theorem region_ctrl : region 0x008 = .ctrl := by decide +kernel
theorem region_cmd : region 0x00C = .cmd := by decide +kernel
theorem region_raw : ∀ (i : RReg) (j : Fin 8), region (Region.raw i j).off = .raw i j := by decide +kernel
theorem region_f : ∀ (i : FReg) (j : Fin 8), region (Region.f i j).off = .f i j := by decide +kernel
theorem region_s : ∀ (i : SReg) (j : Fin 8), region (Region.s i j).off = .s i j := by decide +kernel
theorem region_tag : ∀ i : PReg, region (Region.tag i).off = .tag i := by decide +kernel
theorem region_px : ∀ (i : PReg) (j : Fin 8), region (Region.px i j).off = .px i j := by decide +kernel
theorem region_py : ∀ (i : PReg) (j : Fin 8), region (Region.py i j).off = .py i j := by decide +kernel
theorem region_sigR : ∀ j : Fin 8, region (Region.sigR j).off = .sigR j := by decide +kernel
theorem region_sigS : ∀ j : Fin 8, region (Region.sigS j).off = .sigS j := by decide +kernel

/-- A mapped word's offset is aligned and leads to the word (20_memory.md R72). -/
theorem wordAccess_off (g : Region) : wordAccess g.off 4 = true := by
  have h : g.off.toNat % 4 = 0 := by
    cases g <;> simp only [Region.off, Region.offset, Option.getD, BitVec.toNat_ofNat] <;> omega
  simp [wordAccess, h]

theorem region_off (g : Region) (h : g ≠ .unmapped) : region g.off = g := by
  cases g with
  | raw i j => exact region_raw i j
  | f i j => exact region_f i j
  | s i j => exact region_s i j
  | tag i => exact region_tag i
  | px i j => exact region_px i j
  | py i j => exact region_py i j
  | sigR j => exact region_sigR j
  | sigS j => exact region_sigS j
  | unmapped => exact absurd rfl h
  | _ => decide +kernel

theorem hostRead_off (s : State) {g : Region} (h : g ≠ .unmapped) : s.hostRead g.off 4 = s.readRegion g := by
  rw [State.hostRead, if_pos (wordAccess_off g), region_off g h]

theorem hostWrite_off (s : State) {g : Region} (h : g ≠ .unmapped) (w : Word) :
    s.hostWrite g.off 4 w = s.writeRegion g w := by
  rw [State.hostWrite, if_pos (wordAccess_off g), region_off g h]

/-! The four control registers. -/

/-- Bit 0 of the word read from STATUS is BUSY (10_state.md R42). -/
theorem Status.toWord_busy (t : Status) : t.toWord.getLsbD 0 = t.busy := by
  obtain ⟨busy, done, ok, cond, ovf, err, aerr⟩ := t
  rcases err with _ | (_ | _ | _) <;> revert busy done ok cond ovf aerr <;> decide +kernel

theorem hostRead_id (s : State) : s.hostRead 0x000 4 = s.returns Config.idValue := hostRead_off s (g := .id) (by decide)
theorem hostRead_status (s : State) : s.hostRead 0x004 4 = s.returns s.status.toWord :=
  hostRead_off s (g := .status) (by decide)
theorem hostRead_ctrl (s : State) : s.hostRead 0x008 4 = s.returns (.ofNat 32 s.ie.toNat) :=
  hostRead_off s (g := .ctrl) (by decide)
theorem hostRead_cmd (s : State) : s.hostRead 0x00C 4 = s.returns s.cmd := hostRead_off s (g := .cmd) (by decide)
theorem hostWrite_status (s : State) (w : Word) :
    s.hostWrite 0x004 4 w = { s with status := s.status.writeOneToClear w } := hostWrite_off s (g := .status) (by decide) w
theorem hostWrite_ctrl (s : State) (w : Word) : s.hostWrite 0x008 4 w = s.writeCtrl w :=
  hostWrite_off s (g := .ctrl) (by decide) w
theorem hostWrite_cmd (s : State) (w : Word) : s.hostWrite 0x00C 4 w = s.writeCmd w :=
  hostWrite_off s (g := .cmd) (by decide) w

/-! ### Reads -/

/-- A read answers by `readData` and may draw or set AERR; everything else stays (20_memory.md R78: "A read has no side effect
other than setting AERR on an unmapped offset"). -/
theorem hostRead_frame (s : State) (off : BitVec 12) (bytes : Nat) :
    ∃ w draws, s.hostRead off bytes = { s with readData := w, draws := draws } ∨
      s.hostRead off bytes = { s with readData := w, status := s.status.accessError } := by
  have result (w : Word) : ∃ w' draws, s.readResult w = { s with readData := w', draws := draws } := by
    unfold State.readResult
    split
    · exact ⟨_, _, rfl⟩
    · exact ⟨_, _, rfl⟩
  unfold State.hostRead
  split
  · unfold State.readRegion
    split
    · exact ⟨_, _, .inl rfl⟩
    · exact ⟨_, _, .inl rfl⟩
    · exact ⟨_, _, .inl rfl⟩
    · exact ⟨_, _, .inl rfl⟩
    · exact ⟨_, _, .inl rfl⟩
    · split
      · obtain ⟨w', draws, h⟩ := result _
        exact ⟨w', draws, .inl h⟩
      · exact ⟨_, s.draws, .inr rfl⟩
  · exact ⟨_, s.draws, .inr rfl⟩

/-! ### Submission -/

/-- The two ends of `Submit(w)` (60_exceptions.md R301). -/
theorem submit_cases (s : State) (w : Word) :
    (∃ i, decode w = .ok i ∧ s.submit w = s.accept w i) ∨ ∃ e, decode w = .error e ∧ s.submit w = s.reject e := by
  unfold State.submit
  split
  · next e h => exact .inr ⟨e, h, rfl⟩
  · next i h => exact .inl ⟨i, h, rfl⟩

/-! ### Writes -/

/-- Everything a host write can do (20_memory.md R79). -/
theorem hostWrite_cases (s : State) (off : BitVec 12) (bytes : Nat) (w : Word) :
    (off = 0x004 ∧ bytes = 4 ∧ s.hostWrite off bytes w = { s with status := s.status.writeOneToClear w }) ∨
    (off = 0x008 ∧ bytes = 4 ∧ w.getLsbD 1 = true ∧ s.hostWrite off bytes w = s.resetEngine) ∨
    (off = 0x008 ∧ bytes = 4 ∧ w.getLsbD 1 = false ∧ s.hostWrite off bytes w = { s with ie := w.getLsbD 0 }) ∨
    (off = 0x00C ∧ bytes = 4 ∧ s.status.busy = false ∧ s.hostWrite off bytes w = s.submit w) ∨
    (∃ i j, off = (Region.raw i j).off ∧ bytes = 4 ∧ s.status.busy = false ∧
      s.hostWrite off bytes w =
        { s with regs := { s.regs with raw := s.regs.raw.set i (setWordOf s.regs.raw[i] j w) } }) ∨
    s.hostWrite off bytes w = s.accessError := by
  have known : ∀ o : BitVec 12, o.toNat % 4 = 0 → (region o = .status → o = 0x004) ∧ (region o = .ctrl → o = 0x008) ∧
      (region o = .cmd → o = 0x00C) ∧ ∀ i j, region o = .raw i j → o = (Region.raw i j).off := by
    intro o ho
    have hlt : o.toNat < 4096 := o.isLt
    have key : ∀ m < 1024, (region (.ofNat 12 (4 * m)) = .status → BitVec.ofNat 12 (4 * m) = 0x004) ∧
        (region (.ofNat 12 (4 * m)) = .ctrl → BitVec.ofNat 12 (4 * m) = 0x008) ∧
        (region (.ofNat 12 (4 * m)) = .cmd → BitVec.ofNat 12 (4 * m) = 0x00C) ∧
        ∀ i j, region (.ofNat 12 (4 * m)) = .raw i j → BitVec.ofNat 12 (4 * m) = (Region.raw i j).off := by
      decide +kernel
    have e : o = BitVec.ofNat 12 (4 * (o.toNat / 4)) := by
      rw [Nat.mul_div_cancel' (Nat.dvd_of_mod_eq_zero ho)]; simp
    rw [e]
    exact key _ (by omega)
  unfold State.hostWrite
  split
  · next ha =>
    simp only [wordAccess, Bool.and_eq_true, beq_iff_eq] at ha
    obtain ⟨hb, ho⟩ := ha
    obtain ⟨k1, k2, k3, k4⟩ := known off ho
    unfold State.writeRegion
    split
    · next h => exact .inl ⟨k1 h, hb, rfl⟩
    · next h =>
      unfold State.writeCtrl
      cases hw : w.getLsbD 1 with
      | true => exact .inr (.inl ⟨k2 h, hb, rfl, rfl⟩)
      | false => exact .inr (.inr (.inl ⟨k2 h, hb, rfl, rfl⟩))
    · next h =>
      unfold State.writeCmd
      cases hs : s.status.busy with
      | true => exact .inr (.inr (.inr (.inr (.inr rfl))))
      | false => exact .inr (.inr (.inr (.inl ⟨k3 h, hb, rfl, rfl⟩)))
    · next i j h =>
      unfold State.writeRaw
      cases hs : s.status.busy with
      | true => exact .inr (.inr (.inr (.inr (.inr rfl))))
      | false => exact .inr (.inr (.inr (.inr (.inl ⟨i, j, k4 i j h, hb, rfl, rfl⟩))))
    · exact .inr (.inr (.inr (.inr (.inr rfl))))
  · exact .inr (.inr (.inr (.inr (.inr rfl))))

end Sys2Proof.Machine
end

