-- ==== Sys2Proof/Laws/Sequencer.lean ====
section
/-! SUPPORT. Where a running command can stand, and that its result does not depend on it (10_state.md R52,
60_exceptions.md R305, 70_reset_and_hazards.md R352). -/

set_option Elab.async false

namespace Sys2Proof.Machine

/-! ### Iterations -/

theorem Sequencer.run_succ (hm : HmacKind) (r : Regs) (i : Instr) : ∀ (m : Nat) (q : Sequencer),
    Sequencer.run hm r i (m + 1) q = (Sequencer.run hm r i m q).tick hm r i
  | 0, _ => rfl
  | m + 1, q => Sequencer.run_succ hm r i m (q.tick hm r i)

theorem Sequencer.run_add (hm : HmacKind) (r : Regs) (i : Instr) (q : Sequencer) (a : Nat) : ∀ b : Nat,
    Sequencer.run hm r i (a + b) q = Sequencer.run hm r i b (Sequencer.run hm r i a q)
  | 0 => rfl
  | b + 1 => by rw [← Nat.add_assoc, run_succ, run_add hm r i q a b, run_succ]

/-- A property that the start has and every iteration keeps holds wherever a coherent command stands. -/
theorem Job.Coherent.induction {j : Job} {hm : HmacKind} {i : Instr} (h : j.Coherent hm i) (motive : Sequencer → Prop)
    (start : motive (Sequencer.start hm j.snap i))
    (tick : ∀ q, motive q → motive (q.tick hm j.snap i)) : motive j.seq := by
  obtain ⟨-, m, hm'⟩ := h
  rw [hm']
  clear hm'
  induction m with
  | zero => exact start
  | succ m ih => rw [Sequencer.run_succ]; exact tick _ ih

theorem Job.Coherent.engine {j : Job} {hm : HmacKind} {i : Instr} (h : j.Coherent hm i) (iterations : Nat) :
    ({ j with seq := j.seq.run hm j.snap i iterations } : Job).Coherent hm i := by
  obtain ⟨hd, m, hm'⟩ := h
  exact ⟨hd, m + iterations, by rw [Sequencer.run_add, ← hm']⟩

/-! ### Scalar multiplications -/

/-- The loop of `pt_smul(a, k)` somewhere on its way. -/
def Sequencer.OnSmul (q : Sequencer) (a : Point) (k : Nat) : Prop :=
  ∃ acc addend bit, q = .smul k acc addend bit ∧ smulRest k acc addend bit = ptSmul a k

theorem Sequencer.startSmul_onSmul (k : Nat) (a : Point) : (Sequencer.startSmul k a).OnSmul a k :=
  ⟨_, _, _, rfl, rfl⟩

theorem Sequencer.OnSmul.product {q : Sequencer} {a : Point} {k : Nat} (h : q.OnSmul a k) :
    q.product a k = ptSmul a k := by
  obtain ⟨acc, addend, bit, rfl, hr⟩ := h
  exact hr

/-- A command with one multiplication: nothing follows a finished product. -/
def OneProduct (i : Instr) : Prop :=
  ∀ (r : Regs) (k : Nat) (acc addend : Point) (bit : Nat),
    Sequencer.afterFirst r k acc addend bit i = .smul k acc addend bit

theorem Sequencer.OnSmul.tick {q : Sequencer} {a : Point} {k : Nat} {i : Instr} (hi : OneProduct i) (hm : HmacKind) (r : Regs)
    (h : q.OnSmul a k) : (q.tick hm r i).OnSmul a k := by
  obtain ⟨acc, addend, bit, rfl, hr⟩ := h
  simp only [Sequencer.tick]
  by_cases hb : bit < 256
  · rw [if_pos hb]
    exact ⟨_, _, _, rfl, by rw [← smulRest_step hb, hr]⟩
  · rw [if_neg hb, hi]
    exact ⟨_, _, _, rfl, hr⟩

theorem Job.Coherent.onSmul {j : Job} {hm : HmacKind} {i : Instr} (h : j.Coherent hm i) (hi : OneProduct i) {a : Point} {k : Nat}
    (hs : Sequencer.start hm j.snap i = .startSmul k a) : j.seq.OnSmul a k :=
  h.induction (·.OnSmul a k) (hs ▸ Sequencer.startSmul_onSmul k a) fun _ hq => hq.tick hi hm j.snap

/-- PT_MUL completes with `pt_smul(P[a], RAW[b])` (42_point.md R209). -/
theorem Job.Coherent.ptMul {j : Job} {hm : HmacKind} {d a : PReg} {b : RReg} (h : j.Coherent hm (.ptMul d a b)) :
    j.seq.product (j.snap.pAt a) (j.snap.rawAt b) = ptSmul (j.snap.pAt a) (j.snap.rawAt b) :=
  (h.onSmul (fun _ _ _ _ _ => rfl) rfl).product

/-- PT_MULG completes with `pt_smul(G, RAW[a])` (42_point.md R210). -/
theorem Job.Coherent.ptMulg {j : Job} {hm : HmacKind} {d : PReg} {a : RReg} (h : j.Coherent hm (.ptMulg d a)) :
    j.seq.product generator (j.snap.rawAt a) = ptSmul generator (j.snap.rawAt a) :=
  (h.onSmul (fun _ _ _ _ _ => rfl) rfl).product

/-- EC_PUBKEY completes with `pt_smul(G, S[a])` (43_ecdsa.md R251). -/
theorem Job.Coherent.ecPubkey {j : Job} {hm : HmacKind} {d : PReg} {a : SReg} (h : j.Coherent hm (.ecPubkey d a)) :
    j.seq.product generator (j.snap.sAt a) = ptSmul generator (j.snap.sAt a) :=
  (h.onSmul (fun _ _ _ _ _ => rfl) rfl).product

/-- EC_SIGN's first step is `R = pt_smul(G, k)` (43_ecdsa.md R245). -/
theorem Job.Coherent.ecSign {j : Job} {hm : HmacKind} {a b c : SReg} (h : j.Coherent hm (.ecSign a b c)) :
    j.seq.product generator (j.snap.sAt c) = ptSmul generator (j.snap.sAt c) :=
  (h.onSmul (fun _ _ _ _ _ => rfl) rfl).product

/-! ### EC_VERIFY -/

/-- Where EC_VERIFY can stand once its two multipliers are known. -/
def Sequencer.OnVerify (s : Sequencer) (q : Point) (u1 u2 : Nat) : Prop :=
  s.OnSmul Machine.generator u1 ∨
    ∃ acc addend bit, s = .smul2 u2 (ptSmul Machine.generator u1) acc addend bit ∧ smulRest u2 acc addend bit = ptSmul q u2

theorem Sequencer.OnVerify.tick {s : Sequencer} {u1 u2 : Nat} {a : PReg} {b : SReg} (hm : HmacKind) {r : Regs}
    (hv : verifyScalars (r.pAt a) (r.sAt b) r.sig = some (u1, u2)) (h : s.OnVerify (r.pAt a) u1 u2) :
    (s.tick hm r (.ecVerify a b)).OnVerify (r.pAt a) u1 u2 := by
  rcases h with ⟨acc, addend, bit, rfl, hr⟩ | ⟨acc, addend, bit, rfl, hr⟩ <;> simp only [Sequencer.tick] <;>
    by_cases hb : bit < 256
  · rw [if_pos hb]
    exact .inl ⟨_, _, _, rfl, by rw [← smulRest_step hb, hr]⟩
  · rw [if_neg hb]
    simp only [Sequencer.afterFirst, hv]
    refine .inr ⟨_, _, _, ?_, rfl⟩
    rw [← hr, smulRest_end (by omega)]
  · rw [if_pos hb]
    exact .inr ⟨_, _, _, rfl, by rw [← smulRest_step hb, hr]⟩
  · rw [if_neg hb]
    exact .inr ⟨_, _, _, rfl, hr⟩

/-- EC_VERIFY completes with `pt_smul(G, u1) + pt_smul(Q, u2)` wherever it stands (43_ecdsa.md R249). -/
theorem Job.Coherent.ecVerify {j : Job} {hm : HmacKind} {a : PReg} {b : SReg} (h : j.Coherent hm (.ecVerify a b)) {u1 u2 : Nat}
    (hv : verifyScalars (j.snap.pAt a) (j.snap.sAt b) j.snap.sig = some (u1, u2)) :
    j.seq.verifySum (j.snap.pAt a) u1 u2 = ptAdd (ptSmul generator u1) (ptSmul (j.snap.pAt a) u2) := by
  have hs : j.seq.OnVerify (j.snap.pAt a) u1 u2 := by
    refine h.induction (·.OnVerify (j.snap.pAt a) u1 u2) ?_ fun _ hq => hq.tick hm hv
    simp only [Sequencer.start, hv]
    exact .inl (Sequencer.startSmul_onSmul u1 generator)
  rcases hs with hs | ⟨acc, addend, bit, hq, hr⟩
  · have hp := hs.product
    obtain ⟨acc, addend, bit, hq, -⟩ := hs
    rw [hq] at hp ⊢
    rw [Sequencer.verifySum, hp]
    simp
  · rw [hq]
    simp only [Sequencer.verifySum, hr]

/-! ### The RFC 6979 generator -/

/-- `g` is `g0` after some rejected candidates (43_ecdsa.md R242, R243). -/
def Generator.Reaches (hm : HmacKind) (g0 g : Generator) : Prop :=
  ∃ rejected, ∀ fuel, candidateLoop hm (rejected + fuel) g0 = candidateLoop hm fuel g

theorem Generator.Reaches.refl (hm : HmacKind) (g : Generator) : Generator.Reaches hm g g := ⟨0, fun fuel => by simp⟩

theorem Generator.Reaches.afterReject {hm : HmacKind} {g0 g : Generator} (h : Generator.Reaches hm g0 g)
    (hr : acceptable (g.candidate hm) = false) : Generator.Reaches hm g0 (g.afterReject hm) := by
  obtain ⟨rejected, h⟩ := h
  refine ⟨rejected + 1, fun fuel => ?_⟩
  rw [Nat.add_assoc, h, Nat.add_comm 1, candidateLoop, hr]
  rfl

/-- An accepted candidate of a generator on its way from the seed is the generator's result. -/
theorem Generator.Reaches.result {hm : HmacKind} {g0 g : Generator} (h : Generator.Reaches hm g0 g)
    (ha : acceptable (g.candidate hm) = true) : ∃ fuel, candidateLoop hm fuel g0 = some (g.candidate hm) := by
  obtain ⟨rejected, h⟩ := h
  exact ⟨rejected + 1, by rw [h, candidateLoop, if_pos ha]⟩

/-- The loop's result does not depend on the fuel. -/
theorem candidateLoop_mono {hm : HmacKind} {k : Word256} : ∀ (fuel more : Nat) (g : Generator),
    candidateLoop hm fuel g = some k → candidateLoop hm (fuel + more) g = some k
  | 0, _, _, h => by simp [candidateLoop] at h
  | fuel + 1, more, g, h => by
    rw [Nat.add_right_comm]
    unfold candidateLoop at h ⊢
    split_ifs at h ⊢ with ha
    · exact h
    · exact candidateLoop_mono fuel more _ h

theorem candidateLoop_unique {hm : HmacKind} {k k' : Word256} {fuel fuel' : Nat} {g : Generator}
    (h : candidateLoop hm fuel g = some k) (h' : candidateLoop hm fuel' g = some k') : k = k' := by
  have e := candidateLoop_mono fuel fuel' g h
  rw [Nat.add_comm, candidateLoop_mono fuel' fuel g h'] at e
  exact (Option.some.inj e).symm

theorem candidateLoop_acceptable {hm : HmacKind} {k : Word256} : ∀ (fuel : Nat) (g : Generator),
    candidateLoop hm fuel g = some k → acceptable k = true
  | 0, _, h => by simp [candidateLoop] at h
  | fuel + 1, g, h => by
    unfold candidateLoop at h
    split_ifs at h with ha
    · rwa [← Option.some.inj h]
    · exact candidateLoop_acceptable fuel _ h

theorem acceptable_iff (t : Word256) : acceptable t = true ↔ 0 < t.toNat ∧ t.toNat < Config.n := by
  simp [acceptable]

/-- EC_GENK stands at its generator (10_state.md R52). -/
theorem Job.Coherent.ecGenk {j : Job} {hm : HmacKind} {d a : SReg} {b : RReg} (h : j.Coherent hm (.ecGenk d a b)) :
    ∃ g, j.seq = .gen g ∧ Generator.Reaches hm (seedGenerator hm j.snap.s[a] (j.snap.rawAt b)) g := by
  refine h.induction (fun q => ∃ g, q = .gen g ∧ Generator.Reaches hm (seedGenerator hm j.snap.s[a] (j.snap.rawAt b)) g)
    ⟨_, rfl, .refl _ _⟩ ?_
  rintro q ⟨g, rfl, hg⟩
  simp only [Sequencer.tick]
  split_ifs with ha
  · exact ⟨g, rfl, hg⟩
  · exact ⟨_, rfl, hg.afterReject (by simpa using ha)⟩

/-- Where EC_SIGNH can stand: at its generator, or in the multiplication by the nonce the generator gave. -/
theorem Job.Coherent.ecSignh {j : Job} {hm : HmacKind} {a : SReg} {b : RReg} (h : j.Coherent hm (.ecSignh a b)) :
    (∃ g, j.seq = .gen g ∧ Generator.Reaches hm (seedGenerator hm j.snap.s[a] (j.snap.rawAt b)) g) ∨
    ∃ k : Word256, (∃ fuel, generateK hm fuel j.snap.s[a] (j.snap.rawAt b) = some k) ∧ j.seq.OnSmul generator k.toNat := by
  refine h.induction (fun q => (∃ g, q = .gen g ∧ Generator.Reaches hm (seedGenerator hm j.snap.s[a] (j.snap.rawAt b)) g) ∨
    ∃ k : Word256, (∃ fuel, generateK hm fuel j.snap.s[a] (j.snap.rawAt b) = some k) ∧ q.OnSmul generator k.toNat)
    (.inl ⟨_, rfl, .refl _ _⟩) ?_
  rintro q (⟨g, rfl, hg⟩ | ⟨k, hk, hq⟩)
  · simp only [Sequencer.tick]
    split_ifs with ha
    · exact .inr ⟨_, hg.result ha, Sequencer.startSmul_onSmul _ _⟩
    · exact .inl ⟨_, rfl, hg.afterReject (by simpa using ha)⟩
  · exact .inr ⟨k, hk, hq.tick (fun _ _ _ _ _ => rfl) hm j.snap⟩

end Sys2Proof.Machine
end

