-- ==== Sys2Proof/Laws/Exec.lean ====
section
/-! SUPPORT. What a completing step can do, said once (60_exceptions.md R305): it completes the command, or, for EC_GENK and
EC_SIGNH, draws another candidate. -/

set_option Elab.async false

namespace Sys2Proof.Machine

/-- A command that may draw another candidate (70_reset_and_hazards.md R353). -/
def Draws : Instr → Prop
  | .ecGenk _ _ _ => True
  | .ecSignh _ _ => True
  | _ => False

/-- The two ends of a completing step. A rejected candidate is the one the sequencer's generator gives. -/
theorem exec_cases (i : Instr) (s : State) :
    (∃ r ok cond ovf, exec i s = .next (s.complete r ok cond ovf)) ∨
      (Draws i ∧ ∃ g, (∀ g0, s.seq = .gen g0 → g = g0) ∧ acceptable (g.candidate s.hmac) = false ∧
        exec i s = .next (s.redraw i g)) := by
  have gen (q : Sequencer) (x : Word256) (b : Nat) : ∀ g0, q = .gen g0 → q.generator s.hmac x b = g0 := by
    rintro g0 rfl; rfl
  cases i with
  | ecGenk d a b =>
    simp only [exec, execEcGenk]
    split_ifs with h
    · exact .inl ⟨_, _, _, _, rfl⟩
    · exact .inr ⟨trivial, _, gen _ _ _, by simpa using h, rfl⟩
  | ecSignh a b =>
    simp only [exec, execEcSignh]
    split
    · exact .inl ⟨_, _, _, _, rfl⟩
    · split_ifs with h
      · exact .inl ⟨_, _, _, _, rfl⟩
      · exact .inr ⟨trivial, _, gen _ _ _, by simpa using h, rfl⟩
  | _ => exact .inl ⟨_, _, _, _, rfl⟩

/-- No meaning stops. -/
theorem exec_next (i : Instr) (s : State) : ∃ t, exec i s = .next t := by
  rcases exec_cases i s with ⟨_, _, _, _, h⟩ | ⟨-, _, -, -, h⟩ <;> exact ⟨_, h⟩

/-- A running command of a coherent state is where its command can be. -/
theorem State.Coherent.job_coherent {s : State} (h : s.Coherent) {i : Instr} (hr : s.Running i) :
    ∃ j, s.job = some j ∧ s.src = j.snap ∧ s.seq = j.seq ∧ j.snap = s.regs ∧ j.Coherent s.hmac i := by
  obtain ⟨j, hj, hd⟩ := hr
  obtain ⟨i', hi'⟩ := h.onItsWay j hj
  obtain rfl : i' = i := by
    have := hi'.1.symm.trans hd
    exact Except.ok.inj this
  exact ⟨j, hj, by simp [State.src, hj], by simp [State.seq, hj], h.snap_eq j hj, hi'⟩

end Sys2Proof.Machine
end

