-- ==== Sys2Proof/Laws/GeneratorOrder.lean ====
section
/-! SUPPORT. `n · G` is the identity and no smaller positive multiple is (00_scope.md R10, 42_point.md R206). The multiple is computed
without inversions, in Jacobian coordinates `(X / Z², Y / Z³)`. -/

set_option Elab.async false

namespace Sys2Proof.Machine

open WeierstrassCurve

/-- A point as `(X, Y, Z)`, standing for `(X / Z², Y / Z³)`. -/
structure Jacobian where
  X : Nat
  Y : Nat
  Z : Nat

/-- The coordinates brought to numerals. -/
def Jacobian.settled (x y z : Nat) : Jacobian :=
  forced x fun x => forced y fun y => forced z fun z => ⟨x, y, z⟩

/-- Twice the point; `none` where `Y = 0`. -/
def Jacobian.dbl (s : Jacobian) : Option Jacobian :=
  if s.Y = 0 then none
  else
    forced (mulP s.Y s.Y) fun yy =>
    forced (mulP 4 (mulP s.X yy)) fun t =>
    forced (mulP 3 (mulP s.X s.X)) fun m =>
    forced (subP (mulP m m) (addP t t)) fun x =>
    some (.settled x (subP (mulP m (subP t x)) (mulP 8 (mulP yy yy))) (mulP 2 (mulP s.Y s.Z)))

/-- The point plus the affine point `(a, b)`; `none` where the x-coordinates agree. -/
def Jacobian.addAffine (s : Jacobian) (a b : Nat) : Option Jacobian :=
  forced (mulP s.Z s.Z) fun zz =>
  forced (subP (mulP a zz) s.X) fun h =>
  forced (subP (mulP b (mulP zz s.Z)) s.Y) fun r =>
  if h = 0 then none
  else
    forced (mulP h h) fun hh =>
    forced (mulP s.X hh) fun v =>
    forced (mulP hh h) fun hhh =>
    forced (subP (subP (mulP r r) hhh) (addP v v)) fun x =>
    some (.settled x (subP (mulP r (subP v x)) (mulP s.Y hhh)) (mulP h s.Z))

/-- Double-and-add over the bits of `k` below `fuel`, the most significant first. -/
def Jacobian.ladder (a b k : Nat) : Nat → Jacobian → Option Jacobian
  | 0, s => some s
  | i + 1, s =>
    match s.dbl with
    | none => none
    | some d =>
      if k.testBit i then
        match d.addAffine a b with
        | none => none
        | some e => Jacobian.ladder a b k i e
      else Jacobian.ladder a b k i d

@[simp] theorem Jacobian.settled_eq (x y z : Nat) : Jacobian.settled x y z = ⟨x, y, z⟩ := by simp [Jacobian.settled]

section

variable [Fact (Nat.Prime Config.p)]

/-- The triple stands for the group element. -/
def Jacobian.Stands (s : Jacobian) (q : curve.Point) : Prop :=
  (s.Z : ZMod Config.p) ≠ 0 ∧ ∃ (x y : ZMod Config.p) (h : curve.Nonsingular x y),
    q = .some x y h ∧ x * s.Z ^ 2 = s.X ∧ y * s.Z ^ 3 = s.Y

theorem Jacobian.Stands.dbl {s t : Jacobian} {q : curve.Point} (hs : s.Stands q) (hlt : s.Y < Config.p)
    (ht : s.dbl = some t) : t.Stands (2 • q) ∧ t.Y < Config.p := by
  obtain ⟨hz, x, y, hns, rfl, hx, hy⟩ := hs
  unfold Jacobian.dbl at ht
  split at ht
  · cases ht
  · next h0 =>
    simp only [forced_eq, Jacobian.settled_eq, Option.some.injEq] at ht
    subst ht
    have hY : (s.Y : ZMod Config.p) ≠ 0 := fun h => h0 ((cast_eq_zero hlt).1 h)
    have hy0 : y ≠ 0 := by rintro rfl; exact hY (by rw [← hy, zero_mul])
    have hne : y ≠ curve.negY x y := by rw [curve_negY, Ne, eq_neg_iff_zero]; exact hy0
    have h2 := two_ne_zero_p
    refine ⟨⟨?_, ?_⟩, subP_lt _ _⟩
    · simp only [cast_mulP]; push_cast; exact mul_ne_zero h2 (mul_ne_zero hY hz)
    · rw [two_nsmul, Affine.Point.add_of_Y_ne hne]
      refine ⟨_, _, _, rfl, ?_, ?_⟩
      · simp only [Affine.addX, Affine.slope_of_Y_ne rfl hne, curve_negY, cast_mulP, cast_subP, cast_addP]
        simp only [curve]
        push_cast
        rw [← hx, ← hy, show y - -y = 2 * y by ring]
        field_simp
        ring
      · simp only [Affine.addY, Affine.negAddY, Affine.addX, Affine.slope_of_Y_ne rfl hne, curve_negY, cast_mulP, cast_subP,
          cast_addP]
        simp only [curve]
        push_cast
        rw [← hx, ← hy, show y - -y = 2 * y by ring]
        field_simp
        ring

theorem Jacobian.Stands.addAffine {s t : Jacobian} {q : curve.Point} {a b : Nat} (hs : s.Stands q)
    (hab : curve.Nonsingular (a : ZMod Config.p) b) (ht : s.addAffine a b = some t) :
    t.Stands (q + .some _ _ hab) ∧ t.Y < Config.p := by
  obtain ⟨hz, x, y, hns, rfl, hx, hy⟩ := hs
  simp only [Jacobian.addAffine, forced_eq, Jacobian.settled_eq] at ht
  split at ht
  · cases ht
  · next h0 =>
    simp only [Option.some.injEq] at ht
    subst ht
    have hH : ((subP (mulP a (mulP s.Z s.Z)) s.X : Nat) : ZMod Config.p) ≠ 0 :=
      fun h => h0 ((cast_eq_zero (subP_lt _ _)).1 h)
    have hH' : ((a : ZMod Config.p) - x) ≠ 0 := by
      intro h
      apply hH
      simp only [cast_subP, cast_mulP]
      rw [← hx]
      linear_combination (s.Z : ZMod Config.p) ^ 2 * h
    have hX : x ≠ (a : ZMod Config.p) := fun h => hH' (by rw [h, sub_self])
    refine ⟨⟨?_, ?_⟩, subP_lt _ _⟩
    · rw [cast_mulP]; exact mul_ne_zero hH hz
    · rw [Affine.Point.add_of_X_ne hX]
      have hs : (y - b) / (x - (a : ZMod Config.p)) = (b - y) / (a - x) := by
        rw [← neg_sub (b : ZMod Config.p), ← neg_sub (a : ZMod Config.p), neg_div_neg_eq]
      refine ⟨_, _, _, rfl, ?_, ?_⟩
      · simp only [Affine.addX, Affine.slope_of_X_ne hX, hs, cast_mulP, cast_subP, cast_addP]
        simp only [curve]
        rw [← hx, ← hy]
        field_simp
        ring
      · simp only [Affine.addY, Affine.negAddY, Affine.addX, Affine.slope_of_X_ne hX, hs, curve_negY, cast_mulP, cast_subP,
          cast_addP]
        simp only [curve]
        rw [← hx, ← hy]
        field_simp
        ring

theorem Jacobian.Stands.ladder {a b k : Nat} (hab : curve.Nonsingular (a : ZMod Config.p) b) :
    ∀ (i : Nat) {s t : Jacobian}, s.Stands ((k / 2 ^ i) • (.some _ _ hab : curve.Point)) → s.Y < Config.p →
      Jacobian.ladder a b k i s = some t → t.Stands (k • (.some _ _ hab : curve.Point))
  | 0, s, t, hs, _, ht => by
    simp only [Jacobian.ladder, Option.some.injEq] at ht
    subst ht; simpa using hs
  | i + 1, s, t, hs, hlt, ht => by
    have hk : k / 2 ^ i = 2 * (k / 2 ^ (i + 1)) + (k / 2 ^ i) % 2 := by
      rw [pow_succ, ← Nat.div_div_eq_div_mul]; omega
    unfold Jacobian.ladder at ht
    split at ht
    · cases ht
    · next d hd =>
      obtain ⟨hd1, hd2⟩ := hs.dbl hlt hd
      rw [← mul_nsmul'] at hd1
      rw [Nat.testBit_eq_decide_div_mod_eq] at ht
      rcases Nat.mod_two_eq_zero_or_one (k / 2 ^ i) with h | h
      · simp only [h, zero_ne_one, decide_false, Bool.false_eq_true, if_false] at ht
        refine Jacobian.Stands.ladder hab i ?_ hd2 ht
        rwa [hk, h, add_zero]
      · simp only [h, decide_true, if_true] at ht
        split at ht
        · cases ht
        · next e he =>
          obtain ⟨he1, he2⟩ := hd1.addAffine hab he
          refine Jacobian.Stands.ladder hab i ?_ he2 ht
          rwa [hk, h, add_nsmul, one_nsmul]

/-- The triple is the negative of the affine point `(a, b)`. -/
def Jacobian.isNeg (s : Jacobian) (a b : Nat) : Bool :=
  s.X == mulP a (mulP s.Z s.Z) && s.Y == subP 0 (mulP b (mulP s.Z (mulP s.Z s.Z)))

omit [Fact (Nat.Prime Config.p)] in
/-- `(n - 1) · G = -G`, by computation. -/
theorem ladder_order :
    (match Jacobian.ladder Config.gx Config.gy (Config.n - 1) 255 ⟨Config.gx, Config.gy, 1⟩ with
      | none => false
      | some t => t.isNeg Config.gx Config.gy) = true := by
  decide +kernel

/-- `n · G` is the identity (00_scope.md R10). -/
theorem order_nsmul_generator : Config.n • toGroup generator = 0 := by
  have hG := nonsingular_of_onCurve generator_onCurve
  have hlad := ladder_order
  split at hlad
  · cases hlad
  · next t ht =>
    have hstart : (⟨Config.gx, Config.gy, 1⟩ : Jacobian).Stands
        (((Config.n - 1) / 2 ^ 255) • (.some _ _ hG : curve.Point)) := by
      rw [show (Config.n - 1) / 2 ^ 255 = 1 by decide, one_nsmul]
      exact ⟨by simp, _, _, hG, rfl, by simp, by simp⟩
    obtain ⟨hz, x, y, hns, hq, hx, hy⟩ := Jacobian.Stands.ladder hG 255 hstart (by decide) ht
    simp only [Jacobian.isNeg, Bool.and_eq_true, beq_iff_eq] at hlad
    have hX := congrArg (Nat.cast : Nat → ZMod Config.p) hlad.1
    have hY := congrArg (Nat.cast : Nat → ZMod Config.p) hlad.2
    simp only [cast_mulP, cast_subP, Nat.cast_zero] at hX hY
    have ex : x = (Config.gx : ZMod Config.p) :=
      mul_right_cancel₀ (pow_ne_zero 2 hz) (by rw [hx, hX]; ring)
    have ey : y = -(Config.gy : ZMod Config.p) :=
      mul_right_cancel₀ (pow_ne_zero 3 hz) (by rw [hy, hY]; ring)
    rw [show Config.n = (Config.n - 1) + 1 by decide, add_nsmul, one_nsmul, generator, toGroup_aff hG, hq]
    exact Affine.Point.add_of_Y_eq ex (by rw [curve_negY, ey])

/-- A multiple of `G` is the identity exactly when `n` divides the multiplier. -/
theorem nsmul_generator_eq_zero_iff (k : Nat) : k • toGroup generator = 0 ↔ Config.n ∣ k := by
  have hne : toGroup generator ≠ 0 := by
    rw [generator, toGroup_aff (nonsingular_of_onCurve generator_onCurve)]
    simp [Affine.Point.zero_def]
  have ho : addOrderOf (toGroup generator) = Config.n := by
    have : Fact (Nat.Prime Config.n) := ⟨prime_n⟩
    exact addOrderOf_eq_prime order_nsmul_generator hne
  rw [← ho, addOrderOf_dvd_iff_nsmul_eq_zero]

end

end Sys2Proof.Machine
end

