-- ==== Sys2Proof/Laws/PerInstr.lean ====
section
/-! SUPPORT. Per-instruction laws. EncodeLegal: the word of every command is one of the table's legal words
(30_encoding.md R120). -/

set_option Elab.async false

namespace Sys2Proof.Laws.EncodeLegal

/-- The command's word fits its row of the opcode table. -/
def Statement (i : Instr) : Prop := wellFormed (encode i) = true

theorem nop : Statement .nop := by unfold Statement; decide
theorem feNew (d : FReg) (a : RReg) : Statement (.feNew d a) := by unfold Statement; revert d a; decide +kernel
theorem feAdd (d : FReg) (a : FReg) (b : FReg) : Statement (.feAdd d a b) := by unfold Statement; revert d a b; decide +kernel
theorem feSub (d : FReg) (a : FReg) (b : FReg) : Statement (.feSub d a b) := by unfold Statement; revert d a b; decide +kernel
theorem feMul (d : FReg) (a : FReg) (b : FReg) : Statement (.feMul d a b) := by unfold Statement; revert d a b; decide +kernel
theorem fePow (d : FReg) (a : FReg) (b : RReg) : Statement (.fePow d a b) := by unfold Statement; revert d a b; decide +kernel
theorem feInv (d : FReg) (a : FReg) : Statement (.feInv d a) := by unfold Statement; revert d a; decide +kernel
theorem feEq (a : FReg) (b : FReg) : Statement (.feEq a b) := by unfold Statement; revert a b; decide +kernel
theorem feRet (d : RReg) (a : FReg) : Statement (.feRet d a) := by unfold Statement; revert d a; decide +kernel
theorem scNew (d : SReg) (a : RReg) : Statement (.scNew d a) := by unfold Statement; revert d a; decide +kernel
theorem scAdd (d : SReg) (a : SReg) (b : SReg) : Statement (.scAdd d a b) := by unfold Statement; revert d a b; decide +kernel
theorem scSub (d : SReg) (a : SReg) (b : SReg) : Statement (.scSub d a b) := by unfold Statement; revert d a b; decide +kernel
theorem scMul (d : SReg) (a : SReg) (b : SReg) : Statement (.scMul d a b) := by unfold Statement; revert d a b; decide +kernel
theorem scPow (d : SReg) (a : SReg) (b : RReg) : Statement (.scPow d a b) := by unfold Statement; revert d a b; decide +kernel
theorem scInv (d : SReg) (a : SReg) : Statement (.scInv d a) := by unfold Statement; revert d a; decide +kernel
theorem scEq (a : SReg) (b : SReg) : Statement (.scEq a b) := by unfold Statement; revert a b; decide +kernel
theorem scRet (d : RReg) (a : SReg) : Statement (.scRet d a) := by unfold Statement; revert d a; decide +kernel
theorem scFromfe (d : SReg) (a : FReg) : Statement (.scFromfe d a) := by unfold Statement; revert d a; decide +kernel
theorem ptSetinf (d : PReg) : Statement (.ptSetinf d) := by unfold Statement; revert d; decide +kernel
theorem ptLoad (d : PReg) (a : FReg) (b : FReg) : Statement (.ptLoad d a b) := by unfold Statement; revert d a b; decide +kernel
theorem ptAdd (d : PReg) (a : PReg) (b : PReg) : Statement (.ptAdd d a b) := by unfold Statement; revert d a b; decide +kernel
theorem ptDbl (d : PReg) (a : PReg) : Statement (.ptDbl d a) := by unfold Statement; revert d a; decide +kernel
theorem ptMul (d : PReg) (a : PReg) (b : RReg) : Statement (.ptMul d a b) := by unfold Statement; revert d a b; decide +kernel
theorem ptMulg (d : PReg) (a : RReg) : Statement (.ptMulg d a) := by unfold Statement; revert d a; decide +kernel
theorem ptGetx (d : FReg) (a : PReg) : Statement (.ptGetx d a) := by unfold Statement; revert d a; decide +kernel
theorem ptGety (d : FReg) (a : PReg) : Statement (.ptGety d a) := by unfold Statement; revert d a; decide +kernel
theorem ptIsinf (a : PReg) : Statement (.ptIsinf a) := by unfold Statement; revert a; decide +kernel
theorem ecGenk (d : SReg) (a : SReg) (b : RReg) : Statement (.ecGenk d a b) := by unfold Statement; revert d a b; decide +kernel
theorem ecSign (a : SReg) (b : SReg) (c : SReg) : Statement (.ecSign a b c) := by unfold Statement; revert a b c; decide +kernel
theorem ecSignh (a : SReg) (b : RReg) : Statement (.ecSignh a b) := by unfold Statement; revert a b; decide +kernel
theorem ecVerify (a : PReg) (b : SReg) : Statement (.ecVerify a b) := by unfold Statement; revert a b; decide +kernel
theorem ecPubkey (d : PReg) (a : SReg) : Statement (.ecPubkey d a) := by unfold Statement; revert d a; decide +kernel
theorem sigLoad (a : SReg) (b : SReg) (c : RReg) : Statement (.sigLoad a b c) := by unfold Statement; revert a b c; decide +kernel
theorem sigNorm : Statement .sigNorm := by unfold Statement; decide
theorem sigValid : Statement .sigValid := by unfold Statement; decide
theorem sigVleg : Statement .sigVleg := by unfold Statement; decide
theorem sigV155 (a : RReg) : Statement (.sigV155 a) := by unfold Statement; revert a; decide +kernel

end Sys2Proof.Laws.EncodeLegal
end

