-- ==== Sys2Proof/Laws/Step.lean ====
section
/-! SUPPORT. What a host access and a step can do, said once. -/

set_option Elab.async false

namespace Sys2Proof.Machine

/-- Everything a host access can do to the state (20_memory.md R78, R79; 30_encoding.md R123). -/
theorem hostOp_cases (s : State) (op : HostOp) :
    (∃ q w d st, s.hostOp op = { s with hostQueue := q, readData := w, draws := d, status := st } ∧
      (st = s.status ∨ st = s.status.accessError ∨ ∃ w, st = s.status.writeOneToClear w)) ∨
    (∃ w, op = .write 0x008 4 w ∧ w.getLsbD 1 = true ∧ s.hostOp op = s.resetEngine) ∨
    (∃ b, s.hostOp op = { s with ie := b }) ∨
    (∃ w, op = .write 0x00C 4 w ∧ s.status.busy = false ∧ s.hostOp op = s.submit w) ∨
    (∃ i j w, op = .write (Region.raw i j).off 4 w ∧ s.status.busy = false ∧
      s.hostOp op = { s with regs := { s.regs with raw := s.regs.raw.set i (setWordOf s.regs.raw[i] j w) } }) := by
  cases op with
  | read off bytes =>
    obtain ⟨w, d, h | h⟩ := hostRead_frame s off bytes
    · exact .inl ⟨_, _, _, _, h, .inl rfl⟩
    · exact .inl ⟨_, _, _, _, h, .inr (.inl rfl)⟩
  | write off bytes w =>
    rcases hostWrite_cases s off bytes w with e | e | e | e | ⟨i, j, e⟩ | e
    · exact .inl ⟨_, _, _, _, e.2.2, .inr (.inr ⟨_, rfl⟩)⟩
    · exact .inr (.inl ⟨w, by rw [e.1, e.2.1], e.2.2⟩)
    · exact .inr (.inr (.inl ⟨_, e.2.2.2⟩))
    · exact .inr (.inr (.inr (.inl ⟨w, by rw [e.1, e.2.1], e.2.2⟩)))
    · exact .inr (.inr (.inr (.inr ⟨i, j, w, by rw [e.1, e.2.1], e.2.2⟩)))
    · exact .inl ⟨_, _, _, _, e, .inr (.inl rfl)⟩
  | wait =>
    simp only [State.hostOp, hostRead_status]
    split
    · exact .inl ⟨_, _, _, _, rfl, .inl rfl⟩
    · exact .inl ⟨_, _, _, _, rfl, .inl rfl⟩

/-- Everything a step can do (20_memory.md R85): a host access, nothing, a move of the sequencer, a reset, or the completion of
the command in flight. -/
theorem step_cases (s : State) (t : State) (h : step s = .next t) :
    ∃ rest, (s.turns = [] ∨ ∃ u, s.turns = u :: rest) ∧
    ((s.mover = .host ∧ ∃ op ops, s.hostQueue = op :: ops ∧ ∃ tt, t = State.hostOp { s with turns := tt, hostQueue := ops } op) ∨
    (∃ tt, t = { s with turns := tt }) ∨
    (∃ m tt j i, s.job = some j ∧ decode j.word = .ok i ∧
      t = { s with turns := tt, job := some { j with seq := j.seq.run s.hmac j.snap i m } }) ∨
    (s.mover = .rst ∧ ∃ tt, t = State.resetEngine { s with turns := tt }) ∨
    (s.mover = .complete ∧ ∃ tt j i, s.job = some j ∧ decode j.word = .ok i ∧ exec i { s with turns := tt } = .next t)) := by
  unfold step at h
  have comp : ∀ tt, State.completeTurn { s with turns := tt } = .next t →
      (t = { s with turns := tt } ∨ ∃ j i, s.job = some j ∧ decode j.word = .ok i ∧ exec i { s with turns := tt } = .next t) := by
    intro tt h
    unfold State.completeTurn at h
    cases hj : s.job with
    | none => simp [hj] at h; exact .inl h.symm
    | some j =>
      simp only [hj] at h
      cases hd : decode j.word with
      | error e => simp [hd] at h
      | ok i => simp only [hd] at h; exact .inr ⟨j, i, rfl, hd, h⟩
  have host : ∀ tt, State.hostTurn { s with turns := tt } = t →
      (t = { s with turns := tt } ∨ ∃ op ops, s.hostQueue = op :: ops ∧ t = State.hostOp { s with turns := tt, hostQueue := ops } op) := by
    intro tt h
    unfold State.hostTurn at h
    cases hq : s.hostQueue with
    | nil => simp [hq] at h; exact .inl h.symm
    | cons op ops => simp only [hq] at h; exact .inr ⟨op, ops, rfl, h.symm⟩
  cases ht : s.turns with
  | nil =>
    refine ⟨[], .inl rfl, ?_⟩
    have es : s = { s with turns := [] } := by rw [← ht]
    simp only [ht, State.defaultTurn] at h
    split_ifs at h with hj
    · rw [es] at h
      rcases comp _ h with h | ⟨j, i, h⟩
      · exact .inr (.inl ⟨_, h⟩)
      · exact .inr (.inr (.inr (.inr ⟨by simp [State.mover, ht, hj], _, j, i, h⟩)))
    · rw [es] at h
      rcases host _ (by simpa using h) with h | ⟨op, ops, h1, h2⟩
      · exact .inr (.inl ⟨_, h⟩)
      · exact .inl ⟨by simp [State.mover, ht, hj], op, ops, h1, _, h2⟩
  | cons u rest =>
    refine ⟨rest, .inr ⟨u, rfl⟩, ?_⟩
    simp only [ht] at h
    cases u with
    | host =>
      rcases host _ (by simpa [State.move] using h) with h | ⟨op, ops, h1, h2⟩
      · exact .inr (.inl ⟨_, h⟩)
      · exact .inl ⟨by simp [State.mover, ht], op, ops, h1, _, h2⟩
    | engine m =>
      simp only [State.move, Host.Outcome.next.injEq] at h
      unfold State.engineTurn at h
      cases hj : s.job with
      | none => simp [hj] at h; exact .inr (.inl ⟨_, h.symm⟩)
      | some j =>
        simp only [hj] at h
        cases hd : decode j.word with
        | error e => simp [hd] at h; exact .inr (.inl ⟨_, h.symm⟩)
        | ok i => simp only [hd] at h; exact .inr (.inr (.inl ⟨m, _, j, i, rfl, hd, h.symm⟩))
    | complete =>
      rcases comp _ (by simpa [State.move] using h) with h | ⟨j, i, h⟩
      · exact .inr (.inl ⟨_, h⟩)
      · exact .inr (.inr (.inr (.inr ⟨by simp [State.mover, ht], _, j, i, h⟩)))
    | rst => exact .inr (.inr (.inr (.inl ⟨by simp [State.mover, ht], _, by simpa [State.move, State.rstTurn] using h.symm⟩)))

/-- The step of a host that has an access performs it (20_memory.md R85). -/
theorem step_access (s : State) (op : HostOp) (h : s.access = some op) :
    ∃ tt ops, s.hostQueue = op :: ops ∧ step s = .next (State.hostOp { s with turns := tt, hostQueue := ops } op) := by
  unfold State.access at h
  split_ifs at h with hm
  obtain ⟨ops, hq⟩ : ∃ ops, s.hostQueue = op :: ops := by
    cases hs : s.hostQueue <;> simp_all
  cases ht : s.turns with
  | nil =>
    have hj : s.job = none := by simpa [State.mover, ht] using hm
    have es : s = { s with turns := [] } := by rw [← ht]
    refine ⟨[], ops, hq, ?_⟩
    rw [← ht]
    simp [step, State.defaultTurn, State.hostTurn, ht, hj, hq]
  | cons u rest =>
    have hu : u = .host := by simpa [State.mover, ht] using hm
    exact ⟨rest, ops, hq, by simp [step, State.move, State.hostTurn, ht, hu, hq]⟩

end Sys2Proof.Machine
end

