-- ==== Sys2Proof/Tests/Slice0.lean ====
section
/-! SUPPORT. The model's own tests, their expected results from 95_test_vectors.md (a name ends in the vector's id) or computed by
hand from the rule cited, and for every obligation with hypotheses a state that meets them. -/

set_option Elab.async false

namespace Sys2Proof.Tests

open Sys2Proof.Machine
open Sys2Proof.Config (p n gx gy halfN)

/-! ### Words -/

/-- The words decode to the commands, and the commands encode to the words. -/
def agree (l : List (Word × Instr)) : Bool := l.all fun (w, i) => (decode w).toOption == some i && encode i == w && wellFormed w

/-- A word no row of the table fits, and the decoder's error for it. -/
def illFormed (w : Word) (e : CmdError) : Bool :=
  !wellFormed w && (match decode w with | .error e' => e' == e | .ok _ => false) && (decodeTableWord 32 w.toNat).isNone

/-! 95_test_vectors.md section 5. -/

theorem test_words_field : agree [(0x00000000, .nop), (0x00002110, .feNew 1 2), (0x00032111, .feAdd 1 2 3),
    (0x00032112, .feSub 1 2 3), (0x00032113, .feMul 1 2 3), (0x00032114, .fePow 1 2 3), (0x00002115, .feInv 1 2),
    (0x00032016, .feEq 2 3), (0x00002117, .feRet 1 2)] = true := by decide +kernel

theorem test_words_scalar : agree [(0x00002120, .scNew 1 2), (0x00032121, .scAdd 1 2 3), (0x00032122, .scSub 1 2 3),
    (0x00032123, .scMul 1 2 3), (0x00032124, .scPow 1 2 3), (0x00002125, .scInv 1 2), (0x00032026, .scEq 2 3),
    (0x00002127, .scRet 1 2), (0x00002128, .scFromfe 1 2)] = true := by decide +kernel

theorem test_words_point : agree [(0x00000130, .ptSetinf 1), (0x00032131, .ptLoad 1 2 3), (0x00032132, .ptAdd 1 2 3),
    (0x00002133, .ptDbl 1 2), (0x00032134, .ptMul 1 2 3), (0x00002135, .ptMulg 1 2), (0x00002136, .ptGetx 1 2),
    (0x00002137, .ptGety 1 2), (0x00002038, .ptIsinf 2)] = true := by decide +kernel

theorem test_words_ecdsa : agree [(0x00032140, .ecGenk 1 2 3), (0x00032041, .ecSign 2 3 0), (0x00032042, .ecSignh 2 3),
    (0x00032043, .ecVerify 2 3), (0x00002144, .ecPubkey 1 2), (0x00032048, .sigLoad 2 3 0), (0x00000049, .sigNorm),
    (0x0000004A, .sigValid), (0x0000004B, .sigVleg), (0x0000204C, .sigV155 2)] = true := by decide +kernel

/-! The fields of R111 bit by bit, `resv | c | b | a | d | op`, every operand at the end of its range. -/

theorem test_bits_feMul : (decode (0b00000000#8 ++ 0b0000#4 ++ 0b0111#4 ++ 0b0000#4 ++ 0b0110#4 ++ 0b00010011#8)).toOption =
    some (.feMul 6 0 7) := by decide +kernel
theorem test_bits_scPow : (decode (0b00000000#8 ++ 0b0000#4 ++ 0b0011#4 ++ 0b0111#4 ++ 0b0000#4 ++ 0b00100100#8)).toOption =
    some (.scPow 0 7 3) := by decide +kernel
theorem test_bits_ptLoad : (decode (0b00000000#8 ++ 0b0000#4 ++ 0b0111#4 ++ 0b0001#4 ++ 0b0011#4 ++ 0b00110001#8)).toOption =
    some (.ptLoad 3 1 7) := by decide +kernel
theorem test_bits_sigLoad : (decode (0b00000000#8 ++ 0b0011#4 ++ 0b0000#4 ++ 0b0111#4 ++ 0b0000#4 ++ 0b01001000#8)).toOption =
    some (.sigLoad 7 0 3) := by decide +kernel
theorem test_bits_nop : (decode (0b00000000#8 ++ 0b0000#4 ++ 0b0000#4 ++ 0b0000#4 ++ 0b0000#4 ++ 0b00000000#8)).toOption =
    some .nop := by decide +kernel

/-! Ill-formed words, V-D3 to V-D14. -/

theorem test_ill_formed_opcode : (illFormed 0xFF .illegalOpcode && illFormed 0x0F .illegalOpcode &&
    illFormed 0x010000FF .illegalOpcode) = true := by decide +kernel
theorem test_ill_formed_reserved : (illFormed 0x01000000 .reservedField && illFormed 0x149 .reservedField &&
    illFormed 0x01000811 .reservedField && illFormed 0x1030 .reservedField) = true := by decide +kernel
theorem test_ill_formed_register : (illFormed 0x811 .badRegister && illFormed 0x4032 .badRegister &&
    illFormed 0x4010 .badRegister && illFormed 0x00810041 .badRegister) = true := by decide +kernel

/-! Ill-formed host statements (R123), and the assembler syntax (R121). -/

theorem test_ill_formed_lib : (HostStatement.lib 0 [1, 2, 3]).wellFormed = false := by decide
theorem test_ill_formed_feNeg : (HostStatement.feNeg 2 2).wellFormed = false := by decide
theorem test_ill_formed_scNeg : (HostStatement.scNeg 7 7).wellFormed = false := by decide
theorem test_assembly : assembly (.ecSign 2 3 0) = "EC_SIGN S2, S3, S0" ∧ assembly (.fePow 1 2 3) = "FE_POW F1, F2, R3" ∧
    assembly .sigNorm = "SIG_NORM" := by decide +kernel

/-! ### One command -/

def twoG : Point := .aff 0xC6047F9441ED7D6D3045406E95C07CD85C778E4B8CEF3CA7ABAC09B95C709EE5
  0x1AE168FEA63DC339A3C58419466CEAEEF7F632653266D0E1236431A950CFE52A
def threeG : Point := .aff 0xF9308A019258C31049344F85F89D5229B531C845836F99B08601F113BCE036F9
  0x388F7B0F632DE8140FE337E62A37F3566500A99934C2231B6CB9FD7584B8E672
def fourG : Point := .aff 0xE493DBF1C10D80F3581E4904930B1404CC6C13900EE0758474FA94ABE8C4CD13
  0x51ED993EA0D455B75642E2098EA51448D967AE33BFBDFE40CFE97BDC47739922

/-- Registers with a value of its own in each. -/
def sample : Regs :=
  { raw := #v[1000, 1001, 1002, 1003]
    f := #v[2000, 2001, 2002, 2003, 2004, 2005, 2006, 2007]
    s := #v[3000, 3001, 3002, 3003, 3004, 3005, 3006, 3007]
    p := #v[⟨false, 50, 77⟩, ⟨false, 51, 77⟩, ⟨true, 0, 0⟩, ⟨false, 53, 77⟩]
    sig := ⟨1, 2, 3⟩
    vout := 99 }

/-- An idle engine with the registers given. -/
def idle (r : Regs) (hm : HmacKind := .reference) : State := { State.reset with regs := r, hmac := hm }

/-- The state a step answers; reset where it stops. -/
def result (o : Answer) : State :=
  match o with
  | .next t => t
  | _ => State.reset

/-- From the registers `r` the step that runs `i` leaves STATUS = `status`, the registers changed by `effect`. -/
def runs (r : Regs) (i : Instr) (status : Word) (effect : Regs → Regs) (hm : HmacKind := .reference) : Bool :=
  match step ((idle r hm).withFetchWord 32 (encode i).toNat) with
  | .next t => t.regs == effect r && t.status.toWord == status && t.job.isNone
  | _ => false

/-! ### Field and scalar vectors (sections 2.2, 2.3) -/

theorem test_feNew_V_F1 : runs (sample.setRaw 0 (2 ^ 256 - 1)) (.feNew 0 0) 0x6 (·.setF 0 0x1000003D0) = true := by decide +kernel
theorem test_feNew_V_F4 : runs (sample.setRaw 0 (p + 5)) (.feNew 0 0) 0x6 (·.setF 0 5) = true := by decide +kernel
theorem test_feAdd_V_F6 :
    runs (sample.setF 0 (p - 1) |>.setF 1 (p - 1)) (.feAdd 2 0 1) 0x6 (·.setF 2 (p - 2)) = true := by decide +kernel
theorem test_feAdd_V_F7 :
    runs (sample.setF 0 gx) (.feAdd 0 0 0) 0x6 (·.setF 0 0xF37CCCFDF3B97758AB40C52B9D0E160E0537F9B65B9C51B2B3E502B62DF02F30) = true
      := by decide +kernel
theorem test_feSub_V_F8 : runs (sample.setF 0 0 |>.setF 1 1) (.feSub 2 0 1) 0x6 (·.setF 2 (p - 1)) = true := by decide +kernel
theorem test_feSub_V_F10 :
    runs (sample.setF 0 0 |>.setF 1 gy) (.feSub 2 0 1) 0x6 (·.setF 2
      0xB7C52588D95C3B9AA25B0403F1EEF75702E84BB7597AABE663B82F6F04EF2777) = true := by decide +kernel
theorem test_feMul_V_F11 :
    runs (sample.setF 0 gx |>.setF 1 gy) (.feMul 2 0 1) 0x6 (·.setF 2
      0xFD3DC529C6EB60FB9D166034CF3C1A5A72324AA9DFD3428A56D7E1CE0179FD9B) = true := by decide +kernel
theorem test_feMul_V_F12 :
    runs (sample.setF 0 gx) (.feMul 0 0 0) 0x6 (·.setF 0 0x8550E7D238FCF3086BA9ADCF0FB52A9DE3652194D06CB5BB38D50229B854FC49) = true
      := by decide +kernel
theorem test_fePow_V_F15 :
    runs (sample.setF 0 3 |>.setRaw 0 (p - 2)) (.fePow 2 0 0) 0x6 (·.setF 2
      0xAAAAAAAAAAAAAAAAAAAAAAAAAAAAAAAAAAAAAAAAAAAAAAAAAAAAAAA9FFFFFD75) = true := by decide +kernel
theorem test_fePow_V_F17 : runs (sample.setF 0 0 |>.setRaw 0 0) (.fePow 2 0 0) 0x6 (·.setF 2 1) = true := by decide +kernel
theorem test_feInv_V_F24 :
    runs (sample.setF 0 gx) (.feInv 1 0) 0x6 (·.setF 1 0x237AFDF1D2938D86870AAEB8AD77626A67B8E794ABFB076BE61D003687CA9EF6) = true :=
      by decide +kernel
theorem test_feInv_V_F28 : runs (sample.setF 0 0) (.feInv 0 0) 0x2 id = true := by decide +kernel
theorem test_feEq_V_F29 : runs (sample.setF 0 gx |>.setF 1 gx) (.feEq 0 1) 0xE id = true := by decide +kernel
theorem test_feEq_V_F30 : runs (sample.setF 0 gx |>.setF 1 gy) (.feEq 0 1) 0x6 id = true := by decide +kernel
theorem test_feRet_V_F32 : runs (sample.setF 0 gx) (.feRet 1 0) 0x6 (·.setRaw 1 gx) = true := by decide +kernel

theorem test_scNew_V_S1 :
    runs (sample.setRaw 0 (2 ^ 256 - 1)) (.scNew 0 0) 0x6 (·.setS 0 0x14551231950B75FC4402DA1732FC9BEBE) = true := by decide +kernel
theorem test_scNew_V_S3 :
    runs (sample.setRaw 0 p) (.scNew 0 0) 0x6 (·.setS 0 0x14551231950B75FC4402DA1722FC9BAEE) = true := by decide +kernel
theorem test_scAdd_V_S6 :
    runs (sample.setS 0 (n - 1) |>.setS 1 (n - 1)) (.scAdd 2 0 1) 0x6 (·.setS 2 (n - 2)) = true := by decide +kernel
theorem test_scSub_V_S7 : runs (sample.setS 0 0 |>.setS 1 1) (.scSub 2 0 1) 0x6 (·.setS 2 (n - 1)) = true := by decide +kernel
theorem test_scMul_V_S11 :
    runs (sample.setS 0 gx |>.setS 1 gy) (.scMul 2 0 1) 0x6 (·.setS 2
      0x805714A252D0C0B58910907E85B5B801FFF610A36BDF46847A4BF5D9AE2D10ED) = true := by decide +kernel
theorem test_scPow_V_S12 :
    runs (sample.setS 0 2 |>.setRaw 0 (n - 2)) (.scPow 2 0 0) 0x6 (·.setS 2 (halfN + 1)) = true := by decide +kernel
theorem test_scPow_V_S13 : runs (sample.setS 0 0 |>.setRaw 0 0) (.scPow 2 0 0) 0x6 (·.setS 2 1) = true := by decide +kernel
theorem test_scInv_V_S15 : runs (sample.setS 0 2) (.scInv 1 0) 0x6 (·.setS 1 (halfN + 1)) = true := by decide +kernel
theorem test_scInv_V_S17 : runs (sample.setS 0 0) (.scInv 1 0) 0x2 id = true := by decide +kernel
theorem test_scEq_V_S18 : runs (sample.setS 0 7 |>.setS 1 7) (.scEq 0 1) 0xE id = true := by decide +kernel
theorem test_scEq_V_S19 : runs (sample.setS 0 7 |>.setS 1 8) (.scEq 0 1) 0x6 id = true := by decide +kernel
theorem test_scRet_V_S20 : runs (sample.setS 0 (n - 1)) (.scRet 2 0) 0x6 (·.setRaw 2 (n - 1)) = true := by decide +kernel
theorem test_scFromfe_V_S21 :
    runs (sample.setF 0 (p - 1)) (.scFromfe 0 0) 0x6 (·.setS 0 0x14551231950B75FC4402DA1722FC9BAED) = true := by decide +kernel
theorem test_scFromfe_V_S22 : runs (sample.setF 0 n) (.scFromfe 0 0) 0x6 (·.setS 0 0) = true := by decide +kernel

/-! ### Point vectors (section 2.4) -/

theorem test_ptSetinf_V_P1 : runs sample (.ptSetinf 0) 0x6 (·.setP 0 .inf) = true := by decide +kernel
theorem test_ptLoad_V_P2 : runs (sample.setF 0 gx |>.setF 1 gy) (.ptLoad 0 0 1) 0x6 (·.setP 0 generator) = true := by decide +kernel
theorem test_ptLoad_V_P3 : runs (sample.setF 0 1 |>.setF 1 1) (.ptLoad 0 0 1) 0x6 (·.setP 0 (.aff 1 1)) = true := by decide +kernel
theorem test_ptAdd_V_P4 :
    runs (sample.setP 0 generator |>.setP 1 generator) (.ptAdd 2 0 1) 0x6 (·.setP 2 twoG) = true := by decide +kernel
theorem test_ptAdd_V_P10 :
    runs (sample.setP 0 (.aff 1 1) |>.setP 1 (.aff 2 3)) (.ptAdd 2 0 1) 0x6 (·.setP 2 (.aff 1 (p - 1))) = true := by decide +kernel
theorem test_ptDbl_V_P15 : runs (sample.setP 0 (.aff 5 0)) (.ptDbl 1 0) 0x6 (·.setP 1 .inf) = true := by decide +kernel
theorem test_ptDbl_V_P16 :
    runs (sample.setP 0 (.aff 1 1)) (.ptDbl 1 0) 0x6 (·.setP 1 (.aff
      0x3FFFFFFFFFFFFFFFFFFFFFFFFFFFFFFFFFFFFFFFFFFFFFFFFFFFFFFFBFFFFF0C
      0x1FFFFFFFFFFFFFFFFFFFFFFFFFFFFFFFFFFFFFFFFFFFFFFFFFFFFFFFDFFFFF86)) = true := by decide +kernel
theorem test_ptMul_V_P18 :
    runs (sample.setP 0 generator |>.setRaw 0 3) (.ptMul 1 0 0) 0x6 (·.setP 1 threeG) = true := by decide +kernel
theorem test_ptMul_V_P23 : runs (sample.setP 0 .inf |>.setRaw 0 5) (.ptMul 1 0 0) 0x6 (·.setP 1 .inf) = true := by decide +kernel
theorem test_ptMulg_V_P26 : runs (sample.setRaw 0 4) (.ptMulg 0 0) 0x6 (·.setP 0 fourG) = true := by decide +kernel
theorem test_ptMulg_V_P27 : runs (sample.setRaw 0 0) (.ptMulg 0 0) 0x6 (·.setP 0 .inf) = true := by decide +kernel
theorem test_ptGetx_V_P28 :
    runs (sample.setP 0 twoG) (.ptGetx 0 0) 0x6 (·.setF 0 0xC6047F9441ED7D6D3045406E95C07CD85C778E4B8CEF3CA7ABAC09B95C709EE5) = true
      := by decide +kernel
theorem test_ptGety_V_P29 :
    runs (sample.setP 0 twoG) (.ptGety 0 0) 0x6 (·.setF 0 0x1AE168FEA63DC339A3C58419466CEAEEF7F632653266D0E1236431A950CFE52A) = true
      := by decide +kernel
theorem test_ptGetx_V_P30 : runs (sample.setP 0 .inf) (.ptGetx 0 0) 0x2 id = true := by decide +kernel
theorem test_ptGety_V_P31 : runs (sample.setP 0 .inf) (.ptGety 0 0) 0x2 id = true := by decide +kernel
theorem test_ptIsinf_V_P32 : runs (sample.setP 0 .inf) (.ptIsinf 0) 0xE id = true := by decide +kernel
theorem test_ptIsinf_V_P33 : runs (sample.setP 0 generator) (.ptIsinf 0) 0x6 id = true := by decide +kernel

/-! ### ECDSA vectors (section 2.5) -/

theorem test_ecPubkey_V_E2 : runs (sample.setS 0 2) (.ecPubkey 0 0) 0x6 (·.setP 0 twoG) = true := by decide +kernel
theorem test_ecPubkey_V_E3 : runs (sample.setS 0 0) (.ecPubkey 0 0) 0x6 (·.setP 0 .inf) = true := by decide +kernel
theorem test_ecSign_V_E5 :
    runs (sample.setS 0 1 |>.setS 1 0 |>.setS 2 2) (.ecSign 0 1 2) 0x6 (·.setSig
      ⟨0xC6047F9441ED7D6D3045406E95C07CD85C778E4B8CEF3CA7ABAC09B95C709EE5,
      0x1CFDC035DF09414967DD5FC8B51FC1932F1BA74D912CB1CA0A132A69B9E2D12E, 1⟩) = true := by decide +kernel
theorem test_ecSign_V_E7 : runs (sample.setS 0 0 |>.setS 1 0 |>.setS 2 2) (.ecSign 0 1 2) 0x2 id = true := by decide +kernel
theorem test_ecVerify_V_E14 :
    runs (sample.setSig ⟨0, 5, 0⟩ |>.setP 0 generator |>.setS 1 1) (.ecVerify 0 1) 0x6 id = true := by decide +kernel
theorem test_ecGenk_V_E15 :
    runs (sample.setS 0 1 |>.setRaw 0 0xA0DC65FFCA799873CBEA0AC274015B9526505DAAAED385155425F7337704883E) (.ecGenk 2 0 0) 0x6 (·.setS
      2 0x8F8A276C19F4149656B280621E358CCE24F5F52542772691EE69063B74F15D15) = true := by decide +kernel
theorem test_sigLoad_V_E17 :
    runs (sample.setS 0 5 |>.setS 1 7 |>.setRaw 0 511) (.sigLoad 0 1 0) 0x6 (·.setSig ⟨5, 7, 255⟩) = true := by decide +kernel
theorem test_sigNorm_V_E20 : runs (sample.setSig ⟨5, halfN, 0⟩) (.sigNorm) 0x6 id = true := by decide +kernel
theorem test_sigNorm_V_E21 : runs (sample.setSig ⟨5, (n - 1), 255⟩) (.sigNorm) 0x6 (·.setSig ⟨5, 1, 254⟩) = true := by decide +kernel
theorem test_sigValid_V_E23 : runs (sample.setSig ⟨0, 5, 0⟩) (.sigValid) 0x6 id = true := by decide +kernel
theorem test_sigValid_V_E24 : runs (sample.setSig ⟨5, (n - 1), 7⟩) (.sigValid) 0xE id = true := by decide +kernel
theorem test_sigVleg_V_E27 : runs (sample.setSig ⟨7, 9, 228⟩) (.sigVleg) 0x6 (·.setVout 255) = true := by decide +kernel
theorem test_sigVleg_V_E28 : runs (sample.setSig ⟨7, 9, 229⟩) (.sigVleg) 0x16 (·.setVout 0) = true := by decide +kernel
theorem test_sigV155_V_E33 :
    runs (sample.setSig ⟨7, 9, 1⟩ |>.setRaw 0 (2 ^ 63)) (.sigV155 0) 0x16 (·.setVout 36) = true := by decide +kernel
theorem test_sigV155_V_E34 :
    runs (sample.setSig ⟨7, 9, 0⟩ |>.setRaw 0 (2 ^ 64 + 1)) (.sigV155 0) 0x6 (·.setVout 37) = true := by decide +kernel

/-! ECDSA by hand from R249 with `Q = G`, `u1 = u2 = 1`: `r = x(2G)`, `z = s = r`. -/

theorem test_ecVerify_unit_multipliers :
    let r := 0xC6047F9441ED7D6D3045406E95C07CD85C778E4B8CEF3CA7ABAC09B95C709EE5
    runs (sample.setP 1 generator |>.setS 3 r |>.setSig ⟨.ofNat 256 r, .ofNat 256 r, 0⟩) (.ecVerify 1 3) 0xE id = true := by
  decide +kernel

/-- EC_SIGNH over an HMAC that always gives 2 (R241 admits any) is V-E4's EC_SIGN with the nonce 2. -/
theorem test_ecSignh_nonce_two : runs (sample.setS 0 1 |>.setRaw 0 (n + 1)) (.ecSignh 0 0) 0x6 (·.setSig
    ⟨0xC6047F9441ED7D6D3045406E95C07CD85C778E4B8CEF3CA7ABAC09B95C709EE5,
    0x63023FCA20F6BEB69822A0374AE03E6C2E3BC725C6779E53D5D604DCAE384F73, 0⟩) (.constant 2) = true := by decide +kernel

/-- A candidate outside `(0, n)` leaves the command in flight (R243, R353). -/
theorem test_candidate_rejected :
    (result (step ((idle sample (.constant 0)).withFetchWord 32 0x40))).status.toWord = 1 ∧
    (result (step ((idle sample (.constant (.ofNat 256 n))).withFetchWord 32 0x42))).status.toWord = 1 := by decide +kernel

/-- V-C1, and V-C2's COND, with AERR kept. -/
theorem test_nop_V_C1 : runs sample .nop 0x6 id = true := by decide +kernel
theorem test_nop_V_C2 :
    (result (step (State.withFetchWord { State.reset with status := { Status.zero with
      done := true, ok := true, cond := true, aerr := true } } 32 0))).status.toWord = 0x10006 := by decide +kernel

/-! ### The host's accesses -/

def busyNop : State := (idle sample).accept 0 .nop

theorem test_read_words_V_M1 : (List.finRange 8).map (fun j => (State.hostRead (idle (sample.setF 0
    0xC6047F9441ED7D6D3045406E95C07CD85C778E4B8CEF3CA7ABAC09B95C709EE5)) (Region.f 0 j).off 4).readData) =
    [0xC6047F94, 0x41ED7D6D, 0x3045406E, 0x95C07CD8, 0x5C778E4B, 0x8CEF3CA7, 0xABAC09B9, 0x5C709EE5] := by decide +kernel
theorem test_write_word_V_M2 : (State.hostWrite (idle (sample.setRaw 0 0)) 0x104 4 0xDEADBEEF).regs.rawAt 0 =
    0x00000000DEADBEEF000000000000000000000000000000000000000000000000 := by decide +kernel
theorem test_lib_V_M3 : (((HostStatement.lib 0 ((List.range 32).map (BitVec.ofNat 8))).expand).foldl State.hostOp
    (idle sample)).regs.rawAt 0 = 0x000102030405060708090A0B0C0D0E0F101112131415161718191A1B1C1D1E1F := by decide +kernel
theorem test_unmapped_V_M4 : (State.hostRead (idle sample) 0x01C 4).readData = 0 ∧
    (State.hostRead (idle sample) 0x01C 4).status.toWord = 0x10000 := by decide +kernel
theorem test_read_only_V_M5 : (State.hostWrite (idle sample) 0x200 4 5).regs = sample ∧
    (State.hostWrite (idle sample) 0x200 4 5).status.toWord = 0x10000 := by decide +kernel
theorem test_write_one_to_clear_V_M6 : (State.hostWrite { State.reset with status := { Status.zero with
    done := true, ok := true, aerr := true } } 0x004 4 0x00010002).status.toWord = 0x4 := by decide +kernel
theorem test_tag_V_M8 : (State.hostRead (idle sample) 0x500 4).readData = 1 ∧
    (State.hostRead (idle sample) 0x520 4).readData = 0 ∧ (State.hostRead (idle sample) 0x400 4).readData = 0 := by decide +kernel
theorem test_busy_write_V_M12 : (busyNop.hostWrite 0x100 4 7).regs = sample ∧
    (busyNop.hostWrite 0x100 4 7).status.toWord = 0x10001 := by decide +kernel
theorem test_irq_V_R3_R4 :
    let t := result (step (State.withFetchWord { State.reset with ie := true } 32 0))
    t.irq = true ∧ (t.hostWrite 0x004 4 2).irq = false ∧ (t.hostWrite 0x004 4 2).status.toWord = 0x4 := by decide +kernel
theorem test_soft_reset_V_R6 : (busyNop.hostWrite 0x008 4 2).status.toWord = 0 ∧
    (busyNop.hostWrite 0x008 4 2).job.isNone = true := by decide +kernel
theorem test_second_command_V_R7 :
    (result (busyNop.hostWrite 0x00C 4 0x20).completeTurn).status.toWord = 0x10006 := by decide +kernel
/-- A NOP submitted, with the engine's completing turn between two reads of STATUS: the first returns BUSY = 1,
the second BUSY = 0. -/
def nopRun : State :=
  { idle sample with hostQueue := [.write 0x00C 4 0, .read 0x004 4, .read 0x004 4], turns := [.host, .host, .complete] }

theorem test_error_codes_V_D3_V_D5_V_D7 : [0x000000FF, 0x01000000, 0x00000811].map (fun w =>
    ((State.hostWrite (idle sample) 0x00C 4 w).hostRead 0x004 4).readData) = [0x102, 0x202, 0x302] := by decide +kernel

theorem test_run_over : (List.range 5).map nopRun.runOver = [false, false, false, false, true] ∧ busyNop.runOver 1 = false ∧
    State.runOver { nopRun with hostQueue := [.read 0x004 4, .write 0x00C 4 0], turns := [] } 3 = false ∧
    State.runOver { nopRun with hostQueue := [.write 0x00C 4 0, .wait] } 5 = true := by decide +kernel

theorem test_observation : (result (step busyNop)).observation 0x004 = 6 ∧
    (result (step busyNop)).observation 0x11C = 1000 ∧ (result (step busyNop)).observation 0x018 = 3 := by decide +kernel

/-! ### Witnesses

A theorem `witness_X` shows that the hypotheses of `Obligations.X` are met, clause by clause. -/

theorem legal_of {r : Regs} (hf : ∀ i : FReg, (r.f[i]).toNat < p) (hs : ∀ i : SReg, (r.s[i]).toNat < n)
    (hp : ∀ i : PReg, (r.p[i]).x.toNat < p ∧ (r.p[i]).y.toNat < p ∧ ((r.p[i]).inf = true → (r.p[i]).x = 0 ∧ (r.p[i]).y = 0))
    (hg : r.sig.r.toNat < n ∧ r.sig.s.toNat < n) : r.Legal :=
  ⟨hf, hs, fun i => ⟨(hp i).1, (hp i).2.1, (hp i).2.2⟩, ⟨hg.1, hg.2⟩⟩

/-- The state after the acceptance of `i` by an idle engine. -/
def running (r : Regs) (i : Instr) (hm : HmacKind := .reference) : State := (idle r hm).accept (encode i) i

theorem running_runs (r : Regs) (i : Instr) (hm : HmacKind) (hd : decode (encode i) = .ok i) : (running r i hm).Running i :=
  ⟨_, rfl, hd⟩

theorem running_coherent (r : Regs) (i : Instr) (hm : HmacKind) (hd : decode (encode i) = .ok i) :
    (running r i hm).Coherent := by
  refine ⟨rfl, fun j hj => ?_, fun j hj => ?_, fun j hj => ⟨i, ?_⟩, fun _ _ => ⟨rfl, rfl, rfl, rfl, rfl⟩⟩ <;> cases hj
  · rfl
  · rfl
  · exact ⟨hd, 0, rfl⟩

theorem running_inv {r : Regs} (hr : r.Legal) (i : Instr) (hm : HmacKind) (hd : decode (encode i) = .ok i) :
    (running r i hm).Inv := ⟨hr, running_coherent r i hm hd⟩

theorem idle_coherent (r : Regs) (hm : HmacKind) : (idle r hm).Coherent :=
  ⟨rfl, nofun, nofun, nofun, nofun⟩

theorem exec_result (i : Instr) (s : State) : exec i s = .next (result (exec i s)) := by
  obtain ⟨t, h⟩ := exec_next i s
  rw [h]
  rfl

/-- A step that answers a next state. -/
def steps (s : State) : Bool :=
  match step s with
  | .next _ => true
  | _ => false

theorem step_result {s : State} (h : steps s = true) : step s = .next (result (step s)) := by
  unfold steps at h
  cases hs : step s <;> simp_all [result]

theorem sample_legal : sample.Legal := legal_of (by decide +kernel) (by decide +kernel) (by decide +kernel) (by decide +kernel)

/-! Encoding. -/

/-- The hypothesis `unusedSet` of `DecodeChecksInOrder`. -/
abbrev UnusedSet (r : OpcodeRow) (w : Word) : Prop :=
  w.toNat / 2 ^ 24 ≠ 0 ∨ ∃ k ∈ [8, 12, 16, 20], r.mask.toNat / 2 ^ k % 16 = 15 ∧ w.toNat / 2 ^ k % 16 ≠ 0

def feAddRow : OpcodeRow := ⟨"FE_ADD", 0xFFF888FF, 0x00000011⟩

theorem witness_LegalWordsAreTheTable : feAddRow ∈ opcodeTable ∧ (0x00032111#32 &&& feAddRow.mask) = feAddRow.value ∧
    ¬∃ r ∈ opcodeTable, (0xFF#32 &&& r.mask) = r.value := by decide +kernel

theorem witness_DecodeChecksInOrder : (∀ r ∈ opcodeTable, r.value.toNat ≠ (0xFF#32).toNat % 256) ∧ feAddRow ∈ opcodeTable ∧
    feAddRow.value.toNat = (0x01032111#32).toNat % 256 ∧ feAddRow.value.toNat = (0x00132111#32).toNat % 256 ∧
    feAddRow.value.toNat = (0x711#32).toNat % 256 ∧ feAddRow.value.toNat = (0x811#32).toNat % 256 ∧
    UnusedSet feAddRow 0x01032111 ∧ UnusedSet feAddRow 0x00132111 ∧
    (¬UnusedSet feAddRow 0x811 ∧ (0x811#32 &&& feAddRow.mask) ≠ feAddRow.value) ∧
    ¬UnusedSet feAddRow 0x711 ∧ (0x711#32 &&& feAddRow.mask) = feAddRow.value := by decide +kernel

/-! Steps. -/

theorem witness_StepRunsTheAcceptedCommand : ∃ (s s' : State) (j : Job) (i : Instr), s.job = some j ∧ s'.job = some j ∧ decode j.word = .ok i ∧
    s.turns = [.complete] ∧ s'.turns = [] :=
  ⟨{ running sample .nop with turns := [.complete] }, running sample .nop, _, .nop, rfl, rfl, rfl, rfl, rfl⟩

theorem witness_StepMovesOneAgent :
    let op : HostOp := .read 0x004 4
    (∃ s : State, s.turns = [.host] ∧ s.hostQueue = [op]) ∧ (∃ s : State, s.turns = [.host] ∧ s.hostQueue = []) ∧
    (∃ s : State, s.turns = [.complete] ∧ s.job = none) ∧ (∃ s : State, s.turns = [.engine 2] ∧ s.job = none) ∧
    (∃ s : State, s.turns = [.rst]) ∧ (∃ s : State, s.turns = [] ∧ s.job = none ∧ s.hostQueue = [op]) ∧
    ∃ s : State, s.turns = [] ∧ s.job = none ∧ s.hostQueue = [] :=
  ⟨⟨{ State.reset with turns := [.host], hostQueue := [.read 0x004 4] }, rfl, rfl⟩,
    ⟨{ State.reset with turns := [.host] }, rfl, rfl⟩, ⟨{ State.reset with turns := [.complete] }, rfl, rfl⟩,
    ⟨{ State.reset with turns := [.engine 2] }, rfl, rfl⟩, ⟨{ State.reset with turns := [.rst] }, rfl⟩,
    ⟨{ State.reset with hostQueue := [.read 0x004 4] }, rfl, rfl, rfl⟩, State.reset, rfl, rfl, rfl⟩

theorem witness_InternalStepsAreHidden : ∃ s : State, s.turns = [.engine 0, .engine 300] ∧ s.Running (.ptMul 1 0 2) :=
  ⟨{ running sample (.ptMul 1 0 2) with turns := [.engine 0, .engine 300] }, rfl, _, rfl, rfl⟩

theorem witness_AcceptanceOfALegalWord : (idle sample).status.busy = false ∧ decode 0x00032111 = .ok (.feAdd 1 2 3) := ⟨rfl, rfl⟩

theorem witness_RejectionOfAnIllegalWord : (idle sample).status.busy = false ∧ decode 0xFF = .error .illegalOpcode ∧
    decode 0x01000000 = .error .reservedField ∧ decode 0x811 = .error .badRegister := ⟨rfl, rfl, rfl, rfl⟩

/-! The window. -/

theorem witness_WindowMap : (0x000#12).toNat % 4 = 0 ∧ Region.id.offset = some (0x000#12).toNat ∧
    (Region.sigS 7).offset = some (0x63C#12).toNat ∧ region 0x01C = .unmapped ∧ region 0x480 = .tag 1 ∧
    region 0x460 = .unmapped ∧ region 0x640 = .unmapped ∧ region 0xFFC = .unmapped := by decide +kernel

theorem witness_HostReadAnswers : (idle sample).status.busy = false ∧ busyNop.status.busy = true ∧
    (Region.sigV).offset = some (0x018#12).toNat ∧ Region.sigV ∉ [Region.id, .status, .ctrl, .cmd] ∧
    (∀ i j, Region.sigV ≠ .raw i j) ∧ (0x01C#12).toNat % 4 = 0 ∧ ∀ g : Region, g.offset ≠ some (0x01C#12).toNat := by
  refine ⟨rfl, rfl, by decide, by decide, by simp, by decide, fun g => ?_⟩
  cases g <;> simp [Region.offset] <;> omega

/-- The hypotheses of the last clause of `HostWriteEffects`. -/
abbrev ReadOnlyOffset (off : BitVec 12) : Prop :=
  off.toNat % 4 = 0 ∧ off ∉ ([0x004, 0x008, 0x00C] : List (BitVec 12)) ∧ ∀ i j, off ≠ (Region.raw i j).off

theorem witness_HostWriteEffects : ReadOnlyOffset 0x000 ∧ ReadOnlyOffset 0x010 ∧ ReadOnlyOffset 0x0FC ∧ ReadOnlyOffset 0x180 ∧
    ReadOnlyOffset 0x200 ∧ ReadOnlyOffset 0xFFC ∧ (2#32).getLsbD 1 = true ∧ (1#32).getLsbD 1 = false ∧
    (idle sample).status.busy = false ∧ busyNop.status.busy = true := by decide +kernel

theorem witness_RawWriteReplacesOneWord : (idle sample).status.busy = false := rfl

theorem witness_NonWordAccess : (2 ≠ 4 ∨ (0x100#12).toNat % 4 ≠ 0) ∧ (4 ≠ 4 ∨ (0x102#12).toNat % 4 ≠ 0) := by decide

theorem witness_StatusLayout : 0 < 32 ∧ 8 < 32 ∧ 11 < 32 ∧ 31 < 32 := by decide

theorem witness_InterruptLine :
    (∃ s t, step s = .next t ∧ s.status.done = false ∧ t.status.done = true) ∧
    ∃ s t, step s = .next t ∧ s.job = none ∧ s.status.done = false ∧ t.status.done = true :=
  ⟨⟨running sample .nop, _, step_result (by decide +kernel), rfl, by decide +kernel⟩,
    { idle sample with hostQueue := [.write 0x00C 4 0xFF] }, _, step_result (by decide +kernel), rfl, rfl, by decide +kernel⟩

theorem witness_HostAccessesAreTame :
    (idle sample).job = none ∧ ((idle sample).hostOp (.write 0x00C 4 0)).job.isSome = true ∧
    ((idle sample).hostOp (.write 0x100 4 7)).regs ≠ (idle sample).regs := by decide +kernel

theorem witness_CommandInFlightIsLatched : busyNop.Coherent ∧ busyNop.job.isSome = true ∧
    ∀ op ∈ ([.write 0x00C 4 0x20, .write 0x008 4 1, .read 0x200 4, .wait] : List HostOp),
      ∀ w, op = .write 0x008 4 w → w.getLsbD 1 = false := by
  refine ⟨running_coherent sample .nop .reference rfl, rfl, ?_⟩
  simp only [List.mem_cons, List.not_mem_nil, or_false, forall_eq_or_imp, forall_eq]
  refine ⟨fun w h => ?_, fun w h => ?_, fun w h => ?_, fun w h => ?_⟩ <;> simp_all
  · rw [← h]; decide

theorem witness_HiddenStateIsUnseen : ∃ j, (running sample (.ptMul 1 0 2)).Coherent ∧ (running sample (.ptMul 1 0 2)).job = some j ∧
    j.seq ≠ .direct := ⟨_, running_coherent _ _ _ rfl, rfl, by decide +kernel⟩

theorem witness_IdleStatusReadMeansDone :
    ((idle sample).Coherent ∧ (State.hostOp (idle sample) (.read 0x004 4)).readData.getLsbD 0 = false) ∧
    (∃ s : State, s.Coherent ∧ s.status.ok = true ∧ (s.hostOp (.read 0x004 4)).readData.getLsbD 1 = true) ∧
    sample.window (.s 0 0) = some 0 ∧ sample.window (.raw 3 7) = some 1003 :=
  ⟨⟨idle_coherent _ _, by decide +kernel⟩,
    ⟨{ idle sample with status := { Status.zero with done := true, ok := true } }, ⟨rfl, nofun, nofun, nofun, nofun⟩, rfl,
      by decide +kernel⟩, by decide +kernel, by decide +kernel⟩

theorem witness_HostPseudoInstructions : (idle sample).status.busy = false ∧
    (HostStatement.lib 2 (List.replicate 32 0xFF)).wellFormed = true ∧
    (BitVec.ofNat 256 (2 ^ 256 - 1)).toNat = intOf (List.replicate 32 0xFF) := by decide +kernel

/-! Reset. -/

theorem witness_BothResets : (2#32).getLsbD 1 = true ∧ ∃ s : State, s.turns = [.rst] ∧ s.job.isSome = true :=
  ⟨by decide, { running sample .nop with turns := [.rst] }, rfl, rfl⟩

/-! Commands. -/

theorem witness_Inverses :
    let r := sample.setF 0 0 |>.setF 1 (p - 1) |>.setS 0 0 |>.setS 1 (n - 1)
    ((r.f[0]).toNat < p ∧ (r.f[0]).toNat = 0) ∧ ((r.f[1]).toNat < p ∧ (r.f[1]).toNat ≠ 0) ∧
    ((r.s[0]).toNat < n ∧ (r.s[0]).toNat = 0) ∧ (r.s[1]).toNat < n ∧ (r.s[1]).toNat ≠ 0 := by decide +kernel

theorem witness_InversionMethodsAgree :
    let r := sample.setF 0 2 |>.setRaw 1 (p - 2)
    0 < 2 ∧ 2 < p ∧ (p + 1) / 2 < p ∧ 2 * ((p + 1) / 2) % p = 1 ∧ (r.f[0]).toNat = 2 ∧ (r.raw[1]).toNat = p - 2 := by
  decide +kernel

/-- Every case of R200: the identity, a sum, a doubling, a vertical tangent, an opposite. -/
theorem witness_PointSums :
    (∀ i : PReg, ((idle sample).src.p[i]).Legal) ∧ (PointReg.ofPoint generator).Legal ∧ (PointReg.ofPoint (.aff 5 0)).Legal ∧
    (PointReg.ofPoint (.aff 0 (p - 1))).Legal :=
  ⟨sample_legal.p_legal, PointReg.ofPoint_legal generator_legal, PointReg.ofPoint_legal (by unfold Point.Legal; decide),
    PointReg.ofPoint_legal (by unfold Point.Legal; decide)⟩

theorem witness_Multiplications :
    ((running sample (.ptMul 1 0 2)).Inv ∧ (running sample (.ptMul 1 0 2)).Running (.ptMul 1 0 2)) ∧
    ((running sample (.ptMulg 1 2)).Inv ∧ (running sample (.ptMulg 1 2)).Running (.ptMulg 1 2)) ∧
    (running sample (.ecPubkey 3 7)).Inv ∧ (running sample (.ecPubkey 3 7)).Running (.ecPubkey 3 7) :=
  ⟨⟨running_inv sample_legal _ _ rfl, running_runs _ _ _ rfl⟩, ⟨running_inv sample_legal _ _ rfl, running_runs _ _ _ rfl⟩,
    running_inv sample_legal _ _ rfl, running_runs _ _ _ rfl⟩

/-- The same in the middle of the loop. -/
theorem witness_Multiplications_midway : ∃ s : State, s.Inv ∧ s.Running (.ptMul 1 0 2) ∧
    s.seq ≠ Sequencer.startSmul (sample.rawAt 2) (sample.pAt 0) := by
  have hd : decode 0x00020134 = .ok (.ptMul 1 0 2) := rfl
  let s := running sample (.ptMul 1 0 2)
  let q := Sequencer.run s.hmac sample (.ptMul 1 0 2) 3 (Sequencer.start s.hmac sample (.ptMul 1 0 2))
  refine ⟨{ s with job := some { word := 0x00020134, snap := sample, seq := q } }, ⟨sample_legal, rfl, ?_, ?_, ?_, ?_⟩,
    ⟨_, rfl, hd⟩, by decide +kernel⟩ <;> intro j hj <;> cases hj
  · rfl
  · rfl
  · exact ⟨_, hd, 3, rfl⟩
  · exact ⟨rfl, rfl, rfl, rfl, rfl⟩

theorem witness_Coordinates : (sample.p[2]).inf = true ∧ (sample.p[0]).inf = false := by decide

/-! The nonce: an HMAC that always gives 5 accepts at once, one that always gives 0, or `n`, never does. -/

theorem witness_NonceDerivation : ∃ g5 g0 gn,
    ((running sample (.ecGenk 2 0 0) (.constant 5)).Inv ∧ (running sample (.ecGenk 2 0 0) (.constant 5)).Running (.ecGenk 2 0 0) ∧
      (running sample (.ecGenk 2 0 0) (.constant 5)).seq = .gen g5 ∧ 0 < (g5.candidate (.constant 5)).toNat ∧
      (g5.candidate (.constant 5)).toNat < n) ∧
    ((running sample (.ecGenk 2 0 0) (.constant 0)).Inv ∧ (running sample (.ecGenk 2 0 0) (.constant 0)).Running (.ecGenk 2 0 0) ∧
      (running sample (.ecGenk 2 0 0) (.constant 0)).seq = .gen g0 ∧ ¬0 < (g0.candidate (.constant 0)).toNat) ∧
    (running sample (.ecGenk 2 0 0) (.constant (.ofNat 256 n))).Inv ∧
      (running sample (.ecGenk 2 0 0) (.constant (.ofNat 256 n))).seq = .gen gn ∧
      ¬(gn.candidate (.constant (.ofNat 256 n))).toNat < n :=
  ⟨_, _, _, ⟨running_inv sample_legal _ _ rfl, running_runs _ _ _ rfl, rfl, by decide, by decide⟩,
    ⟨running_inv sample_legal _ _ rfl, running_runs _ _ _ rfl, rfl, by decide⟩, running_inv sample_legal _ _ rfl, rfl,
    by decide⟩

theorem generateK_five (x : Word256) (b fuel : Nat) : generateK (.constant 5) (fuel + 1) x b = some 5 := by
  have h : acceptable 5 = true := by decide
  rw [generateK, candidateLoop, Generator.candidate, HmacKind.run, if_pos h]

theorem generateK_zero (x : Word256) (b fuel : Nat) : generateK (.constant 0) fuel x b = none := by
  have loop : ∀ (fuel : Nat) (g : Generator), candidateLoop (.constant 0) fuel g = none := by
    intro fuel
    induction fuel with
    | zero => intro g; rfl
    | succ fuel ih => intro g; rw [candidateLoop, Generator.candidate, HmacKind.run, if_neg (by decide), ih]
  exact loop _ _

/-- A candidate accepted, one too low and one too high, from any generator; a loop that gives a value. -/
theorem witness_Rfc6979Steps (g : Generator) :
    (0 < (HmacKind.run (.constant 5) g.k (bytes32 g.v)).toNat ∧ (HmacKind.run (.constant 5) g.k (bytes32 g.v)).toNat < n) ∧
    ¬0 < (HmacKind.run (.constant 0) g.k (bytes32 g.v)).toNat ∧
    ¬(HmacKind.run (.constant (.ofNat 256 n)) g.k (bytes32 g.v)).toNat < n ∧
    generateK (.constant 5) 1 1 0 = some 5 :=
  ⟨show 0 < (5#256).toNat ∧ (5#256).toNat < n by decide, show ¬0 < (0#256).toNat by decide,
    show ¬(BitVec.ofNat 256 n).toNat < n by decide, generateK_five 1 0 0⟩

theorem witness_NonceLoopRuns :
    ((idle sample (.constant 5)).job = none ∧ (idle sample (.constant 5)).status.busy = false ∧
      (idle sample (.constant 5)).turns = [] ∧
      generateK (idle sample (.constant 5)).hmac 1 (sample.s[0]) (sample.raw[0]).toNat = some 5) ∧
    (idle sample (.constant 0)).job = none ∧ (idle sample (.constant 0)).status.busy = false ∧
      (idle sample (.constant 0)).turns = [] ∧
      ∀ fuel, generateK (idle sample (.constant 0)).hmac fuel (sample.s[0]) (sample.raw[0]).toNat = none :=
  ⟨⟨rfl, rfl, rfl, generateK_five _ _ 0⟩, rfl, rfl, rfl, fun fuel => generateK_zero _ _ fuel⟩

/-- Registers with the key 1, the digest 1 and the nonce 2, the key's public point and V-E4's signature. -/
def signing : Regs :=
  sample.setS 0 1 |>.setS 1 1 |>.setS 2 2 |>.setP 0 generator |>.setRaw 0 1 |>.setSig
    ⟨0xC6047F9441ED7D6D3045406E95C07CD85C778E4B8CEF3CA7ABAC09B95C709EE5,
      0x63023FCA20F6BEB69822A0374AE03E6C2E3BC725C6779E53D5D604DCAE384F73, 0⟩

theorem signing_legal : signing.Legal := legal_of (by decide +kernel) (by decide +kernel) (by decide +kernel) (by decide +kernel)

theorem witness_SigningWithNonce :
    (running signing (.ecSign 0 1 2)).Inv ∧ (running signing (.ecSign 0 1 2)).Running (.ecSign 0 1 2) :=
  ⟨running_inv signing_legal _ _ rfl, running_runs _ _ _ rfl⟩

/-- The sum with the nonce's point is `R = 2G`, the identity for the nonce 0. -/
theorem witness_SigningWithNonce_points : ptSmul generator 2 = twoG ∧ ptSmul generator 0 = .inf := by decide +kernel

theorem witness_SigningADigest : ∃ g2 g0,
    ((running signing (.ecSignh 0 0) (.constant 2)).Inv ∧ (running signing (.ecSignh 0 0) (.constant 2)).Running (.ecSignh 0 0) ∧
      (running signing (.ecSignh 0 0) (.constant 2)).seq = .gen g2 ∧
      (∀ g, (running signing (.ecSignh 0 0) (.constant 2)).seq = .gen g →
        0 < (g.candidate (.constant 2)).toNat ∧ (g.candidate (.constant 2)).toNat < n)) ∧
    (running signing (.ecSignh 0 0) (.constant 0)).Inv ∧ (running signing (.ecSignh 0 0) (.constant 0)).Running (.ecSignh 0 0) ∧
      (running signing (.ecSignh 0 0) (.constant 0)).seq = .gen g0 ∧ ¬0 < (g0.candidate (.constant 0)).toNat :=
  ⟨_, _, ⟨running_inv signing_legal _ _ rfl, running_runs _ _ _ rfl, rfl, fun _ _ => show 0 < (2#256).toNat ∧ (2#256).toNat < n by decide⟩,
    running_inv signing_legal _ _ rfl, running_runs _ _ _ rfl, rfl, by decide⟩

/-- The nonce already given: the generator took 2 at once and the multiplication by it has begun. -/
theorem witness_SigningADigest_given : ∃ s : State, s.Inv ∧ s.Running (.ecSignh 0 0) ∧
    (∃ k acc addend bit, s.seq = .smul k acc addend bit) ∧
    ∀ g, s.seq = .gen g → 0 < (g.candidate s.hmac).toNat ∧ (g.candidate s.hmac).toNat < n := by
  have hd : decode 0x00000042 = .ok (.ecSignh 0 0) := rfl
  let s := running signing (.ecSignh 0 0) (.constant 2)
  let q := Sequencer.run s.hmac signing (.ecSignh 0 0) 3 (Sequencer.start s.hmac signing (.ecSignh 0 0))
  have hq : ∃ k acc addend bit, q = .smul k acc addend bit := ⟨_, _, _, _, rfl⟩
  refine ⟨{ s with job := some { word := 0x00000042, snap := signing, seq := q } },
    ⟨signing_legal, rfl, ?_, ?_, ?_, ?_⟩, ⟨_, rfl, hd⟩, hq, ?_⟩
  · intro j hj; cases hj; rfl
  · intro j hj; cases hj; rfl
  · intro j hj; cases hj; exact ⟨_, hd, 3, rfl⟩
  · intro j hj; cases hj; exact ⟨rfl, rfl, rfl, rfl, rfl⟩
  · obtain ⟨k, acc, addend, bit, e⟩ := hq
    intro g hg
    exact absurd (e.symm.trans hg) nofun

theorem witness_Verification : (running signing (.ecVerify 0 1)).Inv ∧ (running signing (.ecVerify 0 1)).Running (.ecVerify 0 1) :=
  ⟨running_inv signing_legal _ _ rfl, running_runs _ _ _ rfl⟩

theorem witness_SignatureOperations :
    let low := (sample.setSig ⟨5, .ofNat 256 halfN, 1⟩).sig
    let high := (sample.setSig ⟨5, .ofNat 256 (halfN + 1), 0xFF⟩).sig
    (low.s.toNat < n ∧ low.s.toNat ≤ n / 2) ∧ high.s.toNat < n ∧ n / 2 < high.s.toNat := by decide +kernel

theorem witness_SignedIsLowS : ∃ s t, s.Inv ∧ s.Running (.ecSign 0 1 2) ∧ exec (.ecSign 0 1 2) s = .next t ∧ t.status.ok = true :=
  ⟨running signing (.ecSign 0 1 2), _, running_inv signing_legal _ _ rfl, running_runs _ _ _ rfl, exec_result _ _,
    by decide +kernel⟩

theorem witness_SignedIsLowS_digest :
    ∃ s t, s.Inv ∧ s.Running (.ecSignh 0 0) ∧ exec (.ecSignh 0 0) s = .next t ∧ t.status.ok = true :=
  ⟨running signing (.ecSignh 0 0) (.constant 2), _, running_inv signing_legal _ _ rfl, running_runs _ _ _ rfl, exec_result _ _,
    by decide +kernel⟩

theorem witness_SignThenVerify : ∃ s t u : State, s.Inv ∧ s.Running (.ecSign 0 1 2) ∧ 0 < (s.src.s[(0 : SReg)]).toNat ∧
    exec (.ecSign 0 1 2) s = .next t ∧ t.status.ok = true ∧ u.Inv ∧ u.Running (.ecVerify 0 1) ∧ u.src.sig = t.regs.sig ∧
    u.src.s[(1 : SReg)] = s.src.s[(1 : SReg)] ∧ u.src.pAt 0 = ptSmul generator (s.src.s[(0 : SReg)]).toNat :=
  ⟨running signing (.ecSign 0 1 2), _, running signing (.ecVerify 0 1), running_inv signing_legal _ _ rfl,
    running_runs _ _ _ rfl, by decide +kernel, exec_result _ _, by decide +kernel, running_inv signing_legal _ _ rfl,
    running_runs _ _ _ rfl, by decide +kernel, by decide +kernel, by decide +kernel⟩

/-! The group. -/

theorem witness_SmulIsRepeatedAddition : generator.Legal ∧ generator.onCurve = true ∧ (2 ^ 256 - 2) + 1 < 2 ^ 256 ∧
    Point.inf.Legal ∧ Point.inf.onCurve = true := ⟨generator_legal, by decide, by decide, trivial, by decide⟩

theorem witness_GeneratorHasOrderN : 2 ^ 256 - 1 < 2 ^ 256 := by decide

theorem witness_GroupProperties : Point.inf.Legal ∧ Point.inf.onCurve = true ∧ generator.Legal ∧ generator.onCurve = true :=
  ⟨trivial, by decide, generator_legal, by decide⟩

theorem witness_NoPointOfOrderTwo : gx < p ∧ gy < p ∧ (Point.aff gx gy).onCurve = true := by decide

theorem witness_CommandsKeepTheCurve : ∃ s t, s.Inv ∧ s.Running (.ecPubkey 1 0) ∧ s.regs.OnCurve ∧
    (∀ d a b, Instr.ecPubkey 1 0 ≠ .ptLoad d a b) ∧ exec (.ecPubkey 1 0) s = .next t :=
  ⟨running Regs.reset (.ecPubkey 1 0), _,
    running_inv (legal_of (by decide +kernel) (by decide +kernel) (by decide +kernel) (by decide +kernel)) _ _ rfl,
    running_runs _ _ _ rfl, show ∀ i : PReg, _ from by decide +kernel, by simp, exec_result _ _⟩

/-! The whole machine. -/

theorem witness_StepKeepsInv : ∃ s t, s.Inv ∧ step s = .next t :=
  ⟨running sample (.feAdd 1 2 3), _, running_inv sample_legal _ _ rfl, step_result (by decide +kernel)⟩

theorem witness_NoStepStops : (running sample .nop).Inv := running_inv sample_legal _ _ rfl

theorem witness_CommandsWriteTheirDestination : ∃ s t, exec (.feInv 1 0) s = .next t ∧
    writes (.feInv 1 0) ≠ some (.f 0) ∧ t.job = none ∧ t.status.ok = false :=
  ⟨running (sample.setF 0 0) (.feInv 1 0), _, exec_result _ _, by decide, by decide +kernel, by decide +kernel⟩

/-- OK = 0, COND = 1 and OVF = 1 each happen. -/
theorem witness_FlagsOfCompletion :
    (∃ s t, exec (.ptGetx 1 2) s = .next t ∧ t.job = none ∧ t.status.ok = false) ∧
    (∃ s t, exec (.feEq 1 1) s = .next t ∧ t.job = none ∧ t.status.cond = true) ∧
    ∃ s t, exec .sigVleg s = .next t ∧ t.job = none ∧ t.status.ovf = true :=
  ⟨⟨running sample (.ptGetx 1 2), _, exec_result _ _, by decide +kernel, by decide +kernel⟩,
    ⟨running sample (.feEq 1 1), _, exec_result _ _, by decide +kernel, by decide +kernel⟩,
    running (sample.setSig ⟨1, 1, 0xFF⟩) .sigVleg, _, exec_result _ _, by decide +kernel, by decide +kernel⟩

theorem witness_CommandsTerminate : (∀ d a b, Instr.ecSign 0 1 2 ≠ .ecGenk d a b) ∧ ∀ a b, Instr.ecSign 0 1 2 ≠ .ecSignh a b := by
  simp

theorem witness_ResultsAreDetermined : ∃ s s' t t', s.Coherent ∧ s'.Coherent ∧ s.Running (.feMul 1 0 0) ∧
    s'.Running (.feMul 1 0 0) ∧ s.hmac = s'.hmac ∧ (∀ x ∈ reads (.feMul 1 0 0), SameAt s.src s'.src x) ∧ s.regs ≠ s'.regs ∧
    exec (.feMul 1 0 0) s = .next t ∧ exec (.feMul 1 0 0) s' = .next t' ∧ t.job = none ∧ t'.job = none ∧ t.status.ok = true ∧
    writes (.feMul 1 0 0) = some (.f 1) := by
  refine ⟨running sample (.feMul 1 0 0), running (sample.setF 5 1) (.feMul 1 0 0), _, _, running_coherent _ _ _ rfl,
    running_coherent _ _ _ rfl, running_runs _ _ _ rfl, running_runs _ _ _ rfl, rfl, ?_, by decide +kernel, exec_result _ _,
    exec_result _ _, by decide +kernel, by decide +kernel, by decide +kernel, rfl⟩
  simp only [reads, List.mem_cons, List.not_mem_nil, or_false, or_self, forall_eq]
  show _ = _
  decide +kernel

theorem witness_DataChangesOnlyThus :
    (∃ s t, s.Coherent ∧ s.job.isSome = true ∧ step s = .next t ∧ t.regs ≠ s.regs) ∧
    ∃ s t, s.Coherent ∧ s.job = none ∧ step s = .next t ∧ t.regs ≠ s.regs :=
  ⟨⟨running sample (.feAdd 1 2 3), _, running_coherent _ _ _ rfl, rfl, step_result (by decide +kernel), by decide +kernel⟩,
    { idle sample with hostQueue := [.write 0x17C 4 7] }, _,
    ⟨rfl, nofun, nofun, nofun, nofun⟩, rfl,
    step_result (by decide +kernel), by decide +kernel⟩

theorem witness_EndOfRun : nopRun.Coherent ∧ nopRun.runOver 4 = true ∧ ((nopRun.after 4).map State.turns) = some [] ∧
    sample.window (.raw 0 7) = some 1000 :=
  ⟨⟨rfl, nofun, nofun, nofun, nofun⟩, by decide +kernel, by decide +kernel, by decide +kernel⟩

end Sys2Proof.Tests
end

section
/-! PROOFS. A legal word is the encoding of its command (30_encoding.md R111, R119). -/

namespace Sys2Proof

/-- A row of the opcode map is the encoder's: with unused fields 0 and used ones in range the command it builds encodes to the
fields it was built from (30_encoding.md R111, R115, R116). -/
theorem encode_build {op d a b c : Nat} {e : OpcodeEntry} (he : opcodeEntry op = some e)
    (hu : (unusedIsZero e.dFile d && unusedIsZero e.aFile a && unusedIsZero e.bFile b && unusedIsZero e.cFile c) = true)
    (hr : (usedInRange e.dFile d && usedInRange e.aFile a && usedInRange e.bFile b && usedInRange e.cFile c) = true) :
    encode (e.build d a b c) = pack op d a b c := by
  unfold opcodeEntry at he
  split at he <;> cases he <;> simp_all [encode, Nat.mod_eq_of_lt]

/-- A legal word is the encoding of the command it decodes to. -/
theorem encode_of_decode {w : Word} {i : Instr} (h : decode w = .ok i) : encode i = w := by
  obtain ⟨e, he, hresv, hu, hr, rfl⟩ := decode_ok h
  rw [encode_build he hu hr, ← eq_pack hresv]

end Sys2Proof
end

section
/-! PROOFS. Every step keeps the invariant (10_state.md R33 to R36, R43, R52; 60_exceptions.md R301). -/

namespace Sys2Proof.Machine

/-! ### Ranges of the values a command writes -/

theorem subN_lt (x y : Nat) : subN x y < Config.n := subMod_lt n_pos x y

theorem Regs.rawAt_lt (r : Regs) (i : RReg) : r.rawAt i < 2 ^ 256 := (r.raw[i]).isLt

theorem invMod_lt {m x v : Nat} (hm : 0 < m) (hlt : m < 2 ^ 256) (h : invMod m x = some v) : v < m := by
  unfold invMod at h
  split_ifs at h
  obtain rfl := Option.some.inj h
  exact powMod_lt hm x _ (by omega)

theorem Point.Legal.x_lt {q : Point} (hq : q.Legal) {v : Nat} (h : q.x? = some v) : v < Config.p := by
  cases q with
  | inf => cases h
  | aff x y => cases h; exact hq.1

theorem Point.Legal.y_lt {q : Point} (hq : q.Legal) {v : Nat} (h : q.y? = some v) : v < Config.p := by
  cases q with
  | inf => cases h
  | aff x y => cases h; exact hq.2

theorem normalize_legal {g : Sig} (h : g.Legal) : (normalize g).Legal := by
  unfold normalize
  split_ifs with hs
  · refine ⟨h.r_lt, ?_⟩
    rw [BitVec.toNat_ofNat]
    have := n_pos
    exact lt_of_le_of_lt (Nat.mod_le _ _) (by omega)
  · exact h

/-- A signature holds scalars (43_ecdsa.md R245, R253). -/
theorem signWith_legal {x z k : Nat} {q : Point} {g : Sig} (h : signWith x z k q = some g) : g.Legal := by
  cases q with
  | inf => cases h
  | aff rx ry =>
    simp only [signWith, forced_eq] at h
    split_ifs at h
    split at h
    · cases h
    · split_ifs at h
      obtain rfl := Option.some.inj h
      refine normalize_legal ⟨?_, ?_⟩ <;> rw [BitVec.toNat_ofNat]
      · exact lt_of_le_of_lt (Nat.mod_le _ _) (Nat.mod_lt _ n_pos)
      · exact lt_of_le_of_lt (Nat.mod_le _ _) (mulN_lt _ _)

/-! ### A completing step keeps the register ranges -/

/-- An Option result writes a legal value or nothing. -/
theorem Regs.Legal.elim {r : Regs} (h : r.Legal) {α : Type} (res : Option α) {write : α → Regs}
    (hw : ∀ v, res = some v → (write v).Legal) : (res.elim r write).Legal := by
  cases res with
  | none => exact h
  | some v => exact hw v rfl

theorem Regs.Legal.setSig_elim {r : Regs} (h : r.Legal) (x z k : Nat) (q : Point) :
    ((signWith x z k q).elim r r.setSig).Legal := h.elim _ fun _ hg => h.setSig (signWith_legal hg)

/-- Completing a running command of a state that meets the invariant writes a value within the destination's range
(10_state.md R33 to R36). -/
theorem State.Inv.exec_legal {s t : State} {i : Instr} (h : s.Inv) (hr : s.Running i) (he : exec i s = .next t) :
    t.regs.Legal := by
  obtain ⟨j, -, hsrc, hseq, hsnap, hj⟩ := h.coherent.job_coherent hr
  have hl : s.regs.Legal := h.legal
  have hs : s.src.Legal := by rw [hsrc, hsnap]; exact hl
  cases i with
  | nop | feEq | scEq | ptIsinf | ecVerify | sigValid => cases he; exact hl
  | feNew d a => cases he; exact hl.setF d (Nat.mod_lt _ p_pos)
  | feAdd d a b => cases he; exact hl.setF d (addP_lt _ _)
  | feSub d a b => cases he; exact hl.setF d (subP_lt _ _)
  | feMul d a b => cases he; exact hl.setF d (mulP_lt _ _)
  | fePow d a b => cases he; exact hl.setF d (powMod_lt p_pos _ _ (Regs.rawAt_lt _ b))
  | feInv d a => cases he; exact hl.elim _ fun v hv => hl.setF d (invMod_lt p_pos p_lt hv)
  | feRet d a => cases he; exact hl.setRaw d _
  | scNew d a => cases he; exact hl.setS d (Nat.mod_lt _ n_pos)
  | scAdd d a b => cases he; exact hl.setS d (addN_lt _ _)
  | scSub d a b => cases he; exact hl.setS d (subN_lt _ _)
  | scMul d a b => cases he; exact hl.setS d (mulN_lt _ _)
  | scPow d a b => cases he; exact hl.setS d (powMod_lt n_pos _ _ (Regs.rawAt_lt _ b))
  | scInv d a => cases he; exact hl.elim _ fun v hv => hl.setS d (invMod_lt n_pos n_lt hv)
  | scRet d a => cases he; exact hl.setRaw d _
  | scFromfe d a => cases he; exact hl.setS d (Nat.mod_lt _ n_pos)
  | ptSetinf d => cases he; exact hl.setP d trivial
  | ptLoad d a b => cases he; exact hl.setP d ⟨hs.f_lt a, hs.f_lt b⟩
  | ptAdd d a b => cases he; exact hl.setP d (ptAdd_legal (hs.pAt a) (hs.pAt b))
  | ptDbl d a => cases he; exact hl.setP d (ptDbl_legal (hs.pAt a))
  | ptMul d a b =>
    cases he
    refine hl.setP d ?_
    rw [hsrc, hseq, hj.ptMul, ← hsrc]
    exact ptSmul_legal (hs.pAt a) _
  | ptMulg d a =>
    cases he
    refine hl.setP d ?_
    rw [hsrc, hseq, hj.ptMulg, ← hsrc]
    exact ptSmul_legal generator_legal _
  | ecPubkey d a =>
    cases he
    refine hl.setP d ?_
    rw [hsrc, hseq, hj.ecPubkey, ← hsrc]
    exact ptSmul_legal generator_legal _
  | ptGetx d a => cases he; exact hl.elim _ fun v hv => hl.setF d ((hs.pAt a).x_lt hv)
  | ptGety d a => cases he; exact hl.elim _ fun v hv => hl.setF d ((hs.pAt a).y_lt hv)
  | ecGenk d a b =>
    simp only [exec, execEcGenk] at he
    split_ifs at he with ht
    · cases he; exact hl.setS d ((acceptable_iff _).1 ht).2
    · cases he; exact hl
  | ecSign a b c => cases he; exact hl.setSig_elim _ _ _ _
  | ecSignh a b =>
    simp only [exec, execEcSignh] at he
    split at he
    · cases he; exact hl.setSig_elim _ _ _ _
    · split_ifs at he
      · cases he; exact hl.setSig_elim _ _ _ _
      · cases he; exact hl
  | sigLoad a b c => cases he; exact hl.setSig ⟨hs.s_lt a, hs.s_lt b⟩
  | sigNorm => cases he; exact hl.setSig (normalize_legal hs.sig_legal)
  | sigVleg | sigV155 => cases he; exact hl.setVout _

/-! ### Coherence -/

/-- The flags a command in flight keeps clear (60_exceptions.md R301). -/
def Status.Clear (t : Status) : Prop :=
  t.done = false ∧ t.ok = false ∧ t.cond = false ∧ t.ovf = false ∧ t.err = none

theorem Status.Clear.accessError {t : Status} (h : t.Clear) : t.accessError.Clear := h

theorem Status.Clear.writeOneToClear {t : Status} (h : t.Clear) (w : Word) : (t.writeOneToClear w).Clear := by
  obtain ⟨hdone, hrest⟩ := h
  exact ⟨by rw [writeOneToClear_done, hdone, Bool.false_and], hrest⟩

theorem State.Coherent.of_idle {s : State} (hj : s.job = none) (hb : s.status.busy = false) : s.Coherent := by
  refine ⟨by rw [hj, hb]; rfl, ?_, ?_, ?_, ?_⟩ <;> (rw [hj]; nofun)

theorem State.Coherent.job_of_idle {s : State} (h : s.Coherent) (hb : s.status.busy = false) : s.job = none := by
  simpa [hb] using h.busy_iff

/-- Coherence speaks of the engine's registers, CMD, the command in flight and STATUS only, and of STATUS only that BUSY is the
same and no result flag is raised. -/
theorem State.Coherent.congr {s t : State} (h : s.Coherent) (hregs : t.regs = s.regs) (hcmd : t.cmd = s.cmd)
    (hjob : t.job = s.job) (hhmac : t.hmac = s.hmac) (hbusy : t.status.busy = s.status.busy)
    (hclear : s.status.Clear → t.status.Clear) : t.Coherent := by
  refine ⟨?_, ?_, ?_, ?_, ?_⟩
  · rw [hbusy, hjob]; exact h.busy_iff
  · rw [hjob, hcmd]; exact h.word_eq
  · rw [hjob, hregs]; exact h.snap_eq
  · rw [hjob, hhmac]; exact h.onItsWay
  · rw [hjob]; exact fun j hj => hclear (h.flags_clear j hj)

/-- The sequencer may stand anywhere on its command's way (10_state.md R52). -/
theorem State.Coherent.moveSequencer {s : State} (h : s.Coherent) {j : Job} (hj : s.job = some j) {q : Sequencer} {i : Instr}
    (hq : ({ j with seq := q } : Job).Coherent s.hmac i) :
    ({ s with job := some { j with seq := q } } : State).Coherent := by
  refine ⟨?_, ?_, ?_, ?_, ?_⟩
  · rw [h.busy_iff, hj]; rfl
  · rintro _ ⟨⟩; exact h.word_eq j hj
  · rintro _ ⟨⟩; exact h.snap_eq j hj
  · rintro _ ⟨⟩; exact ⟨i, hq⟩
  · rintro _ ⟨⟩; exact h.flags_clear j hj

/-- An accepted command is coherent: it stands at its start (60_exceptions.md R301). -/
theorem State.accept_coherent (s : State) {w : Word} {i : Instr} (hd : decode w = .ok i) : (s.accept w i).Coherent := by
  refine ⟨rfl, ?_, ?_, ?_, ?_⟩ <;> rintro _ ⟨⟩
  · rfl
  · rfl
  · exact ⟨i, hd, 0, rfl⟩
  · exact ⟨rfl, rfl, rfl, rfl, rfl⟩

/-- A rejected candidate leaves the command in flight as it was latched; only the generator moves (43_ecdsa.md R243). -/
theorem State.Coherent.redraw_eq {s : State} (h : s.Coherent) {j : Job} (hj : s.job = some j) {i : Instr}
    (hd : decode j.word = .ok i) (g : Generator) :
    s.redraw i g = { s with job := some { j with seq := .gen (g.afterReject s.hmac) } } := by
  have hb : s.status.busy = true := by rw [h.busy_iff, hj]; rfl
  rw [State.redraw, encode_of_decode hd, State.src_of_job s j hj, ← hb]

/-- A command that draws another candidate stands at its generator: EC_SIGNH has none left to draw once it multiplies. -/
theorem State.Coherent.redraw_gen {s : State} (h : s.Coherent) {i : Instr} (hr : s.Running i) (hi : Draws i) {g : Generator}
    (he : exec i s = .next (s.redraw i g)) : ∃ g0, s.seq = .gen g0 := by
  obtain ⟨j, -, -, hseq, -, hj⟩ := h.job_coherent hr
  rw [hseq]
  cases i with
  | ecGenk d a b =>
    obtain ⟨g0, hg, -⟩ := hj.ecGenk
    exact ⟨g0, hg⟩
  | ecSignh a b =>
    rcases hj.ecSignh with ⟨g0, hg, -⟩ | ⟨k, -, acc, addend, bit, hq, -⟩
    · exact ⟨g0, hg⟩
    · simp only [exec, execEcSignh, hseq, hq] at he
      exact absurd (congrArg State.job (Host.Outcome.next.inj he)) nofun
  | _ => exact hi.elim

/-- A rejected candidate is one iteration of the command's loop, so the command stays on its way
(70_reset_and_hazards.md R353). -/
theorem State.Coherent.redraw {s : State} (h : s.Coherent) {i : Instr} (hr : s.Running i) (hi : Draws i) {g : Generator}
    (hg : ∀ g0, s.seq = .gen g0 → g = g0) (hrej : acceptable (g.candidate s.hmac) = false)
    (he : exec i s = .next (s.redraw i g)) : (s.redraw i g).Coherent := by
  obtain ⟨g0, hgen⟩ := h.redraw_gen hr hi he
  obtain rfl := hg g0 hgen
  obtain ⟨j, hj, -, hseq, -, hco⟩ := h.job_coherent hr
  have next : j.seq.run s.hmac j.snap i 1 = .gen (g.afterReject s.hmac) := by
    rw [← hseq, hgen]
    simp [Sequencer.run, Sequencer.tick, hrej]
  rw [h.redraw_eq hj hco.1]
  exact h.moveSequencer hj (next ▸ hco.engine 1)

/-! ### The invariant -/

theorem State.Inv.congr {s t : State} (h : s.Inv) (hregs : t.regs = s.regs) (hcmd : t.cmd = s.cmd) (hjob : t.job = s.job)
    (hhmac : t.hmac = s.hmac) (hstatus : t.status = s.status) : t.Inv :=
  ⟨hregs ▸ h.legal, h.coherent.congr hregs hcmd hjob hhmac (hstatus ▸ rfl) (hstatus ▸ id)⟩

theorem State.resetEngine_inv (s : State) : s.resetEngine.Inv := ⟨Regs.free_legal _, .of_idle rfl rfl⟩

theorem State.Inv.submit {s : State} (h : s.Inv) (hb : s.status.busy = false) (w : Word) : (s.submit w).Inv := by
  rcases submit_cases s w with ⟨i, hd, he⟩ | ⟨e, -, he⟩ <;> rw [he]
  · exact ⟨h.legal, s.accept_coherent hd⟩
  · exact ⟨h.legal, .of_idle (h.coherent.job_of_idle hb) hb⟩

/-- A host access keeps the invariant (20_memory.md R78, R79). -/
theorem State.Inv.hostOp {s : State} (h : s.Inv) (op : HostOp) : (s.hostOp op).Inv := by
  have ⟨hl, hc⟩ := h
  rcases hostOp_cases s op with ⟨q, w, d, st, he, hst⟩ | ⟨w, -, -, he⟩ | ⟨b, he⟩ | ⟨w, -, hb, he⟩ | ⟨i, j, w, -, hb, he⟩ <;>
    rw [he]
  · refine ⟨hl, hc.congr rfl rfl rfl rfl ?_ fun hclear => ?_⟩ <;> rcases hst with rfl | rfl | ⟨w, rfl⟩
    · rfl
    · rfl
    · rfl
    · exact hclear
    · exact hclear.accessError
    · exact hclear.writeOneToClear w
  · exact s.resetEngine_inv
  · exact h.congr rfl rfl rfl rfl rfl
  · exact h.submit hb w
  · exact ⟨⟨hl.f_lt, hl.s_lt, hl.p_legal, hl.sig_legal⟩, .of_idle (hc.job_of_idle hb) hb⟩

/-- The completing step of the command in flight keeps the invariant, whether it completes or draws another candidate. -/
theorem State.Inv.exec {s t : State} {i : Instr} (h : s.Inv) (hr : s.Running i) (he : exec i s = .next t) : t.Inv := by
  refine ⟨h.exec_legal hr he, ?_⟩
  rcases exec_cases i s with ⟨r, ok, cond, ovf, he'⟩ | ⟨hi, g, hg, hrej, he'⟩ <;>
    obtain rfl := Host.Outcome.next.inj (he'.symm.trans he)
  · exact .of_idle rfl rfl
  · exact h.coherent.redraw hr hi hg hrej he'

/-- Settles O53, by the cases of a step. -/
theorem stepKeepsInv : Obligations.StepKeepsInv := by
  intro s t h hstep
  have turned (tt : List Turn) : ({ s with turns := tt } : State).Inv := h.congr rfl rfl rfl rfl rfl
  have polled (tt : List Turn) (ops : List HostOp) : ({ s with turns := tt, hostQueue := ops } : State).Inv :=
    h.congr rfl rfl rfl rfl rfl
  obtain ⟨-, -, hcases⟩ := step_cases s t hstep
  rcases hcases with ⟨-, op, ops, -, tt, rfl⟩ | ⟨tt, rfl⟩ | ⟨m, tt, j, i, hj, hd, rfl⟩ | ⟨-, tt, rfl⟩ |
    ⟨-, tt, j, i, hj, hd, he⟩
  · exact (polled tt ops).hostOp op
  · exact turned tt
  · obtain ⟨i', hco⟩ := h.coherent.onItsWay j hj
    obtain rfl : i' = i := Except.ok.inj (hco.1.symm.trans hd)
    exact ⟨h.legal, (turned tt).coherent.moveSequencer hj (hco.engine m)⟩
  · exact State.resetEngine_inv _
  · exact (turned tt).exec ⟨j, hj, hd⟩ he

end Sys2Proof.Machine
end

section
/-! PROOFS. What a completing step writes and which flags it can show (10_state.md R39, R45 to R47; 60_exceptions.md R303,
R305). -/

namespace Sys2Proof.Machine

/-! ### One register written -/

/-- `r'` is `r` but for the register `w`; with `none`, it is `r` in every register. -/
def ChangesOnly (w : Option DataReg) (r r' : Regs) : Prop := ∀ x : DataReg, w ≠ some x → SameAt r' r x

theorem ChangesOnly.refl (w : Option DataReg) (r : Regs) : ChangesOnly w r r := fun x _ => by cases x <;> exact rfl

theorem changesOnly_setRaw (r : Regs) (d : RReg) (v : Nat) : ChangesOnly (some (.raw d)) r (r.setRaw d v) := by
  intro x hx
  cases x with
  | raw i => exact vector_set_of_ne _ (by rintro rfl; exact hx rfl) _
  | _ => exact rfl

theorem changesOnly_setF (r : Regs) (d : FReg) (v : Nat) : ChangesOnly (some (.f d)) r (r.setF d v) := by
  intro x hx
  cases x with
  | f i => exact vector_set_of_ne _ (by rintro rfl; exact hx rfl) _
  | _ => exact rfl

theorem changesOnly_setS (r : Regs) (d : SReg) (v : Nat) : ChangesOnly (some (.s d)) r (r.setS d v) := by
  intro x hx
  cases x with
  | s i => exact vector_set_of_ne _ (by rintro rfl; exact hx rfl) _
  | _ => exact rfl

theorem changesOnly_setP (r : Regs) (d : PReg) (v : Point) : ChangesOnly (some (.p d)) r (r.setP d v) := by
  intro x hx
  cases x with
  | p i => exact vector_set_of_ne _ (by rintro rfl; exact hx rfl) _
  | _ => exact rfl

theorem changesOnly_setSig (r : Regs) (g : Sig) : ChangesOnly (some .sig) r (r.setSig g) := by
  intro x hx
  cases x with
  | sig => exact absurd rfl hx
  | _ => exact rfl

theorem changesOnly_setVout (r : Regs) (v : Nat) : ChangesOnly (some .vout) r (r.setVout v) := by
  intro x hx
  cases x with
  | vout => exact absurd rfl hx
  | _ => exact rfl

/-! ### What a completion can show -/

/-- The commands with an Option result (60_exceptions.md R303). -/
def ReturnsOption (i : Instr) : Prop :=
  (∃ d a, i = .feInv d a) ∨ (∃ d a, i = .scInv d a) ∨ (∃ d a, i = .ptGetx d a) ∨
    (∃ d a, i = .ptGety d a) ∨ (∃ a b c, i = .ecSign a b c) ∨ ∃ a b, i = .ecSignh a b

/-- The boolean commands (10_state.md R46). -/
def ReturnsBool (i : Instr) : Prop :=
  (∃ a b, i = .feEq a b) ∨ (∃ a b, i = .scEq a b) ∨ (∃ a, i = .ptIsinf a) ∨ (∃ a b, i = .ecVerify a b) ∨ i = .sigValid

/-- The commands that can overflow their output (10_state.md R47). -/
def CanOverflow (i : Instr) : Prop := i = .sigVleg ∨ ∃ a, i = .sigV155 a

/-- What a completion of `i` that leaves the data registers `r'`, `r` before it, can show: it writes the destination only, none on
OK = 0, and each flag is raised or withheld by its family only (10_state.md R39, R45 to R47; 60_exceptions.md R303). -/
structure Shows (i : Instr) (r r' : Regs) (ok cond ovf : Bool) : Prop where
  changes : ChangesOnly (writes i) r r'
  same_of_none : ok = false → r' = r
  option_of_none : ok = false → ReturnsOption i
  bool_of_cond : cond = true → ReturnsBool i
  overflow_of_ovf : ovf = true → CanOverflow i

theorem Shows.plain {i : Instr} {r r' : Regs} (h : ChangesOnly (writes i) r r') : Shows i r r' true false false :=
  ⟨h, nofun, nofun, nofun, nofun⟩

theorem Shows.cond {i : Instr} (hi : ReturnsBool i) (r : Regs) (b : Bool) : Shows i r r true b false :=
  ⟨.refl _ r, nofun, nofun, fun _ => hi, nofun⟩

theorem Shows.ovf {i : Instr} (hi : CanOverflow i) {r r' : Regs} (h : ChangesOnly (writes i) r r') (ovf : Bool) :
    Shows i r r' true false ovf := ⟨h, nofun, nofun, nofun, fun _ => hi⟩

theorem Shows.option {i : Instr} (hi : ReturnsOption i) {r : Regs} {α : Type} (res : Option α) {write : α → Regs}
    (h : ∀ v, ChangesOnly (writes i) r (write v)) : Shows i r (res.elim r write) res.isSome false false := by
  cases res with
  | none => exact ⟨.refl _ r, fun _ => rfl, fun _ => hi, nofun, nofun⟩
  | some v => exact .plain (h v)

/-- A completing step completes its command, and shows what the command's family can show, or draws another candidate. -/
theorem exec_shows (i : Instr) (s : State) :
    (∃ r ok cond ovf, exec i s = .next (s.complete r ok cond ovf) ∧ Shows i s.regs r ok cond ovf) ∨
      ∃ g, exec i s = .next (s.redraw i g) := by
  cases i with
  | nop => exact .inl ⟨_, _, _, _, rfl, .plain (.refl _ _)⟩
  | feNew d | feAdd d | feSub d | feMul d | fePow d => exact .inl ⟨_, _, _, _, rfl, .plain (changesOnly_setF _ d _)⟩
  | scNew d | scAdd d | scSub d | scMul d | scPow d | scFromfe d =>
    exact .inl ⟨_, _, _, _, rfl, .plain (changesOnly_setS _ d _)⟩
  | feRet d | scRet d => exact .inl ⟨_, _, _, _, rfl, .plain (changesOnly_setRaw _ d _)⟩
  | ptSetinf d | ptLoad d | ptAdd d | ptDbl d | ptMul d | ptMulg d | ecPubkey d =>
    exact .inl ⟨_, _, _, _, rfl, .plain (changesOnly_setP _ d _)⟩
  | sigLoad | sigNorm => exact .inl ⟨_, _, _, _, rfl, .plain (changesOnly_setSig _ _)⟩
  | sigVleg => exact .inl ⟨_, _, _, _, rfl, .ovf (.inl rfl) (changesOnly_setVout _ _) _⟩
  | sigV155 a => exact .inl ⟨_, _, _, _, rfl, .ovf (.inr ⟨a, rfl⟩) (changesOnly_setVout _ _) _⟩
  | feEq a b => exact .inl ⟨_, _, _, _, rfl, .cond (.inl ⟨a, b, rfl⟩) _ _⟩
  | scEq a b => exact .inl ⟨_, _, _, _, rfl, .cond (.inr (.inl ⟨a, b, rfl⟩)) _ _⟩
  | ptIsinf a => exact .inl ⟨_, _, _, _, rfl, .cond (.inr (.inr (.inl ⟨a, rfl⟩))) _ _⟩
  | ecVerify a b => exact .inl ⟨_, _, _, _, rfl, .cond (.inr (.inr (.inr (.inl ⟨a, b, rfl⟩)))) _ _⟩
  | sigValid => exact .inl ⟨_, _, _, _, rfl, .cond (.inr (.inr (.inr (.inr rfl)))) _ _⟩
  | feInv d a => exact .inl ⟨_, _, _, _, rfl, .option (.inl ⟨d, a, rfl⟩) _ (changesOnly_setF _ d)⟩
  | scInv d a => exact .inl ⟨_, _, _, _, rfl, .option (.inr (.inl ⟨d, a, rfl⟩)) _ (changesOnly_setS _ d)⟩
  | ptGetx d a => exact .inl ⟨_, _, _, _, rfl, .option (.inr (.inr (.inl ⟨d, a, rfl⟩))) _ (changesOnly_setF _ d)⟩
  | ptGety d a => exact .inl ⟨_, _, _, _, rfl, .option (.inr (.inr (.inr (.inl ⟨d, a, rfl⟩)))) _ (changesOnly_setF _ d)⟩
  | ecSign a b c =>
    exact .inl ⟨_, _, _, _, rfl, .option (.inr (.inr (.inr (.inr (.inl ⟨a, b, c, rfl⟩))))) _ (changesOnly_setSig _)⟩
  | ecGenk d a b =>
    simp only [exec, execEcGenk]
    split_ifs
    · exact .inl ⟨_, _, _, _, rfl, .plain (changesOnly_setS _ d _)⟩
    · exact .inr ⟨_, rfl⟩
  | ecSignh a b =>
    have signed (k : Nat) (q : Point) : ∃ r ok cond ovf, Host.Outcome.next (signhComplete a b s k q) =
        (.next (s.complete r ok cond ovf) : Answer) ∧ Shows (.ecSignh a b) s.regs r ok cond ovf :=
      ⟨_, _, _, _, rfl, .option (.inr (.inr (.inr (.inr (.inr ⟨a, b, rfl⟩))))) _ (changesOnly_setSig _)⟩
    simp only [exec, execEcSignh]
    split
    · exact .inl (signed _ _)
    · split_ifs
      · exact .inl (signed _ _)
      · exact .inr ⟨_, rfl⟩

/-- `exec_shows` of the state a completing step answers. -/
theorem exec_next_cases {i : Instr} {s t : State} (he : exec i s = .next t) :
    (∃ r ok cond ovf, t = s.complete r ok cond ovf ∧ Shows i s.regs r ok cond ovf) ∨ ∃ g, t = s.redraw i g := by
  rcases exec_shows i s with ⟨r, ok, cond, ovf, he', h⟩ | ⟨g, he'⟩
  · exact .inl ⟨r, ok, cond, ovf, Host.Outcome.next.inj (he.symm.trans he'), h⟩
  · exact .inr ⟨g, Host.Outcome.next.inj (he.symm.trans he')⟩

/-- Settles O55, by what a completion shows; a redraw changes no register and stays in flight. -/
theorem commandsWriteTheirDestination : Obligations.CommandsWriteTheirDestination := by
  intro s t i he
  rcases exec_next_cases he with ⟨r, ok, cond, ovf, rfl, h⟩ | ⟨g, rfl⟩
  · exact ⟨h.changes, fun _ => h.same_of_none⟩
  · exact ⟨ChangesOnly.refl _ _, nofun⟩

/-- Settles O56, by what a completion shows; a redraw is no completion. -/
theorem flagsOfCompletion : Obligations.FlagsOfCompletion := by
  intro s t i he hjob
  rcases exec_next_cases he with ⟨r, ok, cond, ovf, rfl, h⟩ | ⟨g, rfl⟩
  · exact ⟨rfl, rfl, rfl, rfl, h.option_of_none, h.bool_of_cond, h.overflow_of_ovf⟩
  · cases hjob

end Sys2Proof.Machine
end

section
/-! PROOFS. The reset state, the STATUS word, and what hides the sequencer from the host (10_state.md R30, R42, R52, R53). -/

namespace Sys2Proof.Machine

/-! ### Reset -/

theorem Regs.reset_legal : Regs.reset.Legal := by
  have identity : ({ inf := true, x := 0, y := 0 } : PointReg).Legal := ⟨p_pos, p_pos, fun _ => ⟨rfl, rfl⟩⟩
  refine ⟨fun i => ?_, fun i => ?_, fun i => ?_, n_pos, n_pos⟩
  · simpa [reset] using p_pos
  · simpa [reset] using n_pos
  · simpa [reset] using identity

/-- Settles O52: legal registers on an idle engine. -/
theorem resetInv : Obligations.ResetInv := ⟨Regs.reset_legal, ⟨rfl, nofun, nofun, nofun, nofun⟩⟩

/-! ### STATUS -/

/-- The bits of STATUS (10_state.md R42). -/
theorem Status.getLsbD_toWord (t : Status) {b : Nat} (hb : b < 32) :
    t.toWord.getLsbD b =
      if b = 0 then t.busy else if b = 1 then t.done else if b = 2 then t.ok else if b = 3 then t.cond
      else if b = 4 then t.ovf else if 8 ≤ b ∧ b ≤ 11 then (errCode t.err).testBit (b - 8) else if b = 16 then t.aerr
      else false := by
  obtain ⟨busy, done, ok, cond, ovf, err, aerr⟩ := t
  revert b busy done ok cond ovf aerr
  rcases err with _ | (_ | _ | _)
  · decide +kernel
  · decide +kernel
  · decide +kernel
  · decide +kernel

/-- Settles O15: bit by bit, the code of ERR as R300 numbers it. -/
theorem statusLayout : Obligations.StatusLayout := by
  intro t b hb
  rw [Status.getLsbD_toWord t hb]
  rcases t with ⟨busy, done, ok, cond, ovf, _ | (_ | _ | _), aerr⟩ <;> rfl

/-! ### Internal steps -/

/-- An engine turn does nothing, or moves the sequencer of the command in flight (10_state.md R52). -/
theorem State.engineTurn_cases (s : State) (m : Nat) :
    s.engineTurn m = s ∨
      ∃ j q, s.job = some j ∧ s.engineTurn m = { s with job := some { j with seq := q } } := by
  unfold State.engineTurn
  cases hj : s.job with
  | none => exact .inl rfl
  | some j =>
    cases hd : decode j.word with
    | error e => exact .inl (by simp only [hd])
    | ok i => exact .inr ⟨j, j.seq.run s.hmac j.snap i m, rfl, by simp only [hd]⟩

/-- Settles O7, by what an engine turn can do to the command in flight. -/
theorem internalStepsAreHidden : Obligations.InternalStepsAreHidden := by
  intro s m rest hturns
  have hstep : step s = .next (State.engineTurn { s with turns := rest } m) := by rw [step, hturns]; rfl
  refine ⟨_, hstep, ?_⟩
  rcases State.engineTurn_cases { s with turns := rest } m with he | ⟨j, q, hj, he⟩
  · rw [he]; exact ⟨rfl, rfl, rfl, rfl, rfl, rfl, rfl, rfl, rfl, rfl, rfl⟩
  · rw [he]
    replace hj : s.job = some j := hj
    refine ⟨rfl, rfl, rfl, rfl, rfl, rfl, rfl, rfl, rfl, ?_, ?_⟩ <;> rw [hj] <;> rfl

/-! ### The hidden state and the host -/

/-- A read neither looks at the command in flight nor moves it (20_memory.md R78). -/
theorem State.hostRead_setJob (s : State) (o : Option Job) (off : BitVec 12) (bytes : Nat) :
    State.hostRead { s with job := o } off bytes = { s.hostRead off bytes with job := o } := by
  have result (w : Word) : State.readResult { s with job := o } w = { s.readResult w with job := o } := by
    unfold State.readResult
    split <;> rfl
  unfold State.hostRead
  split
  · unfold State.readRegion
    split
    · rfl
    · rfl
    · rfl
    · rfl
    · rfl
    · dsimp only
      split
      · exact result _
      · rfl
  · rfl

/-- A write to a busy engine does not look at the command in flight: it keeps the one that stands there, or is a soft reset. -/
theorem State.hostWrite_setJob {s : State} (hb : s.status.busy = true) (o : Option Job) (off : BitVec 12) (bytes : Nat)
    (w : Word) :
    State.hostWrite { s with job := o } off bytes w = { s.hostWrite off bytes w with job := o } ∨
    State.hostWrite { s with job := o } off bytes w = s.hostWrite off bytes w := by
  unfold State.hostWrite
  split
  · unfold State.writeRegion
    split
    · exact .inl rfl
    · unfold State.writeCtrl
      split
      · exact .inr rfl
      · exact .inl rfl
    · simp only [State.writeCmd, hb]; exact .inl rfl
    · simp only [State.writeRaw, hb]; exact .inl rfl
    · exact .inl rfl
  · exact .inl rfl

/-- A busy engine's host side does not look at the command in flight: it keeps the one that stands there, or resets. -/
theorem State.hostOp_setJob {s : State} (hb : s.status.busy = true) (o : Option Job) (op : HostOp) :
    State.hostOp { s with job := o } op = { s.hostOp op with job := o } ∨
    State.hostOp { s with job := o } op = s.hostOp op := by
  cases op with
  | read off bytes => exact .inl (s.hostRead_setJob o off bytes)
  | write off bytes w => exact State.hostWrite_setJob hb o off bytes w
  | wait =>
    refine .inl ?_
    simp only [State.hostOp, State.hostRead_setJob]
    split <;> rfl

/-- Settles O19: a coherent engine with a command in flight is BUSY, and a busy engine's answer does not read the command. -/
theorem hiddenStateIsUnseen : Obligations.HiddenStateIsUnseen := by
  intro s j q op hc hj
  have hb : s.status.busy = true := by rw [hc.busy_iff, hj]; rfl
  rcases State.hostOp_setJob hb (some { j with seq := q }) op with he | he
  all_goals
    intro s'
    rw [show s'.hostOp op = _ from he]
    exact ⟨rfl, rfl, rfl, rfl⟩

end Sys2Proof.Machine
end

section
/-! PROOFS. The register map and what a host access of an offset answers and changes (20_memory.md R72, R73, R76, R78, R84). -/

namespace Sys2Proof.Machine

/-! ### The register map -/

/-- `g` is unmapped, or the formulas of the map put it at the offset `o` (20_memory.md R72). -/
def Region.StandsAt (g : Region) (o : Nat) : Prop := g = .unmapped ∨ g.offset = some o

theorem Region.StandsAt.ite {c : Prop} [Decidable c] {g g' : Region} {o : Nat} (pos : c → g.StandsAt o)
    (neg : ¬c → g'.StandsAt o) : (if c then g else g').StandsAt o := by
  split
  · next h => exact pos h
  · next h => exact neg h

@[simp] theorem slotWord_val (o : Nat) : (slotWord o).val = o % 32 / 4 := by
  rw [slotWord, Fin.val_ofNat]; omega

theorem pointRegion_standsAt (i : PReg) {o : Nat} (ho : o % 4 = 0) :
    (pointRegion i o).StandsAt (0x400 + 0x80 * i.val + o) := by
  refine .ite (fun h => .inr ?tag) fun _ => .ite (fun h => ?px) fun _ => .ite (fun h => ?py) fun _ => .inl rfl
  case tag => rw [h]; rfl
  all_goals
    refine .inr (congrArg some ?_)
    simp only [slotWord_val]
    omega

/-- Branch by branch: the seven words below 0x01C, then the register files. -/
theorem region_standsAt {off : BitVec 12} (ho : off.toNat % 4 = 0) : (region off).StandsAt off.toNat := by
  unfold region
  generalize off.toNat = o at ho
  iterate 7 refine .ite (fun h => .inr (congrArg some h.symm)) fun _ => ?_
  refine .ite (fun h => ?raw) fun _ => .ite (fun h => ?f) fun _ => .ite (fun h => ?s) fun _ => .ite (fun h => ?point)
    fun _ => .ite (fun h => ?sigR) fun _ => .ite (fun h => ?sigS) fun _ => .inl rfl
  case point =>
    have slot := pointRegion_standsAt (.ofNat 4 ((o - 0x400) / 128)) (o := (o - 0x400) % 128) (by omega)
    rwa [Fin.val_ofNat, show 0x400 + 0x80 * ((o - 0x400) / 128 % 4) + (o - 0x400) % 128 = o by omega] at slot
  all_goals
    refine .inr (congrArg some ?_)
    simp only [slotWord_val, Fin.val_ofNat]
    omega

theorem Region.ne_unmapped_of_offset {g : Region} {o : Nat} (h : g.offset = some o) : g ≠ .unmapped := by
  rintro rfl; cases h

theorem Region.off_of_offset {g : Region} {off : BitVec 12} (h : g.offset = some off.toNat) : g.off = off := by
  rw [Region.off, h, Option.getD_some, BitVec.ofNat_toNat, BitVec.setWidth_eq]

/-- The decoder of the map and the formulas of the map agree (20_memory.md R72). -/
theorem Region.offset_eq_some_iff {off : BitVec 12} (ho : off.toNat % 4 = 0) (g : Region) :
    g.offset = some off.toNat ↔ region off = g ∧ g ≠ .unmapped := by
  constructor
  · intro h
    have hg := ne_unmapped_of_offset h
    exact ⟨off_of_offset h ▸ region_off g hg, hg⟩
  · rintro ⟨rfl, hg⟩
    exact (region_standsAt ho).resolve_left hg

theorem region_eq_unmapped_iff {off : BitVec 12} (ho : off.toNat % 4 = 0) :
    region off = .unmapped ↔ ∀ g : Region, g.offset ≠ some off.toNat := by
  constructor
  · intro hu g hg
    obtain ⟨he, hne⟩ := (Region.offset_eq_some_iff ho g).1 hg
    exact hne (he.symm.trans hu)
  · intro h
    exact (region_standsAt ho).resolve_right (h _)

/-- Settles O10, by the map's decoder read branch by branch. -/
theorem windowMap : Obligations.WindowMap := fun _ ho => ⟨Region.offset_eq_some_iff ho, region_eq_unmapped_iff ho⟩

/-! ### Accesses that reach no register -/

/-- Settles O14: an access that is no word access goes past the map. -/
theorem nonWordAccess : Obligations.NonWordAccess := by
  intro s off bytes w h
  have ha : wordAccess off bytes = false := by
    rcases h with h | h
    · rw [wordAccess, beq_false_of_ne h, Bool.false_and]
    · rw [wordAccess, beq_false_of_ne h, Bool.and_false]
  rw [State.hostWrite, State.hostRead, ha]
  exact ⟨rfl, rfl⟩

theorem hostRead_unmapped (s : State) {off : BitVec 12} (ho : off.toNat % 4 = 0) (h : region off = .unmapped) :
    s.hostRead off 4 = s.accessError.returns 0 := by
  have ha : wordAccess off 4 = true := by rw [wordAccess, ho]; rfl
  rw [State.hostRead, ha, h]
  rfl

/-! ### Reads of data registers -/

/-- Word `j` of a register, the most significant first, as a quotient (20_memory.md R73). -/
theorem wordOf_eq_ofNat (x : Word256) (j : Fin 8) : wordOf x j = .ofNat 32 (x.toNat / 2 ^ (224 - 32 * j.val)) := by
  rw [wordOf, BitVec.extractLsb', Nat.shiftRight_eq_div_pow, show 32 * (7 - j.val) = 224 - 32 * j.val by omega]

/-- While no command runs a data register's word is read as it stands (20_memory.md R78). -/
theorem hostRead_window {s : State} (hb : s.status.busy = false) {g : Region} {w : Word} (hw : s.regs.window g = some w) :
    s.hostRead g.off 4 = s.returns w := by
  have hg : g ≠ .unmapped := by rintro rfl; cases hw
  have result (v : Word) : s.readResult v = s.returns v := by rw [State.readResult, hb]; rfl
  rw [hostRead_off s hg]
  cases g with
  | id | status | ctrl | cmd | unmapped => cases hw
  | raw i j => exact congrArg s.returns (Option.some.inj hw)
  | _ => exact (result _).trans (congrArg s.returns (Option.some.inj hw))

theorem hostRead_raw (s : State) (i : RReg) (j : Fin 8) :
    s.hostRead (Region.raw i j).off 4 = s.returns (wordOf s.regs.raw[i] j) := hostRead_off s nofun

/-- While a command runs a data register other than RAW reads as a fresh free word (20_memory.md R84). -/
theorem hostRead_busy {s : State} (hb : s.status.busy = true) {g : Region} (hg : g ≠ .unmapped)
    (hcontrol : g ∉ [.id, .status, .ctrl, .cmd]) (hraw : ∀ i j, g ≠ .raw i j) :
    s.hostRead g.off 4 = { s with readData := Config.draw32 s.draws, draws := s.draws + 1 } := by
  have result (v : Word) : s.readResult v = { s with readData := Config.draw32 s.draws, draws := s.draws + 1 } := by
    rw [State.readResult, hb]; rfl
  rw [hostRead_off s hg]
  cases g with
  | id | status | ctrl | cmd => exact absurd (by decide) hcontrol
  | raw i j => exact absurd rfl (hraw i j)
  | unmapped => exact absurd rfl hg
  | _ => exact result _

/-- Settles O11, by the read of each kind of region. -/
theorem hostReadAnswers : Obligations.HostReadAnswers := by
  intro s
  refine ⟨hostRead_id s, hostRead_status s, hostRead_ctrl s, hostRead_cmd s, fun i j => ?raw, fun hb => ?idle,
    fun hb off g hoff hcontrol hraw => ?busy, fun off ho h => ?unmapped⟩
  case raw => rw [hostRead_raw, wordOf_eq_ofNat]; rfl
  case idle =>
    have read (g : Region) (w : Word) (hw : s.regs.window g = some w) : s.hostRead g.off 4 = { s with readData := w } :=
      hostRead_window hb hw
    have word (g : Region) (x : Word256) (j : Fin 8) (hw : s.regs.window g = some (wordOf x j)) :
        s.hostRead g.off 4 = { s with readData := .ofNat 32 (x.toNat / 2 ^ (224 - 32 * j.val)) } :=
      wordOf_eq_ofNat x j ▸ read g _ hw
    refine ⟨read .voutLo _ rfl, read .voutHi _ ?voutHi, read .sigV _ ?sigV, fun j => ⟨fun i => word (.f i j) _ j rfl,
      fun i => word (.s i j) _ j rfl, fun i => ⟨read (.tag i) _ ?tag, word (.px i j) _ j rfl, word (.py i j) _ j rfl⟩,
      word (.sigR j) _ j rfl, word (.sigS j) _ j rfl⟩⟩
    case voutHi => rw [← Nat.shiftRight_eq_div_pow]; rfl
    case sigV => rw [BitVec.ofNat_toNat]; rfl
    case tag => rw [Regs.window]; cases (s.regs.p[i]).inf <;> rfl
  case busy =>
    obtain rfl := Region.off_of_offset hoff
    exact hostRead_busy hb (Region.ne_unmapped_of_offset hoff) hcontrol hraw
  case unmapped => exact hostRead_unmapped s ho ((region_eq_unmapped_iff ho).2 h)

/-! ### Writes of RAW -/

theorem hostWrite_raw {s : State} (hb : s.status.busy = false) (i : RReg) (j : Fin 8) (w : Word) :
    s.hostWrite (Region.raw i j).off 4 w =
      { s with regs := { s.regs with raw := s.regs.raw.set i (setWordOf s.regs.raw[i] j w) } } := by
  rw [hostWrite_off s (g := .raw i j) nofun, State.writeRegion, State.writeRaw, hb]
  rfl

/-- Settles O13: the bits of the written register, and its words read back. -/
theorem rawWriteReplacesOneWord : Obligations.RawWriteReplacesOneWord := by
  intro s i j w hb
  refine ⟨_, hostWrite_raw hb i j w, rfl, ⟨fun k hk => vector_set_of_ne _ hk _, rfl, rfl, rfl, rfl, rfl⟩, fun b _ => ?bits,
    fun k => ?readBack⟩
  case bits =>
    rw [vector_set_self, getLsbD_setWordOf, show 32 * (7 - j.val) = 224 - 32 * j.val by omega]
    exact if_congr (by omega) rfl rfl
  case readBack =>
    rw [hostRead_raw, hostRead_raw, State.returns_readData, State.returns_readData, vector_set_self]
    split
    · next hk => rw [hk, wordOf_setWordOf_self]
    · next hk => exact wordOf_setWordOf_of_ne _ hk w

end Sys2Proof.Machine
end

section
/-! PROOFS. What a host access can change, and what a step can change (20_memory.md R83, R85, R86, R89; 60_exceptions.md R305;
70_reset_and_hazards.md R351). -/

namespace Sys2Proof.Machine

/-! ### Host accesses -/

theorem submit_regs (s : State) (w : Word) : (s.submit w).regs = s.regs := by
  rcases submit_cases s w with ⟨i, -, he⟩ | ⟨e, -, he⟩ <;> rw [he] <;> rfl

/-- A command comes into flight by a CMD write only (20_memory.md R83). -/
theorem hostOp_job_ne_none {s : State} {op : HostOp} (hj : s.job = none) (h : (s.hostOp op).job ≠ none) :
    ∃ w, op = .write 0x00C 4 w := by
  rcases hostOp_cases s op with ⟨_, _, _, _, he, -⟩ | ⟨w, -, -, he⟩ | ⟨b, he⟩ | ⟨w, hop, -⟩ | ⟨i, j, w, -, -, he⟩
  · rw [he] at h; exact absurd hj h
  · rw [he] at h; exact absurd rfl h
  · rw [he] at h; exact absurd hj h
  · exact ⟨w, hop⟩
  · rw [he] at h; exact absurd hj h

/-- A host access changes a data register only as a soft reset, or as a RAW write to an engine that is not BUSY; a CMD write
changes none before its command completes (20_memory.md R83, 60_exceptions.md R305). -/
theorem hostOp_regs_ne {s : State} {op : HostOp} (h : (s.hostOp op).regs ≠ s.regs) :
    (∃ w, op = .write 0x008 4 w ∧ w.getLsbD 1 = true) ∨
    ∃ i j w, op = .write (Region.raw i j).off 4 w ∧ s.status.busy = false := by
  rcases hostOp_cases s op with ⟨_, _, _, _, he, -⟩ | ⟨w, hop, hw, -⟩ | ⟨b, he⟩ | ⟨w, -, -, he⟩ | ⟨i, j, w, hop, hb, -⟩
  · rw [he] at h; exact absurd rfl h
  · exact .inl ⟨w, hop, hw⟩
  · rw [he] at h; exact absurd rfl h
  · rw [he] at h; exact absurd (submit_regs s w) h
  · exact .inr ⟨i, j, w, hop, hb⟩

theorem Status.writeOneToClear_eq (t : Status) (w : Word) :
    t.writeOneToClear w = { t with
      done := if w.getLsbD 1 then false else t.done
      aerr := if w.getLsbD 16 then false else t.aerr } := by
  have clear (flag bit : Bool) : (flag && !bit) = if bit then false else flag := by cases flag <;> cases bit <;> rfl
  rw [writeOneToClear, clear, clear]

/-- Settles O17, by what a host access can do. -/
theorem hostAccessesAreTame : Obligations.HostAccessesAreTame := by
  refine fun s op => ⟨hostOp_job_ne_none, ?status, ?ctrl, fun h => ?regs⟩
  case status =>
    rintro w rfl
    rw [State.hostOp, hostWrite_status, Status.writeOneToClear_eq]
  case ctrl =>
    rintro w rfl
    exact hostWrite_ctrl s w
  case regs =>
    rcases hostOp_regs_ne h with hreset | ⟨i, j, w, hop, -⟩
    · exact .inr (.inl hreset)
    · exact .inr (.inr ⟨i, j, w, hop⟩)

/-- Settles O18: a coherent engine with a command in flight is BUSY, so only a soft reset gets at it. -/
theorem commandInFlightIsLatched : Obligations.CommandInFlightIsLatched := by
  intro s op hc hj hreset
  have hb : s.status.busy = true := hc.busy_iff.trans hj
  rcases hostOp_cases s op with ⟨_, _, _, st, he, hst⟩ | ⟨w, hop, hw, -⟩ | ⟨b, he⟩ | ⟨w, -, hidle, -⟩ | ⟨_, _, _, -, hidle, -⟩
  · rw [he]
    refine ⟨rfl, rfl, rfl, ?_⟩
    rcases hst with rfl | rfl | ⟨w, rfl⟩ <;> exact hb
  · exact absurd hw (by rw [hreset w hop]; decide)
  · rw [he]; exact ⟨rfl, rfl, rfl, hb⟩
  · exact absurd hb (by rw [hidle]; decide)
  · exact absurd hb (by rw [hidle]; decide)

/-- Bit 1 of the word read from STATUS is DONE (10_state.md R42). -/
theorem Status.toWord_done (t : Status) : t.toWord.getLsbD 1 = t.done := t.getLsbD_toWord (by decide)

/-- A coherent engine that shows DONE has no command in flight (60_exceptions.md R301, R305). -/
theorem State.Coherent.job_of_done {s : State} (h : s.Coherent) (hd : s.status.done = true) : s.job = none := by
  cases hj : s.job with
  | none => rfl
  | some j => exact absurd hd (by rw [(h.flags_clear j hj).1]; decide)

/-- Settles O20: the STATUS word shows that no command is in flight, and an idle engine's data registers read as they stand. -/
theorem idleStatusReadMeansDone : Obligations.IdleStatusReadMeansDone := by
  rintro s _ hc rfl h
  rw [State.hostOp, hostRead_status] at h ⊢
  have hjob : s.job = none := by
    rcases h with h | h
    · exact hc.job_of_idle (s.status.toWord_busy ▸ h)
    · exact hc.job_of_done (s.status.toWord_done ▸ h)
  have hb : s.status.busy = false := by rw [hc.busy_iff, hjob]; rfl
  refine ⟨hjob, rfl, fun g w hw => ?_⟩
  rw [State.hostOp, hostRead_window (s := s.returns s.status.toWord) hb hw, State.returns_readData]

/-! ### Steps -/

theorem step_of_turn {s : State} {u : Turn} {rest : List Turn} (h : s.turns = u :: rest) :
    step s = State.move { s with turns := rest } u := by
  rw [step, h]

theorem step_of_idle {s : State} (ht : s.turns = []) (hj : s.job = none) : step s = .next s.hostTurn := by
  rw [step, ht]
  dsimp only
  rw [State.defaultTurn, hj]
  rfl

theorem State.hostTurn_of_cons {s : State} {op : HostOp} {ops : List HostOp} (h : s.hostQueue = op :: ops) :
    s.hostTurn = State.hostOp { s with hostQueue := ops } op := by
  rw [hostTurn, h]

theorem State.hostTurn_of_nil {s : State} (h : s.hostQueue = []) : s.hostTurn = s := by
  rw [hostTurn, h]

theorem State.completeTurn_of_idle {s : State} (h : s.job = none) : s.completeTurn = .next s := by
  rw [completeTurn, h]

theorem State.engineTurn_of_idle {s : State} (h : s.job = none) (m : Nat) : s.engineTurn m = s := by
  rw [engineTurn, h]

/-- Settles O6, agent by agent. -/
theorem stepMovesOneAgent : Obligations.StepMovesOneAgent := by
  intro s rest
  refine ⟨fun op ops ht hq => ?access, fun ht hq => ?idleHost, fun ht hj => ?idleComplete, fun m ht hj => ?idleEngine,
    fun ht => step_of_turn ht, fun op ops ht hj hq => ?defaultAccess, fun ht hj hq => ?default⟩
  case access => rw [step_of_turn ht, State.move, State.hostTurn_of_cons (s := { s with turns := rest }) hq]
  case idleHost => rw [step_of_turn ht, State.move, State.hostTurn_of_nil (s := { s with turns := rest }) hq]
  case idleComplete => rw [step_of_turn ht, State.move, State.completeTurn_of_idle (s := { s with turns := rest }) hj]
  case idleEngine => rw [step_of_turn ht, State.move, State.engineTurn_of_idle (s := { s with turns := rest }) hj]
  case defaultAccess => rw [step_of_idle ht hj, State.hostTurn_of_cons hq]
  case default => rw [step_of_idle ht hj, State.hostTurn_of_nil hq]

theorem State.access_of_cons {s : State} {op : HostOp} {ops : List HostOp} (hm : s.mover = .host)
    (hq : s.hostQueue = op :: ops) : s.access = some op := by
  rw [access, if_pos hm, hq]; rfl

/-- Settles O59, by the cases of a step. -/
theorem dataChangesOnlyThus : Obligations.DataChangesOnlyThus := by
  intro s t hc hstep hne
  obtain ⟨-, -, hcases⟩ := step_cases s t hstep
  rcases hcases with ⟨hm, op, ops, hq, tt, rfl⟩ | ⟨tt, rfl⟩ | ⟨m, tt, j, i, -, -, rfl⟩ | ⟨hm, -⟩ | ⟨hm, tt, j, i, hj, -, he⟩
  · have ha := State.access_of_cons hm hq
    rcases hostOp_regs_ne hne with ⟨w, rfl, hw⟩ | ⟨i, j, w, rfl, hb⟩
    · exact .inr (.inr (.inl ⟨w, ha, hw⟩))
    · exact .inr (.inr (.inr ⟨i, j, w, ha, hc.job_of_idle hb⟩))
  · exact absurd rfl hne
  · exact absurd rfl hne
  · exact .inr (.inl hm)
  · rcases exec_next_cases he with ⟨r, ok, cond, ovf, rfl, -⟩ | ⟨g, rfl⟩
    · exact .inl ⟨hm, hj ▸ rfl, rfl, rfl⟩
    · exact absurd rfl hne

end Sys2Proof.Machine
end

section
/-! PROOFS. The decoder, the encoder and the opcode table are one (30_encoding.md R111, R115 to R120). -/

namespace Sys2Proof

/-! ### The decoder's checks by name -/

/-- The decoder's check of the unused fields (30_encoding.md R115). -/
def OpcodeEntry.unusedClear (e : OpcodeEntry) (w : Word) : Bool :=
  unusedIsZero e.dFile (dField w) && unusedIsZero e.aFile (aField w)
    && unusedIsZero e.bFile (bField w) && unusedIsZero e.cFile (cField w)

/-- The decoder's check of the used fields (30_encoding.md R116). -/
def OpcodeEntry.usedInside (e : OpcodeEntry) (w : Word) : Bool :=
  usedInRange e.dFile (dField w) && usedInRange e.aFile (aField w)
    && usedInRange e.bFile (bField w) && usedInRange e.cFile (cField w)

theorem decode_of_unassigned {w : Word} (he : opcodeEntry (opField w) = none) : decode w = .error .illegalOpcode := by
  rw [decode, he]

theorem decode_of_reserved {w : Word} {e : OpcodeEntry} (he : opcodeEntry (opField w) = some e)
    (h : ¬(resvField w = 0 ∧ e.unusedClear w = true)) : decode w = .error .reservedField := by
  rw [decode, he]
  by_cases hresv : resvField w = 0
  · have hu : e.unusedClear w = false := Bool.eq_false_iff.2 fun hu => h ⟨hresv, hu⟩
    exact (if_neg (not_not.2 hresv)).trans (if_pos (congrArg Bool.not hu))
  · exact if_pos hresv

theorem decode_of_badRegister {w : Word} {e : OpcodeEntry} (he : opcodeEntry (opField w) = some e) (hresv : resvField w = 0)
    (hu : e.unusedClear w = true) (hr : e.usedInside w = false) : decode w = .error .badRegister := by
  rw [decode, he]
  calc
    _ = _ := if_neg (not_not.2 hresv)
    _ = _ := if_neg (Bool.eq_false_iff.1 (congrArg Bool.not hu))
    _ = _ := if_pos (congrArg Bool.not hr)

/-! ### Decoding an encoded command -/

/-- A field that passes both checks fits its four bits (30_encoding.md R111). -/
theorem field_lt {file : Option RegFile} {v : Nat} (hu : unusedIsZero file v = true) (hr : usedInRange file v = true) :
    v < 16 := by
  rcases file with _ | (_ | _ | _ | _) <;> simp at hu hr <;> omega

/-- The row of the opcode map that a command is encoded by: it takes the command's operands and builds the command of them
(30_encoding.md R118). -/
theorem encode_eq_pack (i : Instr) : ∃ op d a b c e, encode i = pack op d a b c ∧ opcodeEntry op = some e ∧ op < 256 ∧
    (unusedIsZero e.dFile d && unusedIsZero e.aFile a && unusedIsZero e.bFile b && unusedIsZero e.cFile c) = true ∧
    (usedInRange e.dFile d && usedInRange e.aFile a && usedInRange e.bFile b && usedInRange e.cFile c) = true ∧
    e.build d a b c = i := by
  cases i <;> exact ⟨_, _, _, _, _, _, rfl, rfl, by decide, rfl, by simp, by simp⟩

/-- Settles O2: the encoder packs the operands into fields that pass the checks of the command's row. -/
theorem decodeOfEncode : Obligations.DecodeOfEncode := by
  intro i
  obtain ⟨op, d, a, b, c, e, henc, he, hop, hu, hr, rfl⟩ := encode_eq_pack i
  rw [henc]
  simp only [Bool.and_eq_true] at hu hr
  obtain ⟨⟨⟨hud, hua⟩, hub⟩, huc⟩ := hu
  obtain ⟨⟨⟨hrd, hra⟩, hrb⟩, hrc⟩ := hr
  exact decode_pack he hop (field_lt hud hrd) (field_lt hua hra) (field_lt hub hrb) (field_lt huc hrc)
    (by simp only [hud, hua, hub, huc, Bool.and_self]) (by simp only [hrd, hra, hrb, hrc, Bool.and_self])

/-- Settles O1: the decoder run on each word. -/
theorem sampleWordsDecode : Obligations.SampleWordsDecode := ⟨rfl, rfl, rfl, rfl, rfl, rfl, rfl, rfl⟩

/-! ### The rows of the table and of the map -/

/-- The bits a row's mask fixes in a field: all of an unused field, those above the index of a used one (30_encoding.md R120). -/
def fixedBits : Option RegFile → Nat
  | none => 15
  | some file => 16 - file.size

/-- The six fields of a word (30_encoding.md R111). -/
def fields (w : Word) : Nat × Nat × Nat × Nat × Nat × Nat :=
  (resvField w, cField w, bField w, aField w, dField w, opField w)

theorem fields_injective : Function.Injective fields := by
  intro v w h
  simp only [fields, Prod.mk.injEq] at h
  obtain ⟨h1, h2, h3, h4, h5, h6⟩ := h
  apply BitVec.eq_of_toNat_eq
  rw [toNat_eq_fields v, toNat_eq_fields w, h1, h2, h3, h4, h5, h6]

/-- A word is masked field by field. -/
theorem fields_and (v w : Word) : fields (v &&& w) =
    (resvField v &&& resvField w, cField v &&& cField w, bField v &&& bField w, aField v &&& aField w,
      dField v &&& dField w, opField v &&& opField w) := by
  have field (x y i j : Nat) : (x &&& y) / 2 ^ i % 2 ^ j = (x / 2 ^ i % 2 ^ j) &&& (y / 2 ^ i % 2 ^ j) := by
    rw [Nat.and_div_two_pow, Nat.and_mod_two_pow]
  simp only [fields, Prod.mk.injEq, resvField, cField, bField, aField, dField, opField, BitVec.toNat_and]
  exact ⟨Nat.and_div_two_pow (n := 24), field _ _ 20 4, field _ _ 16 4, field _ _ 12 4, field _ _ 8 4,
    Nat.and_mod_two_pow (n := 8)⟩

/-- A field has the bits its mask fixes clear iff it passes both checks. -/
theorem and_fixedBits_eq_zero_iff (file : Option RegFile) {v : Nat} (hv : v < 16) :
    v &&& fixedBits file = 0 ↔ unusedIsZero file v = true ∧ usedInRange file v = true := by
  revert v
  rcases file with _ | (_ | _ | _ | _)
  · decide
  · decide
  · decide
  · decide
  · decide

/-- The fields of the mask of a row of the map: the opcode and bits 31:24 are fixed whole (30_encoding.md R114, R120). -/
def OpcodeEntry.maskFields (e : OpcodeEntry) : Nat × Nat × Nat × Nat × Nat × Nat :=
  (0xFF, fixedBits e.cFile, fixedBits e.bFile, fixedBits e.aFile, fixedBits e.dFile, 0xFF)

/-- Every row of the table stands in the map, with the map's mask (30_encoding.md R118, R120). -/
theorem entry_of_row : ∀ r ∈ opcodeTable,
    (opcodeEntry r.value.toNat).map OpcodeEntry.maskFields = some (fields r.mask) := by decide

theorem exists_entry {r : OpcodeRow} (hr : r ∈ opcodeTable) :
    ∃ e, opcodeEntry r.value.toNat = some e ∧ fields r.mask = e.maskFields := by
  obtain ⟨e, he, hm⟩ := Option.map_eq_some_iff.1 (entry_of_row r hr)
  exact ⟨e, he, hm.symm⟩

theorem fields_value : ∀ r ∈ opcodeTable, fields r.value = (0, 0, 0, 0, 0, r.value.toNat) := by decide

/-- Every row of the map stands in the table. -/
theorem exists_row {op : Nat} {e : OpcodeEntry} (he : opcodeEntry op = some e) : ∃ r ∈ opcodeTable, r.value.toNat = op := by
  unfold opcodeEntry at he
  split at he
  case h_38 => cases he
  all_goals decide

/-- A word fits a row of the table iff it has the row's opcode and passes the decoder's checks (30_encoding.md R119, R120). -/
theorem fits_iff {r : OpcodeRow} (hr : r ∈ opcodeTable) {e : OpcodeEntry} (hm : fields r.mask = e.maskFields) (w : Word) :
    w &&& r.mask = r.value ↔
      opField w = r.value.toNat ∧ resvField w = 0 ∧ e.unusedClear w = true ∧ e.usedInside w = true := by
  simp only [fields, OpcodeEntry.maskFields, Prod.mk.injEq] at hm
  obtain ⟨hresv, hc, hb, ha, hd, hop⟩ := hm
  have whole {x : Nat} (hx : x < 256) : x &&& 0xFF = x := (Nat.and_two_pow_sub_one_eq_mod x 8).trans (Nat.mod_eq_of_lt hx)
  have resv_lt : resvField w < 256 := by unfold resvField; omega
  rw [← fields_injective.eq_iff, fields_and, fields_value r hr, hresv, hc, hb, ha, hd, hop, whole resv_lt,
    whole (opField_lt w)]
  simp only [Prod.mk.injEq, and_fixedBits_eq_zero_iff _ (cField_lt w), and_fixedBits_eq_zero_iff _ (bField_lt w),
    and_fixedBits_eq_zero_iff _ (aField_lt w), and_fixedBits_eq_zero_iff _ (dField_lt w), OpcodeEntry.unusedClear,
    OpcodeEntry.usedInside, Bool.and_eq_true]
  constructor
  · rintro ⟨hw, ⟨uc, rc⟩, ⟨ub, rb⟩, ⟨ua, ra⟩, ⟨ud, rd⟩, ho⟩
    exact ⟨ho, hw, ⟨⟨⟨ud, ua⟩, ub⟩, uc⟩, ⟨⟨rd, ra⟩, rb⟩, rc⟩
  · rintro ⟨ho, hw, ⟨⟨⟨ud, ua⟩, ub⟩, uc⟩, ⟨⟨rd, ra⟩, rb⟩, rc⟩
    exact ⟨hw, ⟨uc, rc⟩, ⟨ub, rb⟩, ⟨ua, ra⟩, ⟨ud, rd⟩, ho⟩

/-- A word is legal iff it fits a row of the table (30_encoding.md R120). -/
theorem decode_ok_iff_fits (w : Word) : (∃ i, decode w = .ok i) ↔ ∃ r ∈ opcodeTable, w &&& r.mask = r.value := by
  constructor
  · rintro ⟨i, h⟩
    obtain ⟨e, he, hresv, hu, hr, -⟩ := decode_ok h
    obtain ⟨r, hmem, hop⟩ := exists_row he
    obtain ⟨e', he', hm⟩ := exists_entry hmem
    obtain rfl : e = e' := Option.some.inj (he.symm.trans (hop ▸ he'))
    exact ⟨r, hmem, (fits_iff hmem hm w).2 ⟨hop.symm, hresv, hu, hr⟩⟩
  · rintro ⟨r, hmem, hfit⟩
    obtain ⟨e, he, hm⟩ := exists_entry hmem
    obtain ⟨hop, hresv, hu, hr⟩ := (fits_iff hmem hm w).1 hfit
    exact ⟨_, decode_of (hop ▸ he) hresv hu hr⟩

/-- A row of the table is known by its opcode. -/
theorem row_eq_of_value {r r' : OpcodeRow} (hr : r ∈ opcodeTable) (hr' : r' ∈ opcodeTable)
    (h : r.value.toNat = r'.value.toNat) : r = r' :=
  List.inj_on_of_nodup_map (f := fun r : OpcodeRow => r.value.toNat) (by decide) hr hr' h

theorem opField_of_fits {r : OpcodeRow} (hr : r ∈ opcodeTable) {w : Word} (h : w &&& r.mask = r.value) :
    opField w = r.value.toNat := by
  obtain ⟨e, -, hm⟩ := exists_entry hr
  exact ((fits_iff hr hm w).1 h).1

/-- Settles O3: a row's pattern says what the decoder's checks of that row say, and the rows differ in their opcodes. -/
theorem legalWordsAreTheTable : Obligations.LegalWordsAreTheTable := by
  refine ⟨rfl, fun w => ⟨decode_ok_iff_fits w, fun h => ?rejected, fun r hr r' hr' hw hw' => ?unique⟩⟩
  case rejected =>
    cases hd : decode w with
    | error e => exact ⟨e, rfl⟩
    | ok i => exact absurd ((decode_ok_iff_fits w).1 ⟨i, hd⟩) h
  case unique => exact row_eq_of_value hr hr' ((opField_of_fits hr hw).symm.trans (opField_of_fits hr' hw'))

/-! ### The order of the checks -/

/-- A mask fixes a field whole iff the field is unused (30_encoding.md R115). -/
theorem fixedBits_eq_iff (file : Option RegFile) (v : Nat) :
    fixedBits file = 15 ∧ v ≠ 0 ↔ ¬unusedIsZero file v = true := by
  rcases file with _ | (_ | _ | _ | _) <;> simp [fixedBits]

/-- The row's mask tells which fields must be clear: those the decoder's first check on the row's fields looks at. -/
theorem unusedSet_iff {r : OpcodeRow} {e : OpcodeEntry} (hm : fields r.mask = e.maskFields) (w : Word) :
    (w.toNat / 2 ^ 24 ≠ 0 ∨
      ∃ k ∈ [8, 12, 16, 20], r.mask.toNat / 2 ^ k % 16 = 15 ∧ w.toNat / 2 ^ k % 16 ≠ 0) ↔
    ¬(resvField w = 0 ∧ e.unusedClear w = true) := by
  simp only [fields, OpcodeEntry.maskFields, Prod.mk.injEq] at hm
  obtain ⟨-, hc, hb, ha, hd, -⟩ := hm
  have field {x k : Nat} {file : Option RegFile} (hx : r.mask.toNat / 2 ^ k % 16 = fixedBits file) :
    r.mask.toNat / 2 ^ k % 16 = 15 ∧ x ≠ 0 ↔ ¬unusedIsZero file x = true := hx ▸ fixedBits_eq_iff file x
  simp only [List.mem_cons, List.not_mem_nil, or_false, exists_eq_or_imp, exists_eq_left]
  rw [field (k := 8) hd, field (k := 12) ha, field (k := 16) hb, field (k := 20) hc]
  simp only [OpcodeEntry.unusedClear, Bool.and_eq_true, not_and_or, ne_eq, or_assoc]
  rfl

/-- Settles O4: check by check; the checks of the fields in the order the decoder runs them. -/
theorem decodeChecksInOrder : Obligations.DecodeChecksInOrder := by
  refine fun w => ⟨fun h => decode_of_unassigned ?unassigned, fun r hr hop => ?row⟩
  case unassigned =>
    rw [Option.eq_none_iff_forall_ne_some]
    intro e he
    obtain ⟨r, hr, hop⟩ := exists_row he
    exact h r hr hop
  case row =>
    obtain ⟨e, he, hm⟩ := exists_entry hr
    replace hop : r.value.toNat = opField w := hop
    rw [hop] at he
    have fits := fits_iff hr hm w
    intro unusedSet
    have set_iff : unusedSet ↔ _ := unusedSet_iff hm w
    refine ⟨fun h => decode_of_reserved he (set_iff.1 h), fun h hw => ?badRegister, fun _ hw => ?legal⟩
    case badRegister =>
      obtain ⟨hresv, hu⟩ := not_not.1 (mt set_iff.2 h)
      refine decode_of_badRegister he hresv hu (Bool.eq_false_iff.2 fun hin => hw ?_)
      exact fits.2 ⟨hop.symm, hresv, hu, hin⟩
    case legal =>
      obtain ⟨i, hi⟩ := (decode_ok_iff_fits w).2 ⟨r, hr, hw⟩
      exact ⟨i, hi, encode_of_decode hi⟩

end Sys2Proof
end

section
/-! PROOFS. WAIT, LI and LIB (30_encoding.md R123, 20_memory.md R73, R74). -/

namespace Sys2Proof.Machine

/-! ### WAIT -/

/-- A poll reads STATUS, and goes back to the head of the queue while it sees BUSY. -/
theorem hostOp_wait (s : State) : s.hostOp .wait =
    { s with
      readData := s.status.toWord
      hostQueue := if s.status.busy then .wait :: s.hostQueue else s.hostQueue } := by
  simp only [State.hostOp, hostRead_status, State.returns_readData, Status.toWord_busy]
  split <;> rfl

/-! ### LI -/

/-- Write the words `js` of `imm` over a register's, one after the other (20_memory.md R73). -/
def setWords (imm : Word256) (js : List (Fin 8)) (x : Word256) : Word256 :=
  js.foldl (fun x j => setWordOf x j (wordOf imm j)) x

theorem wordOf_setWords (imm : Word256) (i : Fin 8) (js : List (Fin 8)) (x : Word256) :
    wordOf (setWords imm js x) i = if i ∈ js then wordOf imm i else wordOf x i := by
  induction js generalizing x with
  | nil => rfl
  | cons j js ih =>
    rw [setWords, List.foldl_cons, ← setWords, ih]
    by_cases hjs : i ∈ js
    · rw [if_pos hjs, if_pos (List.mem_cons_of_mem j hjs)]
    by_cases hij : i = j
    · rw [if_neg hjs, hij, if_pos List.mem_cons_self, wordOf_setWordOf_self]
    · rw [if_neg hjs, if_neg (by simp [hij, hjs]), wordOf_setWordOf_of_ne x hij]

/-- All eight words written leave the integer (20_memory.md R74). -/
theorem setWords_finRange (imm x : Word256) : setWords imm (List.finRange 8) x = imm :=
  word256_ext fun j => by rw [wordOf_setWords, if_pos (List.mem_finRange j)]

/-- Writes of words of `imm` to RAW[k] of an engine that is not BUSY change that register only. -/
theorem foldl_hostOp_raw (k : RReg) (imm : Word256) (js : List (Fin 8)) {s : State} (hb : s.status.busy = false) :
    (js.map fun j => HostOp.write (rawOffset k j) 4 (wordOf imm j)).foldl State.hostOp s =
      { s with regs := { s.regs with raw := s.regs.raw.set k (setWords imm js s.regs.raw[k]) } } := by
  induction js generalizing s with
  | nil => rw [setWords, List.foldl_nil, vector_set_get_self]; rfl
  | cons j js ih =>
    rw [List.map_cons, List.foldl_cons]
    have write : s.hostOp (.write (rawOffset k j) 4 (wordOf imm j)) = _ := hostWrite_raw hb k j (wordOf imm j)
    rw [write]
    refine (ih ?idle).trans ?_
    case idle => exact hb
    simp only [vector_set_self, Vector.set_set]
    rfl

theorem foldl_hostOp_loadRaw (k : RReg) (imm : Word256) {s : State} (hb : s.status.busy = false) :
    (loadRaw k imm).foldl State.hostOp s = { s with regs := { s.regs with raw := s.regs.raw.set k imm } } := by
  rw [loadRaw, foldl_hostOp_raw k imm _ hb, setWords_finRange]

/-! ### LIB -/

theorem intOf_concat (b : List Byte) (x : Byte) : intOf (b ++ [x]) = intOf b * 256 + x.toNat := by
  rw [intOf, List.foldl_append]; rfl

/-- Byte `k` of a byte string is its base-256 digit, counted from the most significant (00_scope.md R18). -/
theorem intOf_digit (b : List Byte) (k : Nat) (hk : k < b.length) :
    intOf b / 256 ^ (b.length - 1 - k) % 256 = b[k].toNat := by
  induction b using List.reverseRecOn with
  | nil => cases hk
  | append_singleton b x ih =>
    rw [intOf_concat, List.length_append, List.length_singleton, Nat.add_sub_cancel]
    have hx : x.toNat < 256 := x.isLt
    by_cases hlast : k < b.length
    · rw [List.getElem_append_left hlast, ← ih hlast, show b.length - k = b.length - 1 - k + 1 by omega, pow_succ',
        ← Nat.div_div_eq_div_mul, show (intOf b * 256 + x.toNat) / 256 = intOf b by omega]
    · obtain rfl : k = b.length := by rw [List.length_append, List.length_singleton] at hk; omega
      rw [List.getElem_concat_length rfl, Nat.sub_self, pow_zero, Nat.div_one]
      omega

theorem bytes32_length (v : Word256) : (bytes32 v).length = 32 := by simp [bytes32]

theorem toNat_getElem_bytes32 (v : Word256) (k : Nat) (hk : k < (bytes32 v).length) :
    ((bytes32 v)[k]).toNat = v.toNat / 2 ^ (248 - 8 * k) % 256 := by
  simp [bytes32, Nat.shiftRight_eq_div_pow]

/-- 32 bytes are the serialization of their big-endian integer (00_scope.md R18). -/
theorem bytes32_of_toNat_eq_intOf {v : Word256} {bytes : List Byte} (hlen : bytes.length = 32) (h : v.toNat = intOf bytes) :
    bytes32 v = bytes := by
  refine List.ext_getElem ((bytes32_length v).trans hlen.symm) fun k hv hk => BitVec.eq_of_toNat_eq ?_
  have weight : 2 ^ (248 - 8 * k) = 256 ^ (bytes.length - 1 - k) := by
    rw [show 256 = 2 ^ 8 from rfl, ← pow_mul]
    congr 1
    omega
  rw [toNat_getElem_bytes32, h, weight, intOf_digit bytes k hk]

/-- Settles O21: the poll, the eight writes word by word, and the bytes as digits of the integer. -/
theorem hostPseudoInstructions : Obligations.HostPseudoInstructions := by
  refine ⟨hostOp_wait, fun s k imm hb => ⟨foldl_hostOp_loadRaw k imm hb, fun bytes hwf h => ⟨?bytes, ?expand⟩⟩⟩
  case bytes => exact bytes32_of_toNat_eq_intOf (beq_iff_eq.1 hwf) h
  case expand =>
    rw [HostStatement.expand, HostStatement.expand, ← h, BitVec.ofNat_toNat, BitVec.setWidth_eq]

end Sys2Proof.Machine
end

section
/-! PROOFS. The ends of the commands that write one register, and the field family: 40_field.md R142 to R150, with the scalar
commands of the same shape, 41_scalar.md R172, R176 to R180, and 42_point.md R213. -/

namespace Sys2Proof.Machine

open Sys2Proof.Config (p n)

/-! ### Command words -/

/-- A command that the encoder packs from fields within their bits has the word R111 gives them. -/
theorem commandWord_of_pack {i : Instr} {op d a b c : Nat} (h : encode i = pack op d a b c) (hop : op < 256 := by omega)
    (hd : d < 16 := by omega) (ha : a < 16 := by omega) (hb : b < 16 := by omega) (hc : c < 16 := by omega) :
    CommandWord i op d a b c := by
  rw [CommandWord, h, pack_toNat op d a b c hop hd ha hb hc]

/-! ### The end of a command that writes one register -/

theorem finish_setRaw (s : State) (d : RReg) (x : Word256) :
    ∃ t, finish s (s.regs.setRaw d x.toNat) = .next t ∧ t.regs.raw[d] = x ∧ OnlyRaw s t d ∧
      Completed s t true false false := by
  obtain ⟨t, he, hregs, hc⟩ := finish_next s (s.regs.setRaw d x.toNat)
  refine ⟨t, he, ?value, onlyRaw_set hregs, hc⟩
  rw [hregs, Regs.setRaw_raw_self, BitVec.ofNat_toNat, BitVec.setWidth_eq]

theorem finish_setF (s : State) (d : FReg) {v : Nat} (hv : v < p) :
    ∃ t, finish s (s.regs.setF d v) = .next t ∧ (t.regs.f[d]).toNat = v ∧ OnlyF s t d ∧
      Completed s t true false false := by
  obtain ⟨t, he, hregs, hc⟩ := finish_next s (s.regs.setF d v)
  exact ⟨t, he, by rw [hregs, Regs.setF_toNat _ _ hv], onlyF_set hregs, hc⟩

theorem finish_setS (s : State) (d : SReg) {v : Nat} (hv : v < n) :
    ∃ t, finish s (s.regs.setS d v) = .next t ∧ (t.regs.s[d]).toNat = v ∧ OnlyS s t d ∧
      Completed s t true false false := by
  obtain ⟨t, he, hregs, hc⟩ := finish_next s (s.regs.setS d v)
  exact ⟨t, he, by rw [hregs, Regs.setS_toNat _ _ hv], onlyS_set hregs, hc⟩

/-- An Option result that is `None` in the case `c` only: there the command changes nothing, elsewhere it writes the value
(60_exceptions.md R303). -/
theorem finishOption_split {α : Type} (s : State) {res : Option α} {write : α → Regs} {c : Prop} {Q : State → Prop}
    (hnone : c → res = none)
    (hsome : ¬c → ∃ y, res = some y ∧ ∀ t, t.regs = write y → Completed s t true false false → Q t) :
    ∃ t, finishOption s res write = .next t ∧ (c → t.regs = s.regs ∧ Completed s t false false false) ∧ (¬c → Q t) := by
  by_cases h : c
  · obtain ⟨t, he, hend⟩ := finishOption_none s write
    exact ⟨t, by rw [hnone h, he], fun _ => hend, fun h' => absurd h h'⟩
  · obtain ⟨y, hres, hQ⟩ := hsome h
    obtain ⟨t, he, hregs, hc⟩ := finishOption_some s y write
    exact ⟨t, by rw [hres, he], fun h' => absurd h' h, fun _ => hQ t hregs hc⟩

/-! ### Powers -/

/-- `pow_p` by a raw exponent (40_field.md R140, R146). -/
theorem powP_rawAt (x : Nat) (r : Regs) (b : RReg) : powP x (r.rawAt b) = x ^ (r.raw[b]).toNat % p :=
  powMod_eq p x _ (r.rawAt_lt b)

/-- `pow_n` by a raw exponent (41_scalar.md R170, R176). -/
theorem powN_rawAt (x : Nat) (r : Regs) (b : RReg) : powN x (r.rawAt b) = x ^ (r.raw[b]).toNat % n :=
  powMod_eq n x _ (r.rawAt_lt b)

/-- Settles O28: square-and-multiply computes the power, whatever the 256-bit exponent. -/
theorem powers : Obligations.Powers := by
  refine fun s => ⟨fun d a b => ⟨commandWord_of_pack rfl, ?field⟩, fun d a b => ⟨commandWord_of_pack rfl, ?scalar⟩⟩
  case field =>
    rw [← Regs.fAt, ← powP_rawAt]
    exact finish_setF s d (powMod_lt p_pos _ _ (Regs.rawAt_lt _ b))
  case scalar =>
    rw [← Regs.sAt, ← powN_rawAt]
    exact finish_setS s d (powMod_lt n_pos _ _ (Regs.rawAt_lt _ b))

/-! ### Inverses -/

/-- Settles O29: `None` at 0, and elsewhere the power `m - 2`, the inverse because `p` and `n` are prime. -/
theorem inverses : Obligations.Inverses := by
  refine fun s => ⟨fun d a ha => ⟨commandWord_of_pack rfl, finishOption_split s ?fieldZero fun h0 => ?field⟩,
    fun d a ha => ⟨commandWord_of_pack rfl, finishOption_split s ?scalarZero fun h0 => ?scalar⟩⟩
  case fieldZero => exact fun h0 => by rw [Regs.fAt, h0]; exact invMod_zero p
  case field =>
    obtain ⟨y, hy, hlt, hmul⟩ := invP_spec h0 ha
    refine ⟨y, hy, fun t hregs hc => ?_⟩
    rw [hregs, Regs.setF_toNat _ _ hlt]
    exact ⟨hlt, hmul, onlyF_set hregs, hc⟩
  case scalarZero => exact fun h0 => by rw [Regs.sAt, h0]; exact invMod_zero n
  case scalar =>
    obtain ⟨y, hy, hlt, hmul⟩ := invN_spec h0 ha
    refine ⟨y, hy, fun t hregs hc => ?_⟩
    rw [hregs, Regs.setS_toNat _ _ hlt]
    exact ⟨hlt, hmul, onlyS_set hregs, hc⟩

/-- `inv_p(x) = Some(pow_p(x, p - 2))` (40_field.md R150). -/
theorem invP_eq_powP {x : Nat} (h0 : x ≠ 0) : invP x = some (powP x (p - 2)) := invMod_of_ne_zero p x h0

/-- Two reduced values with the product 1 by `x` are one (40_field.md R150). -/
theorem inverse_unique {m x y z : Nat} (hy : y < m) (hz : z < m) (hxy : x * y % m = 1) (hxz : x * z % m = 1) : y = z := by
  have h : y ≡ z [MOD m] :=
    calc y ≡ y * (x * z % m) [MOD m] := by rw [hxz, mul_one]
      _ ≡ y * (x * z) [MOD m] := (Nat.mod_modEq _ m).mul_left y
      _ = x * y * z := by ring
      _ ≡ x * y % m * z [MOD m] := (Nat.mod_modEq _ m).symm.mul_right z
      _ ≡ z [MOD m] := by rw [hxy, one_mul]
  exact h.eq_of_lt_of_lt hy hz

/-- Settles O30: the model's inverse is that power, and there is no second inverse. -/
theorem inversionMethodsAgree : Obligations.InversionMethodsAgree := by
  intro x y hpos hx
  have hpow : powP x (p - 2) = x ^ (p - 2) % p := powMod_eq p x _ (by decide)
  refine ⟨fun hy hxy => ?unique, fun s a d d' b ha hb => ?commands⟩
  case unique =>
    obtain ⟨z, hz, hlt, hmul⟩ := invP_spec hpos.ne' hx
    obtain rfl : y = z := inverse_unique hy hlt hxy hmul
    refine ⟨hz, ?_⟩
    rw [← hpow]
    exact Option.some.inj ((invP_eq_powP hpos.ne').symm.trans hz)
  case commands =>
    have hinv : invP (s.src.fAt a) = some (powP (s.src.fAt a) (s.src.rawAt b)) := by
      rw [Regs.fAt, ha, Regs.rawAt, hb]
      exact invP_eq_powP hpos.ne'
    obtain ⟨t, he, hregs, -⟩ := finishOption_some s (powP (s.src.fAt a) (s.src.rawAt b)) (s.regs.setF d)
    obtain ⟨t', he', hregs', -⟩ := finish_next s (s.regs.setF d' (powP (s.src.fAt a) (s.src.rawAt b)))
    rw [← hinv] at he
    exact ⟨t, t', he, he', by rw [hregs, hregs', Regs.setF_f_self, Regs.setF_f_self]⟩

/-! ### Conversions and sums -/

/-- Settles O25: each end writes one register with a value in its range. -/
theorem integerConversions : Obligations.IntegerConversions := fun s =>
  ⟨fun d _ => ⟨commandWord_of_pack rfl, finish_setF s d (Nat.mod_lt _ p_pos)⟩,
    fun d _ => ⟨commandWord_of_pack rfl, finish_setS s d (Nat.mod_lt _ n_pos)⟩,
    fun d _ => ⟨commandWord_of_pack rfl, finish_setS s d (Nat.mod_lt _ n_pos)⟩,
    fun d a => ⟨commandWord_of_pack rfl, finish_setRaw s d s.src.f[a]⟩,
    fun d a => ⟨commandWord_of_pack rfl, finish_setRaw s d s.src.s[a]⟩⟩

/-- Settles O26: the difference is the residue of the integer difference (00_scope.md R17). -/
theorem fieldAddSubMul : Obligations.FieldAddSubMul := by
  refine fun s d a b => ⟨⟨commandWord_of_pack rfl, finish_setF s d (addP_lt _ _)⟩, ⟨commandWord_of_pack rfl, ?sub⟩,
    commandWord_of_pack rfl, finish_setF s d (mulP_lt _ _)⟩
  case sub =>
    obtain ⟨t, he, hv, honly, hc⟩ := finish_setF s d (subP_lt (s.src.fAt a) (s.src.fAt b))
    exact ⟨t, he, by rw [hv]; exact subMod_eq_emod p_pos _ _, honly, hc⟩

/-! ### Boolean tests -/

theorem toNat_beq_toNat {w : Nat} (x y : BitVec w) : (x.toNat == y.toNat) = decide (x = y) := by
  rw [Bool.eq_iff_iff, beq_iff_eq, decide_eq_true_iff, BitVec.toNat_inj]

/-- A P register is the identity by INF alone (42_point.md R213). -/
theorem Regs.pAt_beq_inf (r : Regs) (i : PReg) : (r.pAt i == .inf) = (r.p[i]).inf := by
  rw [Regs.pAt, PointReg.toPoint]
  cases (r.p[i]).inf <;> rfl

/-- Settles O31: registers are equal when their integers are. -/
theorem booleanTests : Obligations.BooleanTests := by
  refine fun s => ⟨fun a b => ⟨commandWord_of_pack rfl, ?field⟩, fun a b => ⟨commandWord_of_pack rfl, ?scalar⟩,
    fun a => ⟨commandWord_of_pack rfl, ?point⟩⟩
  case field =>
    rw [← toNat_beq_toNat]
    exact finishCond_next s _
  case scalar =>
    rw [← toNat_beq_toNat]
    exact finishCond_next s _
  case point =>
    rw [← Regs.pAt_beq_inf]
    exact finishCond_next s _

end Sys2Proof.Machine
end

section
/-! PROOFS. The scalar sum, difference and product: 41_scalar.md R173 to R175. -/

namespace Sys2Proof.Machine

open Sys2Proof.Config (n)

/-- `sub_n` is the residue of the integer difference (41_scalar.md R170, 00_scope.md R17). -/
theorem natCast_subN (x y : Nat) : ((subN x y : Nat) : Int) = ((x : Int) - y) % n := subMod_eq_emod n_pos x y

/-- Settles O27: each end writes one register with a residue below `n`; the integer difference is the one `sub_n` computes. -/
theorem scalarAddSubMul : Obligations.ScalarAddSubMul := by
  refine fun s d a b => ⟨⟨commandWord_of_pack rfl, finish_setS s d (addN_lt _ _)⟩, ⟨commandWord_of_pack rfl, ?sub⟩,
    commandWord_of_pack rfl, finish_setS s d (mulN_lt _ _)⟩
  case sub =>
    simp only [← natCast_subN, Nat.cast_inj]
    exact finish_setS s d (subN_lt _ _)

end Sys2Proof.Machine
end

section
/-! PROOFS. The curve's group on the model's points: 42_point.md R201, R206, R215, with the order of the generator
(00_scope.md R10). -/

namespace Sys2Proof.Machine

open Sys2Proof.Config (p n)

theorem fact_prime_p : Fact (Nat.Prime p) := ⟨prime_p⟩

/-! ### Sums and multiples of points on the curve -/

theorem ptAdd_onCurve {a b : Point} (ha : a.Legal) (hb : b.Legal) (ca : a.onCurve = true) (cb : b.onCurve = true) :
    (ptAdd a b).onCurve = true :=
  have := fact_prime_p
  (toGroup_ptAdd ha hb ca cb).2

theorem ptSmul_onCurve {q : Point} (hq : q.Legal) (cq : q.onCurve = true) {k : Nat} (hk : k < 2 ^ 256) :
    (ptSmul q k).onCurve = true :=
  have := fact_prime_p
  (toGroup_ptSmul hq cq hk).2

theorem ptAdd_inf (q : Point) : ptAdd q .inf = q := by cases q <;> rfl

section

variable [Fact (Nat.Prime p)] {q : Point} (hq : q.Legal) (cq : q.onCurve = true)
include hq cq

/-- A multiple is the point that it is in the group. -/
theorem ptSmul_eq_iff {k : Nat} (hk : k < 2 ^ 256) {r : Point} (hr : r.Legal) (cr : r.onCurve = true) :
    ptSmul q k = r ↔ k • toGroup q = toGroup r := by
  obtain ⟨hmul, cmul⟩ := toGroup_ptSmul hq cq hk
  rw [← hmul]
  exact ⟨congrArg toGroup, toGroup_injective (ptSmul_legal hq k) hr cmul cr⟩

theorem ptSmul_eq_inf_iff {k : Nat} (hk : k < 2 ^ 256) : ptSmul q k = .inf ↔ k • toGroup q = 0 :=
  ptSmul_eq_iff hq cq hk (r := .inf) trivial rfl

theorem ptSmul_zero : ptSmul q 0 = .inf := (ptSmul_eq_inf_iff hq cq (by decide)).2 (zero_nsmul _)

theorem ptSmul_one : ptSmul q 1 = q := (ptSmul_eq_iff hq cq (by decide) hq cq).2 (one_nsmul _)

theorem ptSmul_add {j k : Nat} (h : j + k < 2 ^ 256) : ptSmul q (j + k) = ptAdd (ptSmul q j) (ptSmul q k) := by
  obtain ⟨hj, cj⟩ := toGroup_ptSmul hq cq (k := j) (by omega)
  obtain ⟨hk, ck⟩ := toGroup_ptSmul hq cq (k := k) (by omega)
  have lj := ptSmul_legal hq j
  have lk := ptSmul_legal hq k
  obtain ⟨hadd, cadd⟩ := toGroup_ptAdd lj lk cj ck
  rw [ptSmul_eq_iff hq cq h (ptAdd_legal lj lk) cadd, hadd, hj, hk, add_nsmul]

end

/-- Settles O47, by the multiples of the group. -/
theorem smulIsRepeatedAddition : Obligations.SmulIsRepeatedAddition := fun _ _ _ hq cq h =>
  have := fact_prime_p
  ⟨ptSmul_zero hq cq, ptSmul_one hq cq, ptSmul_add hq cq h⟩

/-! ### The generator -/

theorem ptSmul_generator_mod {k : Nat} (hk : k < 2 ^ 256) : ptSmul generator k = ptSmul generator (k % n) := by
  have := fact_prime_p
  obtain ⟨hmul, cmul⟩ := toGroup_ptSmul generator_legal generator_onCurve ((Nat.mod_le k n).trans_lt hk)
  rw [ptSmul_eq_iff generator_legal generator_onCurve hk (ptSmul_legal generator_legal _) cmul, hmul]
  exact nsmul_eq_mod_nsmul k order_nsmul_generator

theorem ptSmul_generator_eq_inf_iff {k : Nat} (hk : k < 2 ^ 256) : ptSmul generator k = .inf ↔ n ∣ k := by
  have := fact_prime_p
  rw [ptSmul_eq_inf_iff generator_legal generator_onCurve hk, nsmul_generator_eq_zero_iff]

/-- Settles O48: the generator's order in the group is `n`. -/
theorem generatorHasOrderN : Obligations.GeneratorHasOrderN :=
  ⟨(ptSmul_generator_eq_inf_iff n_lt).2 dvd_rfl, fun _ hk => ⟨ptSmul_generator_mod hk, ptSmul_generator_eq_inf_iff hk⟩⟩

/-! ### Negatives and doubles -/

/-- A reduced value is its own negative only at 0. -/
theorem eq_zero_of_eq_subP {y : Nat} (hy : y < p) (h : y = subP 0 y) : y = 0 := by
  have := fact_prime_p
  have hcast : (y : ZMod p) = -y := by simpa using congrArg (Nat.cast : Nat → ZMod p) h
  exact (cast_eq_zero hy).1 ((eq_neg_iff_zero _).1 hcast)

/-- A point and its reflection: the tangent case only where `y = 0`, and there it is vertical (42_point.md R200). -/
theorem ptAdd_reflection {x y : Nat} (hy : y < p) : ptAdd (.aff x y) (.aff x (subP 0 y)) = .inf := by
  rw [ptAdd]
  by_cases h : y = subP 0 y
  · rw [if_pos ⟨rfl, h⟩, if_pos (eq_zero_of_eq_subP hy h)]
  · rw [if_neg (fun e => h e.2), if_pos rfl]

/-- `2 · G`, by the tangent at `G` (42_point.md R215). -/
theorem ptDbl_generator : ptDbl generator =
    .aff 0xC6047F9441ED7D6D3045406E95C07CD85C778E4B8CEF3CA7ABAC09B95C709EE5
      0x1AE168FEA63DC339A3C58419466CEAEEF7F632653266D0E1236431A950CFE52A := by decide +kernel

/-- Settles O49: `2 · G = G + G` by additivity, and the tangent there is computed. -/
theorem groupProperties : Obligations.GroupProperties := by
  have := fact_prime_p
  refine ⟨fun q hq _ => ⟨rfl, ptAdd_inf q, ?_⟩, ptSmul_one generator_legal generator_onCurve, ?_⟩
  · cases q with
    | inf => rfl
    | aff x y => exact ptAdd_reflection hq.2
  · have hadd := ptSmul_add generator_legal generator_onCurve (j := 1) (k := 1) (by decide)
    rw [ptSmul_one generator_legal generator_onCurve] at hadd
    exact hadd.trans ptDbl_generator

/-! ### No point of order two -/

/-- `-7` is no cube modulo `p`: its power `(p - 1) / 3` is not 1. -/
theorem powMod_neg_seven_ne_one : powMod p (p - 7) ((p - 1) / 3) ≠ 1 := by decide +kernel

theorem cube_add_seven_ne_zero (x : ZMod p) : x ^ 3 + 7 ≠ 0 := by
  have := fact_prime_p
  intro h
  have hx : x ≠ 0 := by
    rintro rfl
    exact seven_ne_zero_p (by simpa using h)
  have hcube : ((p - 7 : Nat) : ZMod p) = x ^ 3 := by
    rw [Nat.cast_sub (by decide), ZMod.natCast_self]
    push_cast
    linear_combination -h
  have hpow : ((powMod p (p - 7) ((p - 1) / 3) : Nat) : ZMod p) = (1 : Nat) := by
    rw [powMod_eq _ _ _ (by decide), ZMod.natCast_mod, Nat.cast_pow, hcube, ← pow_mul,
      Nat.mul_div_cancel' (by decide), ZMod.pow_card_sub_one_eq_one hx, Nat.cast_one]
  exact powMod_neg_seven_ne_one ((cast_inj (powMod_lt p_pos _ _ (by decide)) (by decide)).1 hpow)

theorem ordinate_ne_zero {x y : Nat} (h : (Point.aff x y).onCurve = true) : y ≠ 0 := by
  rintro rfl
  have hcurve := (curve_equation _ _).1 ((onCurve_iff x 0).1 h)
  exact cube_add_seven_ne_zero x (by simpa using hcurve.symm)

theorem ptDbl_ne_inf (x : Nat) {y : Nat} (hy : y ≠ 0) : ptDbl (.aff x y) ≠ .inf := by
  rw [ptDbl, ptAdd, if_pos ⟨rfl, rfl⟩, if_neg hy, forced_eq, reflectThird_eq]
  nofun

/-- Settles O50: `y = 0` would make `-7` a cube. -/
theorem noPointOfOrderTwo : Obligations.NoPointOfOrderTwo := fun x _ _ _ h =>
  ⟨ordinate_ne_zero h, ptDbl_ne_inf x (ordinate_ne_zero h)⟩

end Sys2Proof.Machine
end

section
/-! PROOFS. The point commands: 42_point.md R200, R203 to R212, and EC_PUBKEY, 43_ecdsa.md R251. -/

namespace Sys2Proof.Machine

open Sys2Proof.Config (p)

/-! ### The end of a command that writes a point -/

theorem finish_setP (s : State) (d : PReg) (q : Point) :
    ∃ t, finish s (s.regs.setP d q) = .next t ∧ t.regs.p[d] = .ofPoint q ∧ OnlyP s t d ∧
      Completed s t true false false := by
  obtain ⟨t, he, hregs, hc⟩ := finish_next s (s.regs.setP d q)
  exact ⟨t, he, by rw [hregs, Regs.setP_p_self], onlyP_set hregs, hc⟩

/-- A legal point is read back as it was written (42_point.md R203). -/
theorem finish_setP_legal (s : State) (d : PReg) {q : Point} (hq : q.Legal) :
    ∃ t, finish s (s.regs.setP d q) = .next t ∧ t.regs.pAt d = q ∧ (t.regs.p[d]).Legal ∧ OnlyP s t d ∧
      Completed s t true false false := by
  obtain ⟨t, he, hreg, honly, hc⟩ := finish_setP s d q
  refine ⟨t, he, ?_, ?_, honly, hc⟩
  · rw [Regs.pAt, hreg, PointReg.toPoint_ofPoint hq]
  · rw [hreg]; exact PointReg.ofPoint_legal hq

/-- The fields of an affine point read from two registers, in range or not (42_point.md R203, R202). -/
theorem PointReg.ofPoint_aff_toNat (x y : Word256) :
    PointReg.ofPoint (.aff x.toNat y.toNat) = { inf := false, x := x, y := y } := by
  simp only [ofPoint, BitVec.ofNat_toNat, BitVec.setWidth_eq]

/-- Settles O32, by the write-back of a point. -/
theorem pointConstructors : Obligations.PointConstructors := by
  refine fun s d => ⟨⟨commandWord_of_pack rfl, finish_setP s d .inf⟩, fun a b => ⟨commandWord_of_pack rfl, ?_⟩⟩
  rw [← PointReg.ofPoint_aff_toNat]
  exact finish_setP s d _

/-! ### Coordinates -/

theorem Regs.pAt_of_inf {r : Regs} {i : PReg} (h : (r.p[i]).inf = true) : r.pAt i = .inf := by
  rw [pAt, PointReg.toPoint, if_pos h]

theorem Regs.pAt_of_affine {r : Regs} {i : PReg} (h : (r.p[i]).inf = false) :
    r.pAt i = .aff (r.p[i]).x.toNat (r.p[i]).y.toNat := by
  rw [pAt, PointReg.toPoint, h]
  rfl

/-- The end of a command that writes the coordinate `v` of a point, unless it is the identity (42_point.md R211). -/
theorem finishOption_coordinate (s : State) (d : FReg) {res : Option Nat} {identity : Bool} {v : Word256}
    (hnone : identity = true → res = none) (hsome : identity = false → res = some v.toNat) :
    ∃ t, finishOption s res (s.regs.setF d) = .next t ∧
      (identity = true → t.regs = s.regs ∧ Completed s t false false false) ∧
      (identity = false → t.regs.f[d] = v ∧ OnlyF s t d ∧ Completed s t true false false) := by
  simp only [← Bool.not_eq_true] at hsome ⊢
  refine finishOption_split s hnone fun h => ⟨v.toNat, hsome h, fun t hregs hc => ⟨?_, onlyF_set hregs, hc⟩⟩
  rw [hregs, Regs.setF_f_self, BitVec.ofNat_toNat, BitVec.setWidth_eq]

/-- Settles O36: the coordinates of the point a register stands for are its fields. -/
theorem coordinates : Obligations.Coordinates := fun s d _ =>
  ⟨⟨commandWord_of_pack rfl, finishOption_coordinate s d (fun h => by rw [Regs.pAt_of_inf h, Point.x?])
      fun h => by rw [Regs.pAt_of_affine h, Point.x?]⟩,
    commandWord_of_pack rfl, finishOption_coordinate s d (fun h => by rw [Regs.pAt_of_inf h, Point.y?])
      fun h => by rw [Regs.pAt_of_affine h, Point.y?]⟩

/-! ### Sums -/

/-- Division by a nonzero value is undone by multiplication (42_point.md R200). -/
theorem slope_mul (num : Nat) {den : Nat} (hlt : den < p) (h0 : den ≠ 0) : ((slope num den : Nat) : ZMod p) * den = num := by
  have := fact_prime_p
  rw [cast_slope, div_mul_cancel₀ _ (mt (cast_eq_zero hlt).1 h0)]

theorem onChord_reflectThird (m x1 y1 x2 : Nat) : OnChord m x1 y1 x2 (reflectThird m x1 y1 x2) := by
  refine ⟨_, _, reflectThird_eq m x1 y1 x2, ?_, ?_⟩
  · simp only [cast_subP, cast_mulP, pow_two]
  · simp only [cast_subP, cast_mulP]

/-- `pt_add` of legal points meets the equations of R200's cases, on the curve or not. -/
theorem pointSum_ptAdd : ∀ {a b : Point}, a.Legal → b.Legal → PointSum a b (ptAdd a b)
  | .inf, _, _, _ => rfl
  | .aff _ _, .inf, _, _ => rfl
  | .aff x1 y1, .aff x2 y2, ha, hb => by
    rw [ptAdd, forced_eq, forced_eq]
    refine ⟨?vertical, ?tangent, ?inverses, ?chord⟩
    case vertical =>
      rintro ⟨hx, hy, h0⟩
      rw [if_pos ⟨hx, hy⟩, if_pos h0]
    case tangent =>
      rintro ⟨hx, hy, h0⟩
      rw [if_pos ⟨hx, hy⟩, if_neg h0]
      refine ⟨_, ?_, onChord_reflectThird _ _ _ _⟩
      have hm := slope_mul (mulP 3 (mulP x1 x1)) (addP_lt y1 y1) (tangent_denominator_ne_zero ha.2 h0)
      rw [cast_addP, cast_mulP, cast_mulP, ← two_mul] at hm
      rw [hm, Nat.cast_ofNat, pow_two]
    case inverses =>
      rintro ⟨hx, hy⟩
      rw [if_neg fun h => hy h.2, if_pos hx]
    case chord =>
      intro hx
      rw [if_neg fun h => hx h.1, if_neg hx]
      refine ⟨_, ?_, onChord_reflectThird _ _ _ _⟩
      have hm := slope_mul (subP y2 y1) (subP_lt x2 x1) (chord_denominator_ne_zero ha.1 hb.1 hx)
      rwa [cast_subP, cast_subP] at hm

/-- 42_point.md R201: the identity and a point with `y = 0` double to the identity. -/
theorem ptDbl_eq_inf {q : Point} (h : q = .inf ∨ ∃ x, q = .aff x 0) : ptDbl q = .inf := by
  rcases h with rfl | ⟨x, rfl⟩
  · rfl
  · rw [ptDbl, ptAdd, if_pos ⟨rfl, rfl⟩, if_pos rfl]

/-- Settles O33: what is read back is `pt_add` of the sources. -/
theorem pointSums : Obligations.PointSums := by
  refine fun s d a ha => ⟨fun b hb => ⟨commandWord_of_pack rfl, ?add⟩, commandWord_of_pack rfl, ?double⟩
  case add =>
    obtain ⟨t, he, hv, hlegal, honly, hc⟩ := finish_setP_legal s d (ptAdd_legal ha.toPoint hb.toPoint)
    exact ⟨t, he, hv ▸ pointSum_ptAdd ha.toPoint hb.toPoint, hlegal, honly, hc⟩
  case double =>
    obtain ⟨t, he, hv, hlegal, honly, hc⟩ := finish_setP_legal s d (ptDbl_legal ha.toPoint)
    exact ⟨t, he, hv ▸ pointSum_ptAdd ha.toPoint ha.toPoint, hlegal, fun h => hv.trans (ptDbl_eq_inf h), honly, hc⟩

/-! ### Multiples -/

/-- One iteration of R206's loop on the accumulator and the addend. -/
def smulStep (k : Nat) (st : Point × Point) (bit : Nat) : Point × Point := (accumulate k st.1 st.2 bit, ptDbl st.2)

theorem smulLoop_eq_foldl (k fuel : Nat) (acc addend : Point) (bit : Nat) :
    smulLoop k fuel acc addend bit = ((List.range' bit fuel).foldl (smulStep k) (acc, addend)).1 := by
  induction fuel generalizing acc addend bit with
  | zero => rfl
  | succ fuel ih => rw [smulLoop, ih, List.range'_succ, List.foldl_cons, smulStep]

/-- Settles O34: the loop is the fold of its iteration. -/
theorem smulIsDoubleAndAdd : Obligations.SmulIsDoubleAndAdd := by
  intro q k
  rw [List.range_eq_range']
  exact smulLoop_eq_foldl k 256 .inf q 0

section

variable {s : State} (h : s.Inv)
include h

/-- PT_MUL in flight writes `pt_smul` of its sources, wherever its loop stands (42_point.md R209). -/
theorem State.Inv.exec_ptMul {d a : PReg} {b : RReg} (hr : s.Running (.ptMul d a b)) :
    Machine.exec (.ptMul d a b) s = finish s (s.regs.setP d (ptSmul (s.src.pAt a) (s.src.rawAt b))) := by
  obtain ⟨j, -, hsrc, hseq, -, hj⟩ := h.coherent.job_coherent hr
  rw [hsrc, ← hj.ptMul, ← hsrc, ← hseq]
  rfl

/-- PT_MULG in flight writes `pt_smul` of G, wherever its loop stands (42_point.md R210). -/
theorem State.Inv.exec_ptMulg {d : PReg} {a : RReg} (hr : s.Running (.ptMulg d a)) :
    Machine.exec (.ptMulg d a) s = finish s (s.regs.setP d (ptSmul generator (s.src.rawAt a))) := by
  obtain ⟨j, -, hsrc, hseq, -, hj⟩ := h.coherent.job_coherent hr
  rw [hsrc, ← hj.ptMulg, ← hsrc, ← hseq]
  rfl

/-- EC_PUBKEY in flight writes `pt_smul` of G, wherever its loop stands (43_ecdsa.md R251). -/
theorem State.Inv.exec_ecPubkey {d : PReg} {a : SReg} (hr : s.Running (.ecPubkey d a)) :
    Machine.exec (.ecPubkey d a) s = finish s (s.regs.setP d (ptSmul generator (s.src.sAt a))) := by
  obtain ⟨j, -, hsrc, hseq, -, hj⟩ := h.coherent.job_coherent hr
  rw [hsrc, ← hj.ecPubkey, ← hsrc, ← hseq]
  rfl

/-- The sources of a command in flight are the registers (60_exceptions.md R301). -/
theorem State.Inv.src_eq {i : Instr} (hr : s.Running i) : s.src = s.regs := by
  obtain ⟨j, -, hsrc, -, hsnap, -⟩ := h.coherent.job_coherent hr
  rw [hsrc, hsnap]

theorem State.Inv.src_pAt_legal {i : Instr} (hr : s.Running i) (a : PReg) : (s.src.pAt a).Legal := by
  rw [h.src_eq hr]
  exact h.legal.pAt a

end

/-- Settles O35: wherever the loop stands, the product is `pt_smul` of the sources. -/
theorem multiplications : Obligations.Multiplications := by
  refine fun s h => ⟨fun d a b hr => ⟨commandWord_of_pack rfl, ?mul⟩, fun d a hr => ⟨commandWord_of_pack rfl, ?mulg⟩,
    fun d a hr => ⟨commandWord_of_pack rfl, ?pubkey⟩⟩
  case mul =>
    rw [h.exec_ptMul hr]
    exact finish_setP_legal s d (ptSmul_legal (h.src_pAt_legal hr a) _)
  case mulg =>
    rw [h.exec_ptMulg hr]
    exact finish_setP_legal s d (ptSmul_legal generator_legal _)
  case pubkey =>
    rw [h.exec_ecPubkey hr]
    exact finish_setP_legal s d (ptSmul_legal generator_legal _)

end Sys2Proof.Machine
end

section
/-! PROOFS. The P file stays on the curve (42_point.md R202, 10_state.md R35). -/

namespace Sys2Proof.Machine

theorem Regs.OnCurve.setP {r : Regs} (h : r.OnCurve) (d : PReg) {q : Point} (hq : q.Legal) (cq : q.onCurve = true) :
    (r.setP d q).OnCurve := by
  intro i
  by_cases hi : i = d
  · rw [hi, setP_pAt r d hq]; exact cq
  · rw [Regs.pAt, setP_p, vector_set_of_ne _ hi]; exact h i

/-- A command whose destination is no P register leaves the P file alone (10_state.md R39). -/
theorem Regs.OnCurve.exec_of_writes_ne {s t : State} (h : s.regs.OnCurve) {i : Instr} (he : exec i s = .next t)
    (hw : ∀ d, writes i ≠ some (.p d)) : t.regs.OnCurve := by
  intro d
  have hsame : t.regs.p[d] = s.regs.p[d] := (commandsWriteTheirDestination s t i he).1 (.p d) (hw d)
  rw [Regs.pAt, hsame]
  exact h d

/-- Settles O51: the point a command writes is the identity, or a sum or a multiple of points on the curve. -/
theorem commandsKeepTheCurve : Obligations.CommandsKeepTheCurve := by
  intro s t i h hr hcurve hload he
  have hlegal := h.src_pAt_legal hr
  have hsrc : s.src.OnCurve := by rw [h.src_eq hr]; exact hcurve
  cases i with
  | ptLoad d a b => exact absurd rfl (hload d a b)
  | ptSetinf d => cases he; exact hcurve.setP d trivial rfl
  | ptAdd d a b =>
    cases he
    exact hcurve.setP d (ptAdd_legal (hlegal a) (hlegal b)) (ptAdd_onCurve (hlegal a) (hlegal b) (hsrc a) (hsrc b))
  | ptDbl d a =>
    cases he
    exact hcurve.setP d (ptDbl_legal (hlegal a)) (ptAdd_onCurve (hlegal a) (hlegal a) (hsrc a) (hsrc a))
  | ptMul d a b =>
    rw [h.exec_ptMul hr] at he
    cases he
    exact hcurve.setP d (ptSmul_legal (hlegal a) _) (ptSmul_onCurve (hlegal a) (hsrc a) (Regs.rawAt_lt _ b))
  | ptMulg d a =>
    rw [h.exec_ptMulg hr] at he
    cases he
    exact hcurve.setP d (ptSmul_legal generator_legal _)
      (ptSmul_onCurve generator_legal generator_onCurve (Regs.rawAt_lt _ a))
  | ecPubkey d a =>
    rw [h.exec_ecPubkey hr] at he
    cases he
    exact hcurve.setP d (ptSmul_legal generator_legal _)
      (ptSmul_onCurve generator_legal generator_onCurve (BitVec.isLt _))
  | _ => exact hcurve.exec_of_writes_ne he nofun

end Sys2Proof.Machine
end

section
/-! PROOFS. The deterministic nonce: EC_GENK and RFC 6979 (43_ecdsa.md R242 to R244), and a rejected candidate of EC_GENK and EC_SIGNH
(70_reset_and_hazards.md R353). -/

namespace Sys2Proof.Machine

/-! ### RFC 6979 -/

/-- `K` and `V` of one seeding round, the argument of the HMAC written as R242 writes it. -/
theorem seedRound_eq (hm : HmacKind) (g : Generator) (tag : Byte) (x h1 : List Byte) :
    seedRound hm g tag (x ++ h1) =
      { k := hm.run g.k (bytes32 g.v ++ [tag] ++ x ++ h1),
        v := hm.run (hm.run g.k (bytes32 g.v ++ [tag] ++ x ++ h1)) (bytes32 g.v) } := by
  simp only [seedRound, List.append_assoc, List.cons_append, List.nil_append]

/-- The initial `V` is 32 bytes of 1 (43_ecdsa.md R242). -/
theorem initialV_eq : (BitVec.ofNat 256 (intOf (List.replicate 32 0x01)) : Word256) =
    0x0101010101010101010101010101010101010101010101010101010101010101 := by decide

theorem candidateLoop_of_accepted {hm : HmacKind} {g : Generator} (fuel : Nat)
    (h : 0 < (g.candidate hm).toNat ∧ (g.candidate hm).toNat < Config.n) :
    candidateLoop hm (fuel + 1) g = some (g.candidate hm) := by
  rw [candidateLoop, if_pos ((acceptable_iff _).2 h)]

theorem candidateLoop_of_rejected {hm : HmacKind} {g : Generator} (fuel : Nat)
    (h : ¬(0 < (g.candidate hm).toNat ∧ (g.candidate hm).toNat < Config.n)) :
    candidateLoop hm (fuel + 1) g = candidateLoop hm fuel (g.afterReject hm) := by
  rw [candidateLoop, if_neg (mt (acceptable_iff _).1 h)]

/-- A nonce is never 0 and never reduced (43_ecdsa.md R243). -/
theorem generateK_range {hm : HmacKind} {fuel : Nat} {x : Word256} {b : Nat} {k : Word256}
    (h : generateK hm fuel x b = some k) : 0 < k.toNat ∧ k.toNat < Config.n :=
  (acceptable_iff k).1 (candidateLoop_acceptable fuel _ h)

/-- Settles O38: two seeding rounds from the initial `K` and `V`, and the loop by the candidate it draws. -/
theorem rfc6979Steps : Obligations.Rfc6979Steps := by
  intro hm x b mac X H1 v0 k1 v1 k2 v2
  have seed : seedGenerator hm x b = { k := k2, v := v2 } := by
    rw [seedGenerator, ← initialV_eq, digestOctets, seedRound_eq, seedRound_eq]
  refine ⟨seed, fun fuel => by rw [generateK, seed], fun g => ⟨rfl, rfl, rfl, fun fuel => ⟨?_, ?_⟩⟩, fun _ _ => generateK_range⟩
  · exact candidateLoop_of_accepted fuel
  · exact candidateLoop_of_rejected fuel

/-! ### A candidate in flight -/

/-- A rejected candidate changes nothing but the generator of the command in flight (43_ecdsa.md R243). -/
theorem State.Coherent.redraw_next {s : State} (h : s.Coherent) {i : Instr} (hr : s.Running i) (g : Generator) :
    ∃ t, (.next (s.redraw i g) : Answer) = .next t ∧ t.regs = s.regs ∧ t.status = s.status ∧
      t.seq = .gen (g.afterReject s.hmac) ∧ t.src = s.src ∧ t.Running i := by
  refine ⟨_, rfl, rfl, ?status, rfl, rfl, ⟨_, rfl, decodeOfEncode i⟩⟩
  case status =>
    obtain ⟨j, hj, -⟩ := h.job_coherent hr
    have hb : s.status.busy = true := by rw [h.busy_iff, hj]; rfl
    rw [State.redraw, ← hb]

/-- EC_GENK draws the candidate of the generator it stands at (10_state.md R52). -/
theorem exec_ecGenk_of_gen {s : State} {g : Generator} (hseq : s.seq = .gen g) (d a : SReg) (b : RReg) :
    exec (.ecGenk d a b) s =
      if acceptable (g.candidate s.hmac) then finish s (s.regs.setS d (g.candidate s.hmac).toNat)
      else .next (s.redraw (.ecGenk d a b) g) := by
  rw [exec, execEcGenk, hseq]
  exact apply_ite _ _ _ _

/-- Settles O37: the generator is on its way from the seed, so the candidate it accepts is the result. -/
theorem nonceDerivation : Obligations.NonceDerivation := by
  refine fun s d a b g h hr hseq => ⟨commandWord_of_pack rfl, fun hc => ?accepted, fun hc => ?rejected⟩
  case accepted =>
    have ha := (acceptable_iff _).2 hc
    rw [exec_ecGenk_of_gen hseq, if_pos ha]
    obtain ⟨t, he, hv, honly, hcomp⟩ := finish_setS s d hc.2
    replace hv := BitVec.eq_of_toNat_eq hv
    refine ⟨t, he, hv, ?_, honly, hcomp⟩
    obtain ⟨j, -, hsrc, hjseq, -, hj⟩ := h.coherent.job_coherent hr
    obtain ⟨g', hg', hreach⟩ := hj.ecGenk
    obtain rfl : g' = g := Sequencer.gen.inj (hg'.symm.trans (hjseq.symm.trans hseq))
    rw [hsrc, hv]
    exact hreach.result ha
  case rejected =>
    rw [exec_ecGenk_of_gen hseq, if_neg (mt (acceptable_iff _).1 hc)]
    exact h.coherent.redraw_next hr g

end Sys2Proof.Machine
end

section
/-! PROOFS. The signature operations, signing, and what a signature holds: 43_ecdsa.md R245 to R248, R252 to R259. -/

namespace Sys2Proof.Machine

open Sys2Proof.Config (n)

/-! ### The signature operations -/

theorem finish_setSig (s : State) (g : Sig) :
    ∃ t, finish s (s.regs.setSig g) = .next t ∧ t.regs.sig = g ∧ OnlySig s t ∧ Completed s t true false false := by
  obtain ⟨t, he, hregs, hc⟩ := finish_next s (s.regs.setSig g)
  exact ⟨t, he, by rw [hregs, Regs.setSig_sig], onlySig_set hregs, hc⟩

theorem normalize_of_low {g : Sig} (h : g.s.toNat ≤ n / 2) : normalize g = g := by
  rw [normalize, halfN_eq, if_neg h.not_gt]

theorem normalize_of_high {g : Sig} (h : n / 2 < g.s.toNat) :
    normalize g = { g with s := .ofNat 256 (n - g.s.toNat), v := g.v ^^^ 1 } := by
  rw [normalize, halfN_eq, if_pos h]

theorem normalize_r (g : Sig) : (normalize g).r = g.r := by
  unfold normalize
  split <;> rfl

theorem toNat_normalize_s_of_high {g : Sig} (h : n / 2 < g.s.toNat) : (normalize g).s.toNat = n - g.s.toNat := by
  rw [normalize_of_high h, BitVec.toNat_ofNat, Nat.mod_eq_of_lt ((Nat.sub_le _ _).trans_lt n_lt)]

/-- `is_valid` is the two range checks (43_ecdsa.md R252). -/
theorem isValid_eq (g : Sig) :
    isValid g = decide (0 < g.r.toNat ∧ g.r.toNat < n ∧ 0 < g.s.toNat ∧ g.s.toNat < n) := by
  simp only [isValid, Bool.decide_and, Bool.and_assoc]

/-- Settles O43: by the two cases of `normalize`, and the range checks as they stand. -/
theorem signatureOperations : Obligations.SignatureOperations := by
  refine fun s => ⟨fun a b c => ⟨commandWord_of_pack rfl, ?load⟩, ⟨commandWord_of_pack rfl, fun _ => ?norm⟩,
    commandWord_of_pack rfl, ?valid⟩
  case load =>
    obtain ⟨t, he, hsig, hend⟩ := finish_setSig s { r := s.src.s[a], s := s.src.s[b], v := s.src.raw[c].setWidth 8 }
    refine ⟨t, he, ?_, ?_, ?_, hend⟩ <;> rw [hsig]
    exact BitVec.toNat_setWidth 8 _
  case norm =>
    obtain ⟨t, he, hsig, hend⟩ := finish_setSig s (normalize s.src.sig)
    refine ⟨t, he, ?_, fun hlow => ?_, fun hhigh => ⟨?_, ?_⟩, hend⟩ <;> rw [hsig]
    · exact normalize_r _
    · exact normalize_of_low hlow
    · exact toNat_normalize_s_of_high hhigh
    · rw [normalize_of_high hhigh]
  case valid =>
    rw [← isValid_eq]
    exact finishCond_next s _

/-! ### Recovery values -/

/-- A command that writes VOUT modulo `2^w`, with OVF where the exact value does not fit (10_state.md R47). -/
theorem finishOvf_setVout (s : State) {w : Nat} (hw : w ≤ 64) (v : Nat) (ovf : Bool) :
    ∃ t, finishOvf s (s.regs.setVout (v % 2 ^ w)) ovf = .next t ∧ t.regs.vout.toNat = v % 2 ^ w ∧ OnlyVout s t ∧
      Completed s t true false ovf := by
  obtain ⟨t, he, hregs, hc⟩ := finishOvf_next s (s.regs.setVout (v % 2 ^ w)) ovf
  refine ⟨t, he, ?_, onlyVout_set hregs, hc⟩
  rw [hregs, Regs.setVout_vout, BitVec.toNat_ofNat, Nat.mod_mod_of_dvd' (pow_dvd_pow 2 hw)]

/-- Settles O44: both values are at most 64 bits wide. -/
theorem recoveryValues : Obligations.RecoveryValues := fun s =>
  ⟨⟨commandWord_of_pack rfl, finishOvf_setVout s (w := 8) (by decide) _ _⟩,
    fun _ => ⟨commandWord_of_pack rfl, finishOvf_setVout s (w := 64) le_rfl _ _⟩⟩

/-! ### Signing -/

/-- `k · s = e` for `s = k^-1 · e` (43_ecdsa.md R245). -/
theorem mul_mulN_of_inverse {k ki : Nat} (h : mulN k ki = 1) (e : Nat) : k * mulN ki e % n = e % n := by
  have h1 : k * ki % n = 1 := h
  rw [mulN, mulMod, Nat.mul_mod_mod, ← mul_assoc, ← Nat.mod_mul_mod, h1, one_mul]

/-- `s = k^-1 · e` is 0 exactly where `e` is (43_ecdsa.md R245). -/
theorem mulN_eq_zero_iff_of_inverse {k ki : Nat} (h : mulN k ki = 1) (e : Nat) : mulN ki e = 0 ↔ e % n = 0 := by
  constructor
  · intro h0
    rw [← mul_mulN_of_inverse h e, h0, mul_zero, Nat.zero_mod]
  · intro h0
    rw [mulN, mulMod, ← Nat.mul_mod_mod, h0, mul_zero, Nat.zero_mod]

/-- Steps 2 to 6 of `sign` with a nonce that has an inverse: `s0` is the `s` before normalization (43_ecdsa.md R245). -/
theorem signWith_aff {k : Nat} (h0 : k ≠ 0) (hk : k < n) (x z rx ry : Nat) :
    ∃ s0 < n, k * s0 % n = (z + rx % n * x) % n ∧ (s0 = 0 ↔ (z + rx % n * x) % n = 0) ∧
      signWith x z k (.aff rx ry) =
        if rx % n = 0 then none
        else if s0 = 0 then none
        else some (normalize { r := .ofNat 256 (rx % n), s := .ofNat 256 s0, v := .ofNat 8 (ry % 2) }) := by
  obtain ⟨ki, hinv, -, hki⟩ := invN_spec h0 hk
  have he : addN z (mulN (rx % n) x) % n = (z + rx % n * x) % n := by
    rw [addN, addMod, mulN, mulMod, Nat.mod_mod, Nat.add_mod_mod]
  refine ⟨mulN ki (addN z (mulN (rx % n) x)), mulN_lt _ _, ?_, ?_, ?_⟩
  · rw [mul_mulN_of_inverse hki, he]
  · rw [mulN_eq_zero_iff_of_inverse hki, he]
  · simp only [signWith, forced_eq, hinv]

theorem toNat_xor_one_of_parity (y : Nat) : ((BitVec.ofNat 8 (y % 2) : BitVec 8) ^^^ 1).toNat = 1 - y % 2 := by
  rcases Nat.mod_two_eq_zero_or_one y with h | h <;> rw [h] <;> rfl

/-- `sign` after `R` meets the equations of R245 and R253; only a nonzero nonce gives an affine `R`. -/
theorem signatureOf_signWith {x z k : Nat} {R : Point} (hk : k < n) (hR : k = 0 → R = .inf) :
    SignatureOf x z k R (signWith x z k R) := by
  refine ⟨?identity, ?affine⟩
  case identity =>
    rintro rfl
    rfl
  case affine =>
    rintro x1 y1 rfl
    obtain ⟨s0, hlt, hmul, hzero, hsign⟩ := signWith_aff (mt hR nofun) hk x z x1 y1
    rw [hsign, ← hzero]
    refine ⟨?none, fun hne => ?some⟩
    case none =>
      rintro (hr | hs)
      · rw [if_pos hr]
      · rw [if_pos hs, ite_self]
    case some =>
      obtain ⟨hr, hs⟩ := not_or.1 hne
      rw [if_neg hr, if_neg hs]
      have toNat256 {v : Nat} (hv : v < n) : (BitVec.ofNat 256 v).toNat = v := Nat.mod_eq_of_lt (hv.trans n_lt)
      refine ⟨s0, _, rfl, hlt, hmul, ?_, fun hlow => ?_, fun hhigh => ?_⟩
      · rw [normalize_r]
        exact toNat256 (Nat.mod_lt _ n_pos)
      · rw [normalize_of_low (by rwa [toNat256 hlt])]
        exact ⟨toNat256 hlt, Nat.mod_eq_of_lt (by omega)⟩
      · rw [← toNat256 hlt] at hhigh
        rw [toNat_normalize_s_of_high hhigh, normalize_of_high hhigh, toNat256 hlt]
        exact ⟨rfl, toNat_xor_one_of_parity y1⟩

/-- `sign` of a nonce below `n` (43_ecdsa.md R245): the nonce 0 gives the identity. -/
theorem signatureOf_sign {x z k : Nat} (hk : k < n) : SignatureOf x z k (ptSmul generator k) (sign x z k) := by
  refine signatureOf_signWith hk ?_
  rintro rfl
  have := fact_prime_p
  exact ptSmul_zero generator_legal generator_onCurve

/-- The end of a signing command (43_ecdsa.md R246, R248). -/
theorem finishOption_setSig (s : State) (res : Option Sig) :
    ∃ t, finishOption s res s.regs.setSig = .next t ∧
      (res = none → t.regs = s.regs ∧ Completed s t false false false) ∧
      ∀ g, res = some g → t.regs.sig = g ∧ OnlySig s t ∧ Completed s t true false false := by
  cases res with
  | none =>
    obtain ⟨t, he, hend⟩ := finishOption_none s s.regs.setSig
    exact ⟨t, he, fun _ => hend, nofun⟩
  | some g =>
    obtain ⟨t, he, hregs, hc⟩ := finishOption_some s g s.regs.setSig
    refine ⟨t, he, nofun, ?_⟩
    rintro _ ⟨⟩
    exact ⟨by rw [hregs, Regs.setSig_sig], onlySig_set hregs, hc⟩

section

variable {s : State} (h : s.Inv)
include h

theorem State.Inv.src_s_lt {i : Instr} (hr : s.Running i) (a : SReg) : s.src.sAt a < n := by
  rw [h.src_eq hr]
  exact h.legal.s_lt a

/-- EC_SIGN in flight is `sign` of its sources, wherever its loop stands (43_ecdsa.md R246). -/
theorem State.Inv.exec_ecSign {a b c : SReg} (hr : s.Running (.ecSign a b c)) :
    Machine.exec (.ecSign a b c) s =
      finishOption s (sign (s.src.sAt a) (s.src.sAt b) (s.src.sAt c)) s.regs.setSig := by
  obtain ⟨j, -, hsrc, hseq, -, hj⟩ := h.coherent.job_coherent hr
  rw [sign, hsrc, ← hj.ecSign, ← hsrc, ← hseq]
  rfl

/-- EC_SIGNH in flight whose next candidate, if it still draws one, is accepted: `sign` with the nonce `generate_k` gives
(43_ecdsa.md R247, R248). -/
theorem State.Inv.exec_ecSignh {a : SReg} {b : RReg} (hr : s.Running (.ecSignh a b))
    (hacc : ∀ g, s.seq = .gen g → acceptable (g.candidate s.hmac) = true) :
    ∃ k fuel, generateK s.hmac fuel s.src.s[a] (s.src.rawAt b) = some k ∧
      Machine.exec (.ecSignh a b) s =
        finishOption s (sign (s.src.sAt a) (s.src.rawAt b % n) k.toNat) s.regs.setSig := by
  obtain ⟨j, -, hsrc, hseq, -, hj⟩ := h.coherent.job_coherent hr
  rw [hsrc]
  rcases hj.ecSignh with ⟨g, hg, hreach⟩ | ⟨k, ⟨fuel, hk⟩, acc, addend, bit, hq, hprod⟩
  · have ha := hacc g (hseq.trans hg)
    obtain ⟨fuel, hfuel⟩ := hreach.result ha
    refine ⟨_, fuel, hfuel, ?_⟩
    rw [Machine.exec, execEcSignh, hseq, hg, ← hsrc]
    exact congrArg Host.Outcome.next (if_pos ha)
  · refine ⟨k, fuel, hk, ?_⟩
    rw [sign, ← hprod, Machine.exec, execEcSignh, hseq, hq, ← hsrc]
    rfl

end

/-- EC_SIGNH at a generator whose candidate is rejected draws again (43_ecdsa.md R243). -/
theorem exec_ecSignh_of_rejected {s : State} {g : Generator} (hseq : s.seq = .gen g)
    (hrej : ¬acceptable (g.candidate s.hmac) = true) (a : SReg) (b : RReg) :
    exec (.ecSignh a b) s = .next (s.redraw (.ecSignh a b) g) := by
  rw [exec, execEcSignh, hseq]
  exact congrArg Host.Outcome.next (if_neg hrej)

/-- Settles O40: the nonce register holds a scalar, so `sign` meets its equations. -/
theorem signingWithNonce : Obligations.SigningWithNonce := by
  refine fun s a b c h hr => ⟨commandWord_of_pack rfl, ?_⟩
  obtain ⟨t, he, hend⟩ := finishOption_setSig s (sign (s.src.sAt a) (s.src.sAt b) (s.src.sAt c))
  exact ⟨t, _, (h.exec_ecSign hr).trans he, signatureOf_sign (h.src_s_lt hr c), hend⟩

/-- Settles O41: a nonce that `generate_k` gives is a scalar. -/
theorem signingADigest : Obligations.SigningADigest := by
  refine fun s a b h hr => ⟨commandWord_of_pack rfl, fun hacc => ?signed, fun g hseq hrej => ?rejected⟩
  case signed =>
    obtain ⟨k, fuel, hk, he⟩ := h.exec_ecSignh hr fun g hg => (acceptable_iff _).2 (hacc g hg)
    obtain ⟨t, he', hend⟩ := finishOption_setSig s (sign (s.src.sAt a) (s.src.rawAt b % n) k.toNat)
    exact ⟨t, _, k, fuel, he.trans he', hk, signatureOf_sign (generateK_range hk).2, hend⟩
  case rejected =>
    rw [exec_ecSignh_of_rejected hseq (mt (acceptable_iff _).1 hrej)]
    exact h.coherent.redraw_next hr g

/-! ### What a signature holds -/

/-- What the equations of R245 and R253 say of a signature that is not `None`. -/
theorem SignatureOf.of_some {x z k : Nat} {R : Point} {g : Sig} (h : SignatureOf x z k R (some g)) :
    ∃ x1 y1 s0, R = .aff x1 y1 ∧ g.r.toNat = x1 % n ∧ x1 % n ≠ 0 ∧ s0 ≠ 0 ∧ s0 < n ∧
      k * s0 % n = (z + g.r.toNat * x) % n ∧
      (s0 ≤ n / 2 ∧ g.s.toNat = s0 ∧ g.v.toNat = y1 % 2 ∨
        n / 2 < s0 ∧ g.s.toNat = n - s0 ∧ g.v.toNat = 1 - y1 % 2) := by
  obtain ⟨hinf, haff⟩ := h
  cases R with
  | inf => exact absurd (hinf rfl) nofun
  | aff x1 y1 =>
    obtain ⟨hnone, hsome⟩ := haff x1 y1 rfl
    have hne := mt hnone nofun
    obtain ⟨s0, _, ⟨⟩, hlt, hmul, hr, hlow, hhigh⟩ := hsome hne
    obtain ⟨hr0, he0⟩ := not_or.1 hne
    refine ⟨x1, y1, s0, rfl, hr, hr0, ?_, hlt, by rw [hmul, hr], ?_⟩
    · rintro rfl
      exact he0 (by rw [← hmul, mul_zero, Nat.zero_mod])
    · rcases le_or_gt s0 (n / 2) with hs | hs
      · exact .inl ⟨hs, hlow hs⟩
      · exact .inr ⟨hs, hhigh hs⟩

/-- A signature is in range and low-s, and its `v` is a bit (43_ecdsa.md R259). -/
theorem SignatureOf.lowS {x z k : Nat} {R : Point} {g : Sig} (h : SignatureOf x z k R (some g)) :
    0 < g.r.toNat ∧ g.r.toNat < n ∧ 0 < g.s.toNat ∧ g.s.toNat ≤ n / 2 ∧ (g.v = 0 ∨ g.v = 1) := by
  obtain ⟨x1, y1, s0, -, hr, hr0, hs0, hlt, -, hs⟩ := h.of_some
  have hodd : n % 2 = 1 := by decide
  have hv : g.v.toNat = 0 ∨ g.v.toNat = 1 := by omega
  refine ⟨by omega, hr ▸ Nat.mod_lt _ n_pos, by omega, by omega, ?_⟩
  exact hv.imp BitVec.eq_of_toNat_eq BitVec.eq_of_toNat_eq

/-- A signing command that ends with OK = 1 has written the signature its result is. -/
theorem sig_of_ok {s t : State} {res : Option Sig} (hok : t.status.ok = true)
    (hnone : res = none → t.regs = s.regs ∧ Completed s t false false false)
    (hsome : ∀ g, res = some g → t.regs.sig = g ∧ OnlySig s t ∧ Completed s t true false false) :
    res = some t.regs.sig := by
  cases res with
  | none =>
    obtain ⟨-, hc⟩ := hnone rfl
    rw [hc.status] at hok
    cases hok
  | some g => rw [(hsome g rfl).1]

/-- A command in flight shows OK = 0 (60_exceptions.md R301). -/
theorem State.Coherent.ok_of_running {s : State} (h : s.Coherent) {i : Instr} (hr : s.Running i) : s.status.ok = false := by
  obtain ⟨j, hj, -⟩ := hr
  obtain ⟨-, hok, -⟩ := h.flags_clear j hj
  exact hok

/-- EC_SIGN that ends with OK = 1 leaves in SIG a signature by the equations of R245. -/
theorem signatureOf_of_ecSign {s t : State} {a b c : SReg} (h : s.Inv) (hr : s.Running (.ecSign a b c))
    (he : exec (.ecSign a b c) s = .next t) (hok : t.status.ok = true) :
    SignatureOf (s.src.sAt a) (s.src.sAt b) (s.src.sAt c) (ptSmul generator (s.src.sAt c)) (some t.regs.sig) := by
  obtain ⟨-, t', res, he', hsig, hnone, hsome⟩ := signingWithNonce s a b c h hr
  obtain rfl := Host.Outcome.next.inj (he'.symm.trans he)
  rw [← sig_of_ok hok hnone hsome]
  exact hsig

/-- EC_SIGNH that ends with OK = 1 leaves in SIG a signature by the equations of R245; a redraw has OK = 0. -/
theorem signatureOf_of_ecSignh {s t : State} {a : SReg} {b : RReg} (h : s.Inv) (hr : s.Running (.ecSignh a b))
    (he : exec (.ecSignh a b) s = .next t) (hok : t.status.ok = true) :
    ∃ k, SignatureOf (s.src.sAt a) (s.src.rawAt b % n) k (ptSmul generator k) (some t.regs.sig) := by
  obtain ⟨-, hsigned, hrejected⟩ := signingADigest s a b h hr
  have hacc : ∀ g, s.seq = .gen g → 0 < (g.candidate s.hmac).toNat ∧ (g.candidate s.hmac).toNat < n := by
    intro g hseq
    by_contra hrej
    obtain ⟨t', he', -, hstatus, -⟩ := hrejected g hseq hrej
    obtain rfl := Host.Outcome.next.inj (he'.symm.trans he)
    rw [hstatus, h.coherent.ok_of_running hr] at hok
    cases hok
  obtain ⟨t', res, k, fuel, he', -, hsig, hnone, hsome⟩ := hsigned hacc
  obtain rfl := Host.Outcome.next.inj (he'.symm.trans he)
  rw [← sig_of_ok hok hnone hsome]
  exact ⟨k.toNat, hsig⟩

/-- Settles O45: both commands leave a signature by the equations of R245 and R253. -/
theorem signedIsLowS : Obligations.SignedIsLowS := by
  rintro s t i h hr (⟨a, b, c, rfl⟩ | ⟨a, b, rfl⟩) he hok
  · exact (signatureOf_of_ecSign h hr he hok).lowS
  · obtain ⟨k, hsig⟩ := signatureOf_of_ecSignh h hr he hok
    exact hsig.lowS

end Sys2Proof.Machine
end

section
/-! PROOFS. Verification, and that a signature verifies under its public key: 43_ecdsa.md R245 to R250. -/

namespace Sys2Proof.Machine

open Sys2Proof.Config (n p)

/-! ### Verification -/

theorem isValid_iff (g : Sig) :
    isValid g = true ↔ 0 < g.r.toNat ∧ g.r.toNat < n ∧ 0 < g.s.toNat ∧ g.s.toNat < n := by
  rw [isValid_eq, decide_eq_true_iff]

theorem verifyScalars_of_invalid {q : Point} {z : Nat} {g : Sig} (h : ¬(isValid g = true ∧ q ≠ .inf)) :
    verifyScalars q z g = none := by
  unfold verifyScalars
  by_cases hv : isValid g = true
  · have hq : q = .inf := not_not.1 fun hq => h ⟨hv, hq⟩
    rw [hv, if_pos hq, ite_self]
  · rw [Bool.eq_false_iff.2 hv]
    rfl

/-- The two multipliers, by the inverse of `s` (43_ecdsa.md R249). -/
theorem verifyScalars_of_valid {q : Point} {g : Sig} {si : Nat} (z : Nat) (hv : isValid g = true) (hq : q ≠ .inf)
    (hsi : si < n) (h : g.s.toNat * si % n = 1) :
    verifyScalars q z g = some (z * si % n, g.r.toNat * si % n) := by
  obtain ⟨-, -, hs0, hs⟩ := (isValid_iff g).1 hv
  obtain ⟨y, hy, hlt, hmul⟩ := invN_spec hs0.ne' hs
  obtain rfl : y = si := inverse_unique hlt hsi hmul h
  rw [verifyScalars, hv, if_neg hq, hy]
  rfl

theorem verifyEnd_iff (g : Sig) (R : Point) : verifyEnd g R = true ↔ ∃ x y, R = .aff x y ∧ x % n = g.r.toNat := by
  cases R with
  | inf => exact ⟨nofun, nofun⟩
  | aff x y =>
    rw [verifyEnd, beq_iff_eq]
    exact ⟨fun h => ⟨x, y, rfl, h⟩, fun ⟨_, _, he, h⟩ => by cases he; exact h⟩

/-- `verify` is its equations; the inverse of `s` is the only one (43_ecdsa.md R249). -/
theorem verify_iff (q : Point) (z : Nat) (g : Sig) : verify q z g = true ↔ Verifies q z g := by
  by_cases h : isValid g = true ∧ q ≠ .inf
  · obtain ⟨hv, hq⟩ := h
    have ⟨hr0, hr, hs0, hs⟩ := (isValid_iff g).1 hv
    have hend {si : Nat} (hsi : si < n) (hmul : g.s.toNat * si % n = 1) :
        verify q z g = true ↔ ∃ x y,
          ptAdd (ptSmul generator (z * si % n)) (ptSmul q (g.r.toNat * si % n)) = .aff x y ∧ x % n = g.r.toNat := by
      rw [verify, verifyScalars_of_valid z hv hq hsi hmul]
      exact verifyEnd_iff g _
    constructor
    · intro hver
      obtain ⟨si, -, hsi, hmul⟩ := invN_spec hs0.ne' hs
      obtain ⟨x, y, hsum, hx⟩ := (hend hsi hmul).1 hver
      exact ⟨hr0, hr, hs0, hs, hq, si, x, y, hsi, hmul, hsum, hx⟩
    · rintro ⟨-, -, -, -, -, si, x, y, hsi, hmul, hsum, hx⟩
      exact (hend hsi hmul).2 ⟨x, y, hsum, hx⟩
  · rw [verify, verifyScalars_of_invalid h]
    refine ⟨nofun, ?_⟩
    rintro ⟨hr0, hr, hs0, hs, hq, -⟩
    exact absurd ⟨(isValid_iff g).2 ⟨hr0, hr, hs0, hs⟩, hq⟩ h

/-- EC_VERIFY in flight is `verify` of its sources, wherever its loops stand (43_ecdsa.md R250). -/
theorem State.Inv.exec_ecVerify {s : State} (h : s.Inv) {a : PReg} {b : SReg} (hr : s.Running (.ecVerify a b)) :
    Machine.exec (.ecVerify a b) s = finishCond s (verify (s.src.pAt a) (s.src.sAt b) s.src.sig) := by
  obtain ⟨j, -, hsrc, hseq, -, hj⟩ := h.coherent.job_coherent hr
  rw [Machine.exec, execEcVerify, verify]
  cases hv : verifyScalars (s.src.pAt a) (s.src.sAt b) s.src.sig with
  | none => rfl
  | some u =>
    obtain ⟨u1, u2⟩ := u
    rw [hsrc] at hv ⊢
    rw [hseq]
    exact congrArg (fun R => finishCond s (verifyEnd j.snap.sig R)) (hj.ecVerify hv)

/-- Settles O42: the completing step answers `verify`. -/
theorem verification : Obligations.Verification := by
  refine fun s a b h hr => ⟨commandWord_of_pack rfl, ?_⟩
  obtain ⟨t, he, hregs, hc⟩ := finishCond_next s (verify (s.src.pAt a) (s.src.sAt b) s.src.sig)
  exact ⟨t, _, (h.exec_ecVerify hr).trans he, hregs, hc, verify_iff _ _ _⟩

/-! ### Multiples of G and their reflections -/

/-- The reflection of a point on the curve is its negative (42_point.md R215). -/
theorem toGroup_reflection [Fact (Nat.Prime p)] {x y : Nat} (h : (Point.aff x y).onCurve = true) :
    toGroup (.aff x (subP 0 y)) = -toGroup (.aff x y) ∧ (Point.aff x (subP 0 y)).onCurve = true := by
  rw [toGroup_aff (nonsingular_of_onCurve h), WeierstrassCurve.Affine.Point.neg_some]
  exact toGroup_eq_some _ rfl (by rw [curve_negY, cast_subP, Nat.cast_zero, zero_sub])

/-- A point that is an affine point or its negative in the group has its x-coordinate. -/
theorem exists_eq_aff_of_toGroup_eq_or_neg [Fact (Nat.Prime p)] {x y : Nat} {b : Point} (ha : (Point.aff x y).Legal)
    (ca : (Point.aff x y).onCurve = true) (hb : b.Legal) (cb : b.onCurve = true)
    (h : toGroup b = toGroup (.aff x y) ∨ toGroup b = -toGroup (.aff x y)) : ∃ y', b = .aff x y' := by
  rcases h with h | h
  · exact ⟨y, toGroup_injective hb ha cb ca h⟩
  · obtain ⟨hneg, cneg⟩ := toGroup_reflection ca
    exact ⟨subP 0 y, toGroup_injective hb ⟨ha.1, subP_lt _ _⟩ cb cneg (h.trans hneg.symm)⟩

/-- Multiples of `G` by opposite multipliers modulo `n` are opposite (00_scope.md R10). -/
theorem nsmul_generator_eq_neg [Fact (Nat.Prime p)] {j k : Nat} (h : (j : ZMod n) = -k) :
    j • toGroup generator = -(k • toGroup generator) := by
  rw [eq_neg_iff_add_eq_zero, ← add_nsmul, nsmul_generator_eq_zero_iff, ← ZMod.natCast_eq_zero_iff, Nat.cast_add, h,
    neg_add_cancel]

/-- Multiples of `G` by one multiplier modulo `n` are one (00_scope.md R10). -/
theorem nsmul_generator_eq [Fact (Nat.Prime p)] {j k : Nat} (h : (j : ZMod n) = k) :
    j • toGroup generator = k • toGroup generator := by
  rw [nsmul_eq_mod_nsmul j order_nsmul_generator, nsmul_eq_mod_nsmul k order_nsmul_generator,
    (ZMod.natCast_eq_natCast_iff' j k n).1 h]

/-! ### A signature verifies -/

/-- `z · s^-1 + r · s^-1 · x` is `k` or `-k`: normalization may have negated `s` (43_ecdsa.md R245, R249, R253). -/
theorem verify_multiplier {x z k r s s0 si : Nat} (hmul : k * s0 % n = (z + r * x) % n) (hsi : s * si % n = 1)
    (hs : s = s0 ∨ s + s0 = n) :
    ((z * si % n + r * si % n * x : Nat) : ZMod n) = k ∨ ((z * si % n + r * si % n * x : Nat) : ZMod n) = -k := by
  have hmul' : (k * s0 : ZMod n) = z + r * x := by exact_mod_cast (ZMod.natCast_eq_natCast_iff' _ _ n).2 hmul
  have hsi' : (s * si : ZMod n) = 1 := by
    exact_mod_cast (ZMod.natCast_eq_natCast_iff' (s * si) 1 n).2 (hsi.trans (Nat.mod_eq_of_lt prime_n.one_lt).symm)
  push_cast [ZMod.natCast_mod]
  rcases hs with rfl | hs
  · left
    linear_combination -(si : ZMod n) * hmul' + k * hsi'
  · right
    have hs' : (s + s0 : ZMod n) = 0 := by rw [← Nat.cast_add, hs, ZMod.natCast_self]
    linear_combination -(si : ZMod n) * hmul' - k * hsi' + k * si * hs'

/-- `u1 · G + u2 · (x · G)`, the sum of R249, in the group. -/
theorem verifySum_generator [Fact (Nat.Prime p)] {x u1 u2 : Nat} (hx : x < 2 ^ 256) (h1 : u1 < 2 ^ 256) (h2 : u2 < 2 ^ 256) :
    let sum := ptAdd (ptSmul generator u1) (ptSmul (ptSmul generator x) u2)
    toGroup sum = (u1 + u2 * x) • toGroup generator ∧ sum.Legal ∧ sum.onCurve = true := by
  intro sum
  obtain ⟨e1, c1⟩ := toGroup_ptSmul generator_legal generator_onCurve h1
  obtain ⟨ex, cx⟩ := toGroup_ptSmul generator_legal generator_onCurve hx
  have lx := ptSmul_legal generator_legal x
  obtain ⟨e2, c2⟩ := toGroup_ptSmul lx cx h2
  have l1 := ptSmul_legal generator_legal u1
  have l2 := ptSmul_legal lx u2
  obtain ⟨e, c⟩ := toGroup_ptAdd l1 l2 c1 c2
  refine ⟨?_, ptAdd_legal l1 l2, c⟩
  rw [e, e1, e2, ex, add_nsmul, mul_nsmul']

/-- A signature by the equations of R245 verifies under `x · G` by those of R249: the sum of R249 is `R` or its reflection. -/
theorem SignatureOf.verifies {x z k : Nat} {g : Sig} (hx0 : 0 < x) (hx : x < n) (hk : k < 2 ^ 256)
    (h : SignatureOf x z k (ptSmul generator k) (some g)) : Verifies (ptSmul generator x) z g := by
  have := fact_prime_p
  obtain ⟨hr0, hr, hs0, hs, -⟩ := h.lowS
  replace hs : g.s.toNat < n := hs.trans_lt (Nat.div_lt_self n_pos (by decide))
  obtain ⟨x1, y1, s0, hR, hrx, -, -, hlt, hmul, hnorm⟩ := h.of_some
  obtain ⟨si, -, hsi, hinv⟩ := invN_spec hs0.ne' hs
  have hQ : ptSmul generator x ≠ .inf := fun hinf =>
    (Nat.not_dvd_of_pos_of_lt hx0 hx) ((ptSmul_generator_eq_inf_iff (hx.trans n_lt)).1 hinf)
  have below (v : Nat) : v % n < 2 ^ 256 := (Nat.mod_lt v n_pos).trans n_lt
  obtain ⟨hsum, lsum, csum⟩ := verifySum_generator (hx.trans n_lt) (below (z * si)) (below (g.r.toNat * si))
  obtain ⟨hkG, ckG⟩ := toGroup_ptSmul generator_legal generator_onCurve hk
  have lkG := ptSmul_legal generator_legal k
  rw [hR] at hkG ckG lkG
  have hcases := verify_multiplier hmul hinv (hnorm.imp (fun e => e.2.1) fun e => by omega)
  obtain ⟨y, hy⟩ := exists_eq_aff_of_toGroup_eq_or_neg lkG ckG lsum csum <| by
    rw [hsum, hkG]
    exact hcases.imp nsmul_generator_eq nsmul_generator_eq_neg
  exact ⟨hr0, hr, hs0, hs, hQ, si, x1, y, hsi, hinv, hy, hrx.symm⟩

/-- Settles O46: EC_SIGN leaves a signature by the equations of R245, and EC_VERIFY answers those of R249. -/
theorem signThenVerify : Obligations.SignThenVerify := by
  intro s t a b c h hr hx0 he hok u q e hu hru hsig hz hq
  have hs := signatureOf_of_ecSign h hr he hok
  have hver := hs.verifies hx0 (h.src_s_lt hr a) (BitVec.isLt _)
  obtain ⟨-, w, cond, hw, -, hc, hiff⟩ := verification u q e hu hru
  refine ⟨w, hw, ?_⟩
  rw [hc.status]
  rw [hq, hz, hsig] at hiff
  exact hiff.2 hver

end Sys2Proof.Machine
end

section
/-! PROOFS. NOP: 44_control.md R290, with the step of a command word placed for it (60_exceptions.md R301, R305). -/

namespace Sys2Proof.Machine

/-! ### The only word of NOP -/

/-- A word decodes to a command that is encoded by `v` iff it is `v`. -/
theorem decode_eq_ok_iff {i : Instr} {w v : Word} (h : decode v = .ok i) : decode w = .ok i ↔ w = v :=
  ⟨fun hw => (encode_of_decode hw).symm.trans (encode_of_decode h), fun hw => hw ▸ h⟩

theorem decode_zero : decode 0 = .ok .nop := rfl

/-- No other word has NOP's opcode: NOP uses no field, so the fields of another word are not all clear (30_encoding.md R115). -/
theorem decode_eq_reservedField_of_opField_zero {w : Word} (hop : opField w = 0) (hw : w ≠ 0) :
    decode w = .error .reservedField := by
  have he : opcodeEntry (opField w) = some ⟨none, none, none, none, fun _ _ _ _ => .nop⟩ := by rw [hop]; rfl
  refine decode_of_reserved he fun ⟨hresv, hu⟩ => hw ?_
  exact (decode_eq_ok_iff decode_zero).1 (decode_of he hresv hu rfl)

/-! ### The step of a word placed for it -/

theorem commandWord_toNat (w : Word) : commandWord 32 w.toNat = w := by
  rw [commandWord, Nat.mod_eq_of_lt w.isLt, BitVec.ofNat_toNat, BitVec.setWidth_eq]

theorem State.submit_of_decode (s : State) {w : Word} {i : Instr} (h : decode w = .ok i) : s.submit w = s.accept w i := by
  rw [submit, h]

theorem State.completeTurn_of_job {s : State} {j : Job} {i : Instr} (hj : s.job = some j) (hd : decode j.word = .ok i) :
    s.completeTurn = exec i s := by
  rw [completeTurn, hj]
  dsimp only
  rw [hd]

/-- A legal word placed for the step is accepted on the idle engine, and the step runs its command (log 19). -/
theorem step_withFetchWord (s : State) {w : Word} {i : Instr} (h : decode w = .ok i) :
    step (s.withFetchWord 32 w.toNat) =
      exec i (State.accept { s with job := none, status := { s.status with busy := false } } w i) := by
  rw [State.withFetchWord, commandWord_toNat, State.placeCommand, State.submit_of_decode _ h, step_of_turn rfl, State.move]
  exact State.completeTurn_of_job rfl h

/-! ### The command -/

theorem exec_nop_next (s : State) : ∃ t, exec .nop s = .next t ∧ t.regs = s.regs ∧ Completed s t true false false :=
  finish_next s s.regs

/-- Settles O24: the word by the decoder's checks, the effect by the end of a command, the example by the placed word's step. -/
theorem nopResult : Obligations.NopResult := by
  refine ⟨commandWord_of_pack rfl, fun w => decode_eq_ok_iff decode_zero, ?resv, ?dField, exec_nop_next, ?fromReset⟩
  case resv => exact decode_eq_reservedField_of_opField_zero (by decide) (by decide)
  case dField => exact decode_eq_reservedField_of_opField_zero (by decide) (by decide)
  case fromReset =>
    obtain ⟨t, he, -, hc⟩ := exec_nop_next _
    refine ⟨t, (step_withFetchWord State.reset decode_zero).trans he, ?_⟩
    rw [hc.status]
    rfl

end Sys2Proof.Machine
end

section
/-! PROOFS. Submission, rejection, the host's writes, the interrupt line, and that no step stops (60_exceptions.md R301, R302,
R305 to R307, R310, R312, R319; 20_memory.md R79, R81). -/

namespace Sys2Proof.Machine

/-! ### Submission -/

/-- A CMD write to an engine that is not BUSY is a submission (20_memory.md R79). -/
theorem hostWrite_cmd_of_idle {s : State} (hb : s.status.busy = false) (w : Word) : s.hostWrite 0x00C 4 w = s.submit w := by
  rw [hostWrite_cmd, State.writeCmd, hb]
  rfl

theorem State.submit_of_error (s : State) {w : Word} {e : CmdError} (h : decode w = .error e) : s.submit w = s.reject e := by
  rw [submit, h]

/-- Settles O8: the write is a submission, and a legal word is accepted. -/
theorem acceptanceOfALegalWord : Obligations.AcceptanceOfALegalWord := by
  intro s w i hb hd
  rw [hostWrite_cmd_of_idle hb, State.submit_of_decode s hd]
  rfl

/-- Settles O9: the write is a submission, and an illegal word is rejected, which leaves BUSY as it was. -/
theorem rejectionOfAnIllegalWord : Obligations.RejectionOfAnIllegalWord := by
  intro s w e hb hd
  rw [hostWrite_cmd_of_idle hb, State.submit_of_error s hd, State.reject, Status.rejected, hb]

/-! ### The step of a command in flight -/

/-- Without a schedule a command in flight completes (log 1). -/
theorem step_of_job {s : State} {j : Job} (ht : s.turns = []) (hj : s.job = some j) : step s = s.completeTurn := by
  rw [step, ht]
  dsimp only
  rw [State.defaultTurn, hj]
  rfl

/-- Settles O5: either way the engine's completing turn moves, and it runs the latched word. -/
theorem stepRunsTheAcceptedCommand : Obligations.StepRunsTheAcceptedCommand := by
  refine ⟨fun s j i hj hd => ⟨fun rest ht => ?scheduled, fun ht => ?default⟩, fun s w i hd => step_withFetchWord s hd⟩
  case scheduled =>
    rw [step_of_turn ht, State.move]
    exact State.completeTurn_of_job hj hd
  case default => rw [step_of_job ht hj, State.completeTurn_of_job hj hd]

/-! ### No step stops -/

/-- A completing turn stops only at a latched word that does not decode, and a coherent engine has none (log 16). -/
theorem State.Coherent.completeTurn_next {s : State} (h : s.Coherent) : ∃ t, s.completeTurn = .next t := by
  cases hj : s.job with
  | none => exact ⟨s, completeTurn_of_idle hj⟩
  | some j =>
    obtain ⟨i, hd, -⟩ := h.onItsWay j hj
    rw [completeTurn_of_job hj hd]
    exact exec_next i s

/-- Settles O54, by the agent that moves: only a completing turn could stop. -/
theorem noStepStops : Obligations.NoStepStops := by
  intro s h
  cases ht : s.turns with
  | nil =>
    cases hj : s.job with
    | none => exact ⟨_, step_of_idle ht hj⟩
    | some j => rw [step_of_job ht hj]; exact h.coherent.completeTurn_next
  | cons u rest =>
    have turned : ({ s with turns := rest } : State).Inv := h.congr rfl rfl rfl rfl rfl
    rw [step_of_turn ht]
    cases u with
    | complete => exact turned.coherent.completeTurn_next
    | host | engine | rst => exact ⟨_, rfl⟩

/-! ### Host writes -/

/-- Settles O12: the three control registers, RAW, and by what a host write can do, that no other offset is written. -/
theorem hostWriteEffects : Obligations.HostWriteEffects := by
  refine fun s w => ⟨?status, hostWrite_ctrl s w, hostWrite_cmd s w, fun i j => hostWrite_off s (g := .raw i j) nofun w,
    fun off _ hcontrol hraw => ?readOnly⟩
  case status => rw [hostWrite_status, Status.writeOneToClear_eq]
  case readOnly =>
    rcases hostWrite_cases s off 4 w with ⟨rfl, -⟩ | ⟨rfl, -⟩ | ⟨rfl, -⟩ | ⟨rfl, -⟩ | ⟨i, j, hoff, -⟩ | he
    iterate 4 exact absurd (by decide) hcontrol
    · exact absurd hoff (hraw i j)
    · exact he

/-! ### The interrupt line -/

/-- Bit 0 of the word read from CTRL is IE (10_state.md R50). -/
theorem getLsbD_zero_ofNat_toNat (b : Bool) : (BitVec.ofNat 32 b.toNat).getLsbD 0 = b := by cases b <;> rfl

/-- A host access raises DONE only by the rejection of a word (60_exceptions.md R306, R310). -/
theorem hostOp_done {s : State} {op : HostOp} (h0 : s.status.done = false) (h1 : (s.hostOp op).status.done = true) :
    ∃ w e, op = .write 0x00C 4 w ∧ s.status.busy = false ∧ decode w = .error e ∧ (s.hostOp op).status.err = some e := by
  have hne : (s.hostOp op).status.done ≠ s.status.done := by rw [h0, h1]; decide
  rcases hostOp_cases s op with ⟨_, _, _, st, he, hst⟩ | ⟨w, -, -, he⟩ | ⟨b, he⟩ | ⟨w, hop, hb, he⟩ |
    ⟨i, j, w, -, -, he⟩ <;> rw [he] at hne
  · rcases hst with rfl | rfl | ⟨w, rfl⟩
    · exact absurd rfl hne
    · exact absurd rfl hne
    · exact absurd (by rw [Status.writeOneToClear_done, h0, Bool.false_and]) hne
  · exact absurd h0.symm hne
  · exact absurd rfl hne
  · rcases submit_cases s w with ⟨i, -, hs⟩ | ⟨e, hd, hs⟩
    · rw [hs] at hne; exact absurd h0.symm hne
    · exact ⟨w, e, hop, hb, hd, by rw [he, hs]; rfl⟩
  · exact absurd rfl hne

/-- Settles O16: the two bits as read, and by the cases of a step, that only a completion or a rejected word raises DONE. -/
theorem interruptLine : Obligations.InterruptLine := by
  refine ⟨fun s => ?line, fun s t hstep h0 h1 => ?rise⟩
  case line =>
    rw [hostRead_status, hostRead_ctrl, State.returns_readData, State.returns_readData, Status.toWord_done,
      getLsbD_zero_ofNat_toNat, State.irq]
  case rise =>
    have hne : t.status.done ≠ s.status.done := by rw [h0, h1]; decide
    obtain ⟨-, -, hcases⟩ := step_cases s t hstep
    rcases hcases with ⟨hm, op, ops, hq, tt, rfl⟩ | ⟨tt, rfl⟩ | ⟨m, tt, j, i, -, -, rfl⟩ | ⟨-, tt, rfl⟩ |
      ⟨hm, tt, j, i, hj, -, he⟩
    · obtain ⟨w, e, rfl, hb, hd, herr⟩ := hostOp_done (s := { s with turns := tt, hostQueue := ops }) h0 h1
      exact .inr ⟨w, e, State.access_of_cons hm hq, hb, hd, herr⟩
    · exact absurd rfl hne
    · exact absurd rfl hne
    · exact absurd h0.symm hne
    · rcases exec_next_cases he with ⟨r, ok, cond, ovf, rfl, -⟩ | ⟨g, rfl⟩
      · exact .inl ⟨hm, hj ▸ rfl, rfl⟩
      · exact absurd rfl hne

end Sys2Proof.Machine
end

section
/-! PROOFS. Reset, and the ends a command left alone comes to: it completes, or its candidate loop runs on
(70_reset_and_hazards.md R340 to R344, R353; 43_ecdsa.md R242 to R244). -/

namespace Sys2Proof.Machine

/-! ### Reset -/

/-- Settles O22: the four control registers of the reset state as a host reads them. -/
theorem resetIsIdle : Obligations.ResetIsIdle := by
  refine ⟨?id, ?status, ?ctrl, ?cmd, rfl, rfl⟩
  case id => rw [hostRead_id, State.returns_readData]
  case status => rw [hostRead_status, State.returns_readData]; rfl
  case ctrl => rw [hostRead_ctrl, State.returns_readData]; rfl
  case cmd => rw [hostRead_cmd, State.returns_readData]; rfl

theorem writeCtrl_of_srst (s : State) {w : Word} (hw : w.getLsbD 1 = true) : s.writeCtrl w = s.resetEngine := by
  rw [State.writeCtrl, if_pos hw]

/-- Settles O23: both ways into the reset operation, and its fields. -/
theorem bothResets : Obligations.BothResets := by
  refine fun s => ⟨fun w hw => ?soft, fun rest ht => step_of_turn ht, rfl, ?id, rfl, rfl, rfl, rfl, rfl, rfl, rfl, rfl,
    Regs.free_legal s.draws⟩
  case soft => rw [hostWrite_ctrl, writeCtrl_of_srst s hw]
  case id => rw [hostRead_id, State.returns_readData]

/-! ### The commands that complete -/

/-- Settles O57: of the two ends of a completing step the second is that of EC_GENK and EC_SIGNH only. -/
theorem commandsTerminate : Obligations.CommandsTerminate := by
  intro s i hgenk hsignh
  have hdraws : ¬Draws i := by
    cases i with
    | ecGenk d a b => exact absurd rfl (hgenk d a b)
    | ecSignh a b => exact absurd rfl (hsignh a b)
    | _ => exact id
  rcases exec_cases i s with ⟨r, ok, cond, ovf, he⟩ | ⟨hi, -⟩
  · exact ⟨_, he, rfl, rfl, rfl⟩
  · exact absurd hi hdraws

/-! ### EC_GENK left alone -/

theorem State.after_succ {s t : State} (h : step s = .next t) (m : Nat) : s.after (m + 1) = t.after m := by
  rw [after, h]

/-- EC_GENK is in flight before the candidate of the generator `g`, and no turn is scheduled. -/
structure State.DrawsAlone (s : State) (d a : SReg) (b : RReg) (g : Generator) : Prop where
  turns : s.turns = []
  job : ∃ snap, s.job = some { word := encode (.ecGenk d a b), snap := snap, seq := .gen g }

theorem State.DrawsAlone.redraw {s : State} {d a : SReg} {b : RReg} {g : Generator} (h : s.DrawsAlone d a b g) :
    (s.redraw (.ecGenk d a b) g).DrawsAlone d a b (g.afterReject s.hmac) := ⟨h.turns, s.src, rfl⟩

/-- In the default order one step draws one candidate (logs 1, 5). -/
theorem State.DrawsAlone.step_eq {s : State} {d a : SReg} {b : RReg} {g : Generator} (h : s.DrawsAlone d a b g) :
    step s =
      if acceptable (g.candidate s.hmac) then finish s (s.regs.setS d (g.candidate s.hmac).toNat)
      else .next (s.redraw (.ecGenk d a b) g) := by
  obtain ⟨snap, hj⟩ := h.job
  rw [step_of_job h.turns hj, completeTurn_of_job hj (decodeOfEncode _), exec_ecGenk_of_gen (s.seq_of_job _ hj)]

/-- The candidates of the loop are drawn step by step until one is accepted, which completes the command. -/
theorem State.DrawsAlone.completes {d a : SReg} {b : RReg} {k : Word256} (fuel : Nat) {s : State} {g : Generator}
    (h : s.DrawsAlone d a b g) (hk : candidateLoop s.hmac fuel g = some k) :
    ∃ m ≤ fuel, s.after m = some (s.complete (s.regs.setS d k.toNat) true false false) := by
  induction fuel generalizing s g with
  | zero => cases hk
  | succ fuel ih =>
    have hstep := h.step_eq
    rw [candidateLoop] at hk
    split_ifs at hk hstep with ha
    · obtain rfl := Option.some.inj hk
      exact ⟨1, by omega, after_succ hstep 0⟩
    · obtain ⟨m, hm, hafter⟩ := ih h.redraw hk
      exact ⟨m + 1, by omega, (after_succ hstep m).trans hafter⟩

/-- While the loop finds no candidate the command stays in flight. -/
theorem State.DrawsAlone.stays_busy {d a : SReg} {b : RReg} (m : Nat) {s : State} {g : Generator}
    (h : s.DrawsAlone d a b g) (hb : s.status.busy = true) (hnone : candidateLoop s.hmac m g = none) :
    ∃ t, s.after m = some t ∧ t.status.busy = true ∧ t.status.done = s.status.done ∧ t.regs = s.regs := by
  induction m generalizing s g with
  | zero => exact ⟨s, rfl, hb, rfl, rfl⟩
  | succ m ih =>
    have hstep := h.step_eq
    rw [candidateLoop] at hnone
    split_ifs at hnone hstep with ha
    obtain ⟨t, hafter, ht⟩ := ih h.redraw rfl hnone
    exact ⟨t, (after_succ hstep m).trans hafter, ht⟩

/-- EC_GENK just accepted is before the first candidate of its seeded generator (43_ecdsa.md R242). -/
theorem State.accept_drawsAlone {s : State} (ht : s.turns = []) (d a : SReg) (b : RReg) :
    (s.accept (encode (.ecGenk d a b)) (.ecGenk d a b)).DrawsAlone d a b
      (seedGenerator s.hmac s.regs.s[a] (s.regs.rawAt b)) := ⟨ht, s.regs, rfl⟩

/-- Settles O39: the accepted command draws one candidate a step. -/
theorem nonceLoopRuns : Obligations.NonceLoopRuns := by
  intro s d a b _ _ ht
  have hdraws := State.accept_drawsAlone ht d a b
  rw [State.submit_of_decode s (decodeOfEncode _)]
  refine ⟨fun fuel k hk => ?completes, fun hnone m => hdraws.stays_busy m rfl (hnone m)⟩
  case completes =>
    obtain ⟨m, hm, hafter⟩ := hdraws.completes fuel hk
    refine ⟨m, _, hm, hafter, ?_, onlyS_set rfl, rfl, rfl⟩
    rw [State.complete_regs, Regs.setS_s_self, BitVec.ofNat_toNat, BitVec.setWidth_eq]

end Sys2Proof.Machine
end

section
/-! PROOFS. The end of a run (70_reset_and_hazards.md R355, 20_memory.md R86). -/

namespace Sys2Proof.Machine

/-! ### BUSY and the command in flight -/

/-- BUSY stands exactly while a command is in flight (10_state.md R43): of coherence, what a run's end needs. -/
def State.BusyTells (s : State) : Prop := s.status.busy = s.job.isSome

theorem State.BusyTells.job_of_idle {s : State} (h : s.BusyTells) (hb : s.status.busy = false) : s.job = none := by
  simpa [hb] using h.symm

theorem State.BusyTells.hostOp {s : State} (h : s.BusyTells) (op : HostOp) : (s.hostOp op).BusyTells := by
  rcases hostOp_cases s op with ⟨_, _, _, st, he, hst⟩ | ⟨w, -, -, he⟩ | ⟨b, he⟩ | ⟨w, -, hb, he⟩ | ⟨i, j, w, -, -, he⟩ <;>
    rw [he]
  · rcases hst with rfl | rfl | ⟨w, rfl⟩ <;> exact h
  · exact rfl
  · exact h
  · rcases submit_cases s w with ⟨i, -, he⟩ | ⟨e, -, he⟩ <;> rw [he]
    · exact rfl
    · exact h
  · exact h

theorem State.BusyTells.step {s t : State} (h : s.BusyTells) (hstep : step s = .next t) : t.BusyTells := by
  obtain ⟨-, -, hcases⟩ := step_cases s t hstep
  rcases hcases with ⟨-, op, ops, -, tt, rfl⟩ | ⟨tt, rfl⟩ | ⟨m, tt, j, i, hj, -, rfl⟩ | ⟨-, tt, rfl⟩ |
    ⟨-, tt, j, i, -, -, he⟩
  · exact State.BusyTells.hostOp (s := { s with turns := tt, hostQueue := ops }) h op
  · exact h
  · exact Eq.trans h (hj ▸ rfl)
  · exact rfl
  · rcases exec_next_cases he with ⟨r, ok, cond, ovf, rfl, -⟩ | ⟨g, rfl⟩ <;> exact rfl

/-! ### A STATUS read that returned BUSY = 0 -/

theorem State.hostRead_job (s : State) (off : BitVec 12) (bytes : Nat) : (s.hostRead off bytes).job = s.job := by
  obtain ⟨w, d, he | he⟩ := hostRead_frame s off bytes <;> rw [he]

/-- Once a STATUS read after the last CMD write has returned BUSY = 0, no command is in flight (20_memory.md R83, R86). -/
theorem State.BusyTells.job_of_seesIdle {s : State} (h : s.BusyTells) {op : HostOp} {seen : Bool}
    (hseen : seen = true → s.job = none) (hidle : op.seesIdle (s.hostOp op).readData seen = true) :
    (s.hostOp op).job = none := by
  have status_read (hbit : (!s.status.toWord.getLsbD 0) = true) : s.job = none :=
    h.job_of_idle (by rwa [Status.toWord_busy, Bool.not_eq_true'] at hbit)
  cases op with
  | read off bytes =>
    rw [State.hostOp, hostRead_job]
    rcases Bool.or_eq_true_iff.1 hidle with hs | hread
    · exact hseen hs
    · simp only [Bool.and_eq_true, beq_iff_eq] at hread
      obtain ⟨⟨rfl, rfl⟩, hbit⟩ := hread
      rw [State.hostOp, hostRead_status, State.returns_readData] at hbit
      exact status_read hbit
  | write off bytes w =>
    obtain ⟨hs, hcmd⟩ := Bool.and_eq_true_iff.1 hidle
    by_contra hne
    obtain ⟨w', hop⟩ := hostOp_job_ne_none (hseen hs) hne
    obtain ⟨rfl, rfl, rfl⟩ := HostOp.write.inj hop
    exact absurd hcmd (by decide)
  | wait =>
    rw [hostOp_wait] at hidle ⊢
    rcases Bool.or_eq_true_iff.1 hidle with hs | hbit
    · exact hseen hs
    · exact status_read hbit

/-- A step without a host access puts no command in flight. -/
theorem step_job_of_no_access {s t : State} (ha : s.access = none) (hj : s.job = none) (hstep : step s = .next t) :
    t.job = none := by
  obtain ⟨-, -, hcases⟩ := step_cases s t hstep
  rcases hcases with ⟨hm, op, ops, hq, -⟩ | ⟨tt, rfl⟩ | ⟨m, tt, j, i, hj', -⟩ | ⟨-, tt, rfl⟩ | ⟨-, tt, j, i, hj', -⟩
  · rw [State.access_of_cons hm hq] at ha; cases ha
  · exact hj
  · rw [hj] at hj'; cases hj'
  · rfl
  · rw [hj] at hj'; cases hj'

/-- A step keeps what the record of the accesses says (log 26). -/
theorem State.BusyTells.step_seesIdle {s t : State} (h : s.BusyTells) {seen : Bool} (hseen : seen = true → s.job = none)
    (hstep : Machine.step s = .next t) (hidle : s.access.elim seen (·.seesIdle t.readData seen) = true) : t.job = none := by
  cases ha : s.access with
  | none => rw [ha] at hidle; exact step_job_of_no_access ha (hseen hidle) hstep
  | some op =>
    obtain ⟨tt, ops, -, he⟩ := step_access s op ha
    obtain rfl := Host.Outcome.next.inj (he.symm.trans hstep)
    rw [ha] at hidle
    exact job_of_seesIdle (s := { s with turns := tt, hostQueue := ops }) h hseen hidle

/-- Where a run is over no access is pending and no command is in flight (70_reset_and_hazards.md R355). -/
theorem State.BusyTells.over (m : Nat) {s : State} (h : s.BusyTells) {seen : Bool} (hseen : seen = true → s.job = none)
    (hover : s.overAfter m seen = true) :
    ∃ t, s.after m = some t ∧ t.hostQueue = [] ∧ t.job = none ∧ t.status.busy = false := by
  induction m generalizing s seen with
  | zero =>
    obtain ⟨hq, hs⟩ := Bool.and_eq_true_iff.1 hover
    exact ⟨s, rfl, List.isEmpty_iff.1 hq, hseen hs, Eq.trans h (by rw [hseen hs]; rfl)⟩
  | succ m ih =>
    rw [overAfter] at hover
    rw [after]
    split at hover
    · next t hstep => exact ih (h.step hstep) (h.step_seesIdle hseen hstep) hover
    · cases hover

/-! ### After the end -/

/-- With nothing left to do a step that is no reset uses up its turn only. -/
theorem step_of_nothing_left {s : State} (hq : s.hostQueue = []) (hj : s.job = none) (hr : .rst ∉ s.turns) :
    step s = .next { s with turns := s.turns.tail } := by
  cases ht : s.turns with
  | nil =>
    rw [step_of_idle ht hj, State.hostTurn_of_nil hq, List.tail_nil, ← ht]
  | cons u rest =>
    rw [step_of_turn ht]
    cases u with
    | host => exact congrArg Host.Outcome.next (State.hostTurn_of_nil (s := { s with turns := rest }) hq)
    | engine m => exact congrArg Host.Outcome.next (State.engineTurn_of_idle (s := { s with turns := rest }) hj m)
    | complete => exact State.completeTurn_of_idle (s := { s with turns := rest }) hj
    | rst => exact absurd List.mem_cons_self (ht ▸ hr)

theorem after_of_nothing_left (k : Nat) {s : State} (hq : s.hostQueue = []) (hj : s.job = none) (hr : .rst ∉ s.turns) :
    ∃ turns, s.after k = some { s with turns := turns } := by
  induction k generalizing s with
  | zero => exact ⟨s.turns, rfl⟩
  | succ k ih =>
    rw [State.after, step_of_nothing_left hq hj hr]
    exact ih (s := { s with turns := s.turns.tail }) hq hj fun hmem => hr (List.mem_of_mem_tail hmem)

/-- What the host reads does not depend on the schedule. -/
theorem State.observation_setTurns (s : State) (turns : List Turn) (off : BitVec 12) :
    State.observation { s with turns := turns } off = s.observation off := by
  have result (w : Word) : (State.readResult { s with turns := turns } w).readData = (s.readResult w).readData := by
    unfold State.readResult
    split <;> rfl
  unfold State.observation State.hostRead
  split
  · unfold State.readRegion
    cases region off with
    | id | status | ctrl | cmd | raw | unmapped => rfl
    | _ => exact result _
  · rfl

/-- Settles O60: what BUSY tells goes along the run to its end, and after the end only turns are used up. -/
theorem endOfRun : Obligations.EndOfRun := by
  intro s m hc hover
  obtain ⟨t, hafter, hq, hj, hb⟩ := State.BusyTells.over m hc.busy_iff (seen := false) nofun hover
  refine ⟨t, hafter, hq, hj, hb, fun g w hw => ?value, fun hr k => ?final⟩
  case value => rw [State.observation, hostRead_window hb hw, State.returns_readData]
  case final =>
    obtain ⟨turns, hk⟩ := after_of_nothing_left k hq hj hr
    exact ⟨_, hk, t.observation_setTurns turns⟩

end Sys2Proof.Machine
end

section
/-! PROOFS. A result is a function of the command and of its sources in the snapshot (70_reset_and_hazards.md R352,
60_exceptions.md R301). -/

namespace Sys2Proof.Machine

open Sys2Proof.Config (p n)

/-! ### Agreement on sources -/

/-- Two register sets hold the same in every register of a list. -/
def AgreeOn (l : List DataReg) (r r' : Regs) : Prop := ∀ x ∈ l, SameAt r r' x

section

variable {l : List DataReg} {r r' : Regs} (h : AgreeOn l r r')
include h

theorem AgreeOn.rawAt (i : RReg) (hi : .raw i ∈ l := by simp [reads]) : r.rawAt i = r'.rawAt i :=
  congrArg BitVec.toNat (h (.raw i) hi)

theorem AgreeOn.raw_eq (i : RReg) (hi : .raw i ∈ l := by simp [reads]) : r.raw[i] = r'.raw[i] := h (.raw i) hi

theorem AgreeOn.fAt (i : FReg) (hi : .f i ∈ l := by simp [reads]) : r.fAt i = r'.fAt i :=
  congrArg BitVec.toNat (h (.f i) hi)

theorem AgreeOn.s_eq (i : SReg) (hi : .s i ∈ l := by simp [reads]) : r.s[i] = r'.s[i] := h (.s i) hi

theorem AgreeOn.sAt (i : SReg) (hi : .s i ∈ l := by simp [reads]) : r.sAt i = r'.sAt i :=
  congrArg BitVec.toNat (h (.s i) hi)

theorem AgreeOn.pAt (i : PReg) (hi : .p i ∈ l := by simp [reads]) : r.pAt i = r'.pAt i :=
  congrArg PointReg.toPoint (h (.p i) hi)

theorem AgreeOn.sig_eq (hi : .sig ∈ l := by simp [reads]) : r.sig = r'.sig := h .sig hi

end

/-! ### One register written alike -/

section

variable (r r' : Regs)

theorem sameAt_setRaw (d : RReg) (v : Nat) : SameAt (r.setRaw d v) (r'.setRaw d v) (.raw d) :=
  (r.setRaw_raw_self d v).trans (r'.setRaw_raw_self d v).symm

theorem sameAt_setF (d : FReg) (v : Nat) : SameAt (r.setF d v) (r'.setF d v) (.f d) :=
  (r.setF_f_self d v).trans (r'.setF_f_self d v).symm

theorem sameAt_setS (d : SReg) (v : Nat) : SameAt (r.setS d v) (r'.setS d v) (.s d) :=
  (r.setS_s_self d v).trans (r'.setS_s_self d v).symm

theorem sameAt_setP (d : PReg) (v : Point) : SameAt (r.setP d v) (r'.setP d v) (.p d) :=
  (r.setP_p_self d v).trans (r'.setP_p_self d v).symm

theorem sameAt_setSig (g : Sig) : SameAt (r.setSig g) (r'.setSig g) .sig := rfl

theorem sameAt_setVout (v : Nat) : SameAt (r.setVout v) (r'.setVout v) .vout := rfl

end

/-! ### The ends of a command on two engines -/

/-- Where both answers complete, they show the same OK, COND and OVF, and with OK = 1 the same value in the register `w`. -/
def SameEnd (w : Option DataReg) (A A' : Answer) : Prop :=
  ∀ t t', A = .next t → A' = .next t' → t.job = none → t'.job = none →
    t.status.ok = t'.status.ok ∧ t.status.cond = t'.status.cond ∧ t.status.ovf = t'.status.ovf ∧
      (t.status.ok = true → ∀ x, w = some x → SameAt t.regs t'.regs x)

section

variable {s s' : State} {w : Option DataReg}

theorem SameEnd.complete {r r' : Regs} {ok cond ovf : Bool} (h : ok = true → ∀ x, w = some x → SameAt r r' x) :
    SameEnd w (.next (s.complete r ok cond ovf)) (.next (s'.complete r' ok cond ovf)) := by
  rintro _ _ ⟨⟩ ⟨⟩ - -
  exact ⟨rfl, rfl, rfl, h⟩

/-- Both write one value. -/
theorem SameEnd.write {α : Type} {x : DataReg} {write write' : α → Regs} (hw : ∀ v, SameAt (write v) (write' v) x) {v v' : α}
    (h : v = v') : SameEnd (some x) (finish s (write v)) (finish s' (write' v')) := by
  subst h
  refine .complete ?_
  rintro - _ ⟨⟩
  exact hw v

/-- Both write one value and agree on whether it overflows its register. -/
theorem SameEnd.ovf {α : Type} {x : DataReg} {write write' : α → Regs} (hw : ∀ v, SameAt (write v) (write' v) x) {v v' : α}
    {ovf ovf' : Bool} (h : v = v') (hovf : ovf = ovf') :
    SameEnd (some x) (finishOvf s (write v) ovf) (finishOvf s' (write' v') ovf') := by
  subst h hovf
  refine .complete ?_
  rintro - _ ⟨⟩
  exact hw v

theorem SameEnd.cond {b b' : Bool} (h : b = b') : SameEnd none (finishCond s b) (finishCond s' b') := by
  subst h
  exact .complete nofun

/-- An Option result: with OK = 1 both write it. -/
theorem SameEnd.option {α : Type} {x : DataReg} {write write' : α → Regs} (hw : ∀ v, SameAt (write v) (write' v) x)
    {res res' : Option α} (h : res = res') :
    SameEnd (some x) (finishOption s res write) (finishOption s' res' write') := by
  subst h
  refine .complete ?_
  rintro hok _ ⟨⟩
  cases res with
  | none => cases hok
  | some v => exact hw v

end

/-! ### The looping commands, wherever their loops stand

Only coherence is at hand here: the registers may be out of range, so the lemmas over `State.Inv` do not speak of these states. -/

section

variable {s t : State} (h : s.Coherent)
include h

/-- The one product of a command in flight is the product from the beginning (42_point.md R206). -/
theorem State.Coherent.product_eq {i : Instr} (hr : s.Running i) {a : Point} {k : Nat}
    (hi : OneProduct i := by exact fun _ _ _ _ _ => rfl)
    (hs : Sequencer.start s.hmac s.src i = .startSmul k a := by rfl) : s.seq.product a k = ptSmul a k := by
  obtain ⟨j, -, hsrc, hseq, -, hj⟩ := h.job_coherent hr
  rw [hseq]
  exact (hj.onSmul hi (hsrc ▸ hs)).product

/-- EC_VERIFY in flight is `verify` of its sources (43_ecdsa.md R250). -/
theorem State.Coherent.exec_ecVerify {a : PReg} {b : SReg} (hr : s.Running (.ecVerify a b)) :
    exec (.ecVerify a b) s = finishCond s (verify (s.src.pAt a) (s.src.sAt b) s.src.sig) := by
  obtain ⟨j, -, hsrc, hseq, -, hj⟩ := h.job_coherent hr
  rw [exec, execEcVerify, verify, hsrc, hseq]
  cases hv : verifyScalars (j.snap.pAt a) (j.snap.sAt b) j.snap.sig with
  | none => rfl
  | some u => exact congrArg (fun R => finishCond s (verifyEnd j.snap.sig R)) (hj.ecVerify hv)

/-- EC_GENK completes with the nonce `generate_k` gives (43_ecdsa.md R244). -/
theorem State.Coherent.exec_ecGenk_of_completes {d a : SReg} {b : RReg} (hr : s.Running (.ecGenk d a b))
    (he : exec (.ecGenk d a b) s = .next t) (ht : t.job = none) :
    ∃ fuel k, generateK s.hmac fuel s.src.s[a] (s.src.rawAt b) = some k ∧
      exec (.ecGenk d a b) s = finish s (s.regs.setS d k.toNat) := by
  obtain ⟨j, -, hsrc, hseq, -, hj⟩ := h.job_coherent hr
  obtain ⟨g, hg, hreach⟩ := hj.ecGenk
  rw [exec_ecGenk_of_gen (hseq.trans hg)] at he ⊢
  rw [hsrc]
  split_ifs at he ⊢ with ha
  · obtain ⟨fuel, hk⟩ := hreach.result ha
    exact ⟨fuel, _, hk, rfl⟩
  · cases he; cases ht

/-- EC_SIGNH completes as `sign` with the nonce `generate_k` gives (43_ecdsa.md R247, R248). -/
theorem State.Coherent.exec_ecSignh_of_completes {a : SReg} {b : RReg} (hr : s.Running (.ecSignh a b))
    (he : exec (.ecSignh a b) s = .next t) (ht : t.job = none) :
    ∃ fuel k, generateK s.hmac fuel s.src.s[a] (s.src.rawAt b) = some k ∧
      exec (.ecSignh a b) s = finishOption s (sign (s.src.sAt a) (s.src.rawAt b % n) k.toNat) s.regs.setSig := by
  obtain ⟨j, -, hsrc, hseq, -, hj⟩ := h.job_coherent hr
  rcases hj.ecSignh with ⟨g, hg, hreach⟩ | ⟨k, ⟨fuel, hk⟩, acc, addend, bit, hq, hprod⟩
  · by_cases ha : acceptable (g.candidate s.hmac) = true
    · obtain ⟨fuel, hk⟩ := hreach.result ha
      refine ⟨fuel, _, hsrc ▸ hk, ?_⟩
      rw [exec, execEcSignh, hseq, hg]
      exact congrArg Host.Outcome.next (if_pos ha)
    · rw [exec_ecSignh_of_rejected (hseq.trans hg) ha] at he
      cases he; cases ht
  · refine ⟨fuel, k, hsrc ▸ hk, ?_⟩
    rw [sign, ← hprod, exec, execEcSignh, hseq, hq]
    rfl

end

/-! ### The result -/

/-- Command by command: the value written is a function of the sources; a loop is finished from where it stands. -/
theorem exec_sameEnd {s s' : State} {i : Instr} (hc : s.Coherent) (hc' : s'.Coherent) (hr : s.Running i) (hr' : s'.Running i)
    (hhmac : s.hmac = s'.hmac) (h : AgreeOn (reads i) s.src s'.src) : SameEnd (writes i) (exec i s) (exec i s') := by
  cases i with
  | nop => exact .complete nofun
  | feNew d a => exact .write (sameAt_setF _ _ d) (congrArg (· % p) (h.rawAt a))
  | feAdd d a b => exact .write (sameAt_setF _ _ d) (congrArg₂ addP (h.fAt a) (h.fAt b))
  | feSub d a b => exact .write (sameAt_setF _ _ d) (congrArg₂ subP (h.fAt a) (h.fAt b))
  | feMul d a b => exact .write (sameAt_setF _ _ d) (congrArg₂ mulP (h.fAt a) (h.fAt b))
  | fePow d a b => exact .write (sameAt_setF _ _ d) (congrArg₂ powP (h.fAt a) (h.rawAt b))
  | feInv d a => exact .option (sameAt_setF _ _ d) (congrArg invP (h.fAt a))
  | feEq a b => exact .cond (congrArg₂ (· == ·) (h.fAt a) (h.fAt b))
  | feRet d a => exact .write (sameAt_setRaw _ _ d) (h.fAt a)
  | scNew d a => exact .write (sameAt_setS _ _ d) (congrArg (· % n) (h.rawAt a))
  | scAdd d a b => exact .write (sameAt_setS _ _ d) (congrArg₂ addN (h.sAt a) (h.sAt b))
  | scSub d a b => exact .write (sameAt_setS _ _ d) (congrArg₂ subN (h.sAt a) (h.sAt b))
  | scMul d a b => exact .write (sameAt_setS _ _ d) (congrArg₂ mulN (h.sAt a) (h.sAt b))
  | scPow d a b => exact .write (sameAt_setS _ _ d) (congrArg₂ powN (h.sAt a) (h.rawAt b))
  | scInv d a => exact .option (sameAt_setS _ _ d) (congrArg invN (h.sAt a))
  | scEq a b => exact .cond (congrArg₂ (· == ·) (h.sAt a) (h.sAt b))
  | scRet d a => exact .write (sameAt_setRaw _ _ d) (h.sAt a)
  | scFromfe d a => exact .write (sameAt_setS _ _ d) (congrArg (· % n) (h.fAt a))
  | ptSetinf d => exact .write (sameAt_setP _ _ d) rfl
  | ptLoad d a b => exact .write (sameAt_setP _ _ d) (congrArg₂ Point.aff (h.fAt a) (h.fAt b))
  | ptAdd d a b => exact .write (sameAt_setP _ _ d) (congrArg₂ ptAdd (h.pAt a) (h.pAt b))
  | ptDbl d a => exact .write (sameAt_setP _ _ d) (congrArg ptDbl (h.pAt a))
  | ptMul d a b =>
    refine .write (sameAt_setP _ _ d) ?_
    rw [hc.product_eq hr, hc'.product_eq hr', h.pAt a, h.rawAt b]
  | ptMulg d a =>
    refine .write (sameAt_setP _ _ d) ?_
    rw [hc.product_eq hr, hc'.product_eq hr', h.rawAt a]
  | ptGetx d a => exact .option (sameAt_setF _ _ d) (congrArg Point.x? (h.pAt a))
  | ptGety d a => exact .option (sameAt_setF _ _ d) (congrArg Point.y? (h.pAt a))
  | ptIsinf a => exact .cond (congrArg (· == Point.inf) (h.pAt a))
  | ecGenk d a b =>
    intro t t' he he' ht ht'
    obtain ⟨fuel, k, hk, hend⟩ := hc.exec_ecGenk_of_completes hr he ht
    obtain ⟨fuel', k', hk', hend'⟩ := hc'.exec_ecGenk_of_completes hr' he' ht'
    rw [hhmac, h.s_eq a, h.rawAt b] at hk
    obtain rfl := candidateLoop_unique hk hk'
    exact SameEnd.write (sameAt_setS _ _ d) rfl t t' (hend ▸ he) (hend' ▸ he') ht ht'
  | ecSign a b c =>
    refine .option (sameAt_setSig _ _) ?_
    rw [hc.product_eq hr, hc'.product_eq hr', h.sAt a, h.sAt b, h.sAt c]
  | ecSignh a b =>
    intro t t' he he' ht ht'
    obtain ⟨fuel, k, hk, hend⟩ := hc.exec_ecSignh_of_completes hr he ht
    obtain ⟨fuel', k', hk', hend'⟩ := hc'.exec_ecSignh_of_completes hr' he' ht'
    rw [hhmac, h.s_eq a, h.rawAt b] at hk
    obtain rfl := candidateLoop_unique hk hk'
    rw [h.sAt a, h.rawAt b] at hend
    exact SameEnd.option (sameAt_setSig _ _) rfl t t' (hend ▸ he) (hend' ▸ he') ht ht'
  | ecVerify a b =>
    rw [hc.exec_ecVerify hr, hc'.exec_ecVerify hr', h.pAt a, h.sAt b, h.sig_eq]
    exact .cond rfl
  | ecPubkey d a =>
    refine .write (sameAt_setP _ _ d) ?_
    rw [hc.product_eq hr, hc'.product_eq hr', h.sAt a]
  | sigLoad a b c =>
    refine .write (sameAt_setSig _ _) ?_
    rw [h.s_eq a, h.s_eq b, h.raw_eq c]
  | sigNorm => exact .write (sameAt_setSig _ _) (congrArg normalize h.sig_eq)
  | sigValid => exact .cond (congrArg isValid h.sig_eq)
  | sigVleg => exact .ovf (sameAt_setVout _ _) (by rw [h.sig_eq]) (by rw [h.sig_eq])
  | sigV155 a => exact .ovf (sameAt_setVout _ _) (by rw [h.rawAt a, h.sig_eq]) (by rw [h.rawAt a, h.sig_eq])

/-- Settles O58, by the ends of each command on two engines. -/
theorem resultsAreDetermined : Obligations.ResultsAreDetermined :=
  fun _ _ t t' _ hc hc' hr hr' hhmac h he he' => exec_sameEnd hc hc' hr hr' hhmac h t t' he he'

end Sys2Proof.Machine
end
